-- ==== Sys2Proof/Word.lean ====
section
/-! DEFINITION. The data types of the block: bytes and command words (spec/00_scope.md R6, R7).
An index is a plain `Nat` below the build-time `C` (R7: an integer in `0 .. C-1`); the bound is the invariant of
10_state.md R15, and a state that breaks it is refused (DESIGN CHOICE, safe: log 7, log 24). -/

namespace Sys2Proof

/-- One stored element, `DW = 8` bits (00_scope.md R6, R7: a byte is an integer in `0 .. 255`, unsigned). -/
abbrev Byte := BitVec 8

/-- A command word, 16 bits (30_encoding.md R54). -/
abbrev CmdWord := BitVec 16

end Sys2Proof
end

