-- ==== Sys2Proof/Config.lean ====
section
/-! DEFINITION. The build-time parameters of the block (spec/00_scope.md R5, R6). No free value is needed: what the
spec leaves open (the schedule, the moves of the views) is data in the trace (log 2). -/

namespace Sys2Proof

/-- How each side sees the other side's index (00_scope.md R6; 20_memory.md R36). -/
inductive SyncMode
  | DIRECT
  | SYNCED
  deriving DecidableEq, Repr

/-- The arguments the model takes: `C` and `SYNC_MODE` (00_scope.md R5, R6). -/
structure Config where
  C    : Nat
  mode : SyncMode
  deriving DecidableEq, Repr

/-- The defaults: `C = 512`, `DIRECT` (00_scope.md R5, R6). -/
def Config.default : Config := ⟨512, .DIRECT⟩

/-- Bits of a stored element (00_scope.md R6). -/
def DW : Nat := 8

/-- The largest `n` of `READ_INTO` that a command word can carry (00_scope.md R6; 30_encoding.md R57). -/
def NMAX : Nat := 4095

/-- `AW = max(1, ceil(log2 C))`, the bits of an index register (00_scope.md R6; 10_state.md R12). -/
def AW (C : Nat) : Nat := max 1 (if C ≤ 1 then 0 else Nat.log2 (C - 1) + 1)

/-- The most bytes the buffer can hold (00_scope.md R6; 10_state.md R19). -/
def USABLE (C : Nat) : Nat := C - 1

end Sys2Proof
end

