-- ==== Sys2Proof/Syntax.lean ====
section
/-! DEFINITION. The six operations and the agents that issue them (spec/30_encoding.md R50, R55, R58), and the
reasons a command word is illegal (R59). -/

namespace Sys2Proof

/-- The two agents that issue operations (60_exceptions.md R139, R140). -/
inductive Agent
  | P
  | K
  deriving DecidableEq, Repr

/-- One constructor for each row of spec/opcode_table.json (30_encoding.md R50, R55). `NOP` and the queries carry
the agent that issues them (the `ag` bit); the others have one legal agent (R58). `READ_INTO` takes any natural `n`
(R57: the source puts no bound on `n`); `NMAX` bounds only what a command word can carry. -/
inductive Instr
  | nop (ag : Agent)
  | isEmpty (ag : Agent)
  | isFull (ag : Agent)
  | push (imm8 : Byte)
  | pop
  | readInto (n : Nat)
  deriving DecidableEq, Repr

/-- The agent that performs an operation (30_encoding.md R58). -/
def Instr.agent : Instr → Agent
  | .nop ag => ag
  | .isEmpty ag => ag
  | .isFull ag => ag
  | .push _ => .P
  | .pop => .K
  | .readInto _ => .K

/-- Why a command word is illegal (30_encoding.md R59). -/
inductive Illegal
  /-- `op` is `0b110` or `0b111`. -/
  | reservedOp
  /-- `PUSH` with `ag = 1`, `POP` or `READ_INTO` with `ag = 0`. -/
  | wrongRole
  /-- An operand bit that the operation does not use is not zero. -/
  | operandBits
  deriving DecidableEq, Repr

end Sys2Proof
end

