-- ==== Sys2Proof/WellFormed.lean ====
section
/-! DEFINITION. Which instruction terms a command word can carry. -/

namespace Sys2Proof

/-- The one operand that a term can hold and a command word cannot is a `READ_INTO` count above `NMAX`
(30_encoding.md R57). -/
def Instr.wf : Instr → Bool
  | .nop _ => true
  | .isEmpty _ => true
  | .isFull _ => true
  | .push _ => true
  | .pop => true
  | .readInto n => decide (n ≤ NMAX)

end Sys2Proof
end

