-- ==== Sys2Proof/Decode.lean ====
section
/-! DEFINITION. Decoding and encoding of the 16-bit command word (spec/30_encoding.md R54 to R61). Decoding is total
and rejects every illegal word by name; it never answers with a neighbouring operation (R59). -/

namespace Sys2Proof

/-- `v[hi:lo] = floor(v / 2^lo) mod 2^(hi-lo+1)` (00_scope.md R7). -/
def bitField (v hi lo : Nat) : Nat := v / 2 ^ lo % 2 ^ (hi - lo + 1)

/-- Bits 15:13 (R54). -/
def fieldOp (w : CmdWord) : Nat := bitField w.toNat 15 13

/-- Bit 12 (R54): 0 the producer, 1 the consumer. -/
def fieldAg (w : CmdWord) : Agent := if bitField w.toNat 12 12 = 0 then .P else .K

/-- Bits 11:0 (R54). -/
def fieldArg (w : CmdWord) : Nat := bitField w.toNat 11 0

/-- `arg[7:0]`, the operand of `PUSH`, no extension or scaling (R56). -/
def fieldImm8 (w : CmdWord) : Byte := BitVec.ofNat 8 (bitField (fieldArg w) 7 0)

/-- `arg[11:8]`, which must be zero in `PUSH` (R56). -/
def fieldImmPad (w : CmdWord) : Nat := bitField (fieldArg w) 11 8

/-- An operation that takes no operand: legal when `arg` is zero (R59). -/
def noOperand (w : CmdWord) (i : Instr) : Except Illegal Instr :=
  if fieldArg w = 0 then .ok i else .error .operandBits

/-- An operation that only one agent may issue (R58, R59). -/
def onlyBy (a : Agent) (w : CmdWord) (r : Except Illegal Instr) : Except Illegal Instr :=
  if fieldAg w = a then r else .error .wrongRole

/-- The decoder: R55 for `op`, R56 and R57 for the operands, R58 and R59 for what is illegal. Where a word is illegal
for two reasons the wrong role is named (DESIGN CHOICE, safe: log 8). -/
def decode (w : CmdWord) : Except Illegal Instr :=
  match fieldOp w with
  | 0 => noOperand w (.nop (fieldAg w))
  | 1 => noOperand w (.isEmpty (fieldAg w))
  | 2 => noOperand w (.isFull (fieldAg w))
  | 3 => onlyBy .P w (if fieldImmPad w = 0 then .ok (.push (fieldImm8 w)) else .error .operandBits)
  | 4 => onlyBy .K w (noOperand w .pop)
  | 5 => onlyBy .K w (.ok (.readInto (fieldArg w)))
  | _ => .error .reservedOp

/-- The three fields `op[15:13]`, `ag[12]`, `arg[11:0]` put together (R54). -/
def packWord (op : Nat) (ag : Agent) (arg : Nat) : CmdWord :=
  BitVec.ofNat 16 (op * 2 ^ 13 + (match ag with | .P => 0 | .K => 1) * 2 ^ 12 + arg % 2 ^ 12)

/-- The word of an instruction, from the `op` values of R55 and the operand fields of R56 and R57. For a
`READ_INTO` count above `NMAX` (not well-formed) no word exists, and the value given here stands for nothing. -/
def encode : Instr → CmdWord
  | .nop ag => packWord 0 ag 0
  | .isEmpty ag => packWord 1 ag 0
  | .isFull ag => packWord 2 ag 0
  | .push imm8 => packWord 3 .P imm8.toNat
  | .pop => packWord 4 .K 0
  | .readInto n => packWord 5 .K n

/-- The name of an operation in spec/opcode_table.json (R50). -/
def Instr.mnemonic : Instr → String
  | .nop _ => "NOP"
  | .isEmpty _ => "IS_EMPTY"
  | .isFull _ => "IS_FULL"
  | .push _ => "PUSH"
  | .pop => "POP"
  | .readInto _ => "READ_INTO"

/-- A row of the opcode table (R61): a word belongs to it when `word and mask == pattern`. -/
structure OpRow where
  mnemonic : String
  pattern  : CmdWord
  mask     : CmdWord
  deriving DecidableEq, Repr

/-- A word belongs to a row (R61). -/
abbrev OpRow.selects (r : OpRow) (w : CmdWord) : Prop := w &&& r.mask = r.pattern

/-- The opcode map of R61 (spec/opcode_table.json). The decoder does not use it; that the two agree is stated. -/
def opcodeTable : List OpRow :=
  [⟨"NOP", 0x0000, 0xEFFF⟩,
   ⟨"IS_EMPTY", 0x2000, 0xEFFF⟩,
   ⟨"IS_FULL", 0x4000, 0xEFFF⟩,
   ⟨"PUSH", 0x6000, 0xFF00⟩,
   ⟨"POP", 0x9000, 0xFFFF⟩,
   ⟨"READ_INTO", 0xB000, 0xF000⟩]

/-- The command word whose low `nbits` bits are those of `w` and whose other bits are zero. A command is handed over
whole, so there is no byte order to choose (20_memory.md R35, 30_encoding.md R54; log 18). -/
def tableWord (nbits w : Nat) : CmdWord := BitVec.ofNat 16 (w % 2 ^ nbits)

/-- What the decoder reads from a word of the opcode table. Every command is 16 bits long (R59). -/
def decodeTableWord (nbits w : Nat) : Option Instr :=
  if nbits ≤ 16 then (decode (tableWord nbits w)).toOption else none

end Sys2Proof
end

