-- ==== Sys2Proof/Machine/State.lean ====
section
/-! DEFINITION. The state of the machine, the reasons a step can stop, and the state after reset
(spec/10_state.md R10 to R26; INVENTORY.md, State). -/

namespace Sys2Proof.Machine

/-- Bytes by address, addresses strictly rising; an address that is not listed holds no value (10_state.md R16). -/
abbrev Memory := List Host.Cell

/-- How the producer side's `head` and the consumer side's `tail` are seen (10_state.md R14): directly, or through the
two synchroniser registers, which exist in `SYNCED` mode only. -/
inductive Sync
  | direct
  | synced (headView tailView : Nat)
  deriving DecidableEq, Repr

/-- What `P` holds between the micro-steps of a `PUSH` (10_state.md R25; 41_push.md R81): the byte, the observed head,
and which micro-step was the last. A `PUSH` that P1 rejects holds nothing: it is over. -/
inductive POp
  | idle
  | afterP1 (b : Byte) (h : Nat)
  | afterP2 (b : Byte) (h : Nat)
  deriving DecidableEq, Repr

/-- A `POP` in progress (10_state.md R25; 42_pop_read.md R91): the observed tail, and after K2 the byte. -/
inductive PopOp
  | afterK1 (t : Nat)
  | afterK2 (t : Nat) (v : Byte)
  deriving DecidableEq, Repr

/-- What `K` holds between micro-steps (10_state.md R25): a `POP` in progress; or a `READ_INTO` with its `n`, its
`count` and the `POP` in progress if it is not between two of them (42_pop_read.md R96); or a drain pass, with the `POP`
in progress if it is not between two of them (30_encoding.md R63; log 15). -/
inductive KOp
  | idle
  | pop (p : PopOp)
  | readInto (n count : Nat) (p : Option PopOp)
  | drain (p : Option PopOp)
  deriving DecidableEq, Repr

/-- What an operation returns to its agent (30_encoding.md R60). `NOP` returns nothing. -/
inductive Result
  | isEmpty (b : Bool)
  | isFull (b : Bool)
  | push (accepted : Bool)
  | pop (r : Option Byte)
  | readInto (count : Nat) (bytes : List Byte)
  deriving DecidableEq, Repr

/-- One entry of a trace program (30_encoding.md R64): what happens next, and to which agent. -/
inductive TraceItem
  /-- The agent of the word performs the whole operation, nothing between its micro-steps (20_memory.md R48). -/
  | command (w : CmdWord)
  /-- The agent of the word begins the operation and performs its first micro-step only (`K: pop.k1`). -/
  | start (w : CmdWord)
  /-- The agent performs the next micro-step of its operation in progress (`K: pop.k2`, `K: pop.k3`). -/
  | micro (a : Agent)
  /-- `S: sync_head k`: `head_view` advances `k` steps (43_cross_domain_sync.md R112). -/
  | syncHead (k : Nat)
  /-- `S: sync_tail k`: `tail_view` advances `k` steps (R111). -/
  | syncTail (k : Nat)
  /-- `K: drain` with nothing between its `POP`s: `K: pop` until one returns `none` (30_encoding.md R63). -/
  | drain
  /-- `K: drain` begun, its first micro-step only; `.micro .K` performs the next ones, and the entries between them are
  what the other agents do meanwhile (30_encoding.md R63; 70_reset_and_hazards.md R163; log 15). -/
  | startDrain
  /-- The environment supplies output regions of this length from now on (42_pop_read.md R100; log 11). -/
  | region (len : Nat)
  /-- The reset port is asserted in mid-run (30_encoding.md R53; 70_reset_and_hazards.md R151). -/
  | rst
  deriving DecidableEq, Repr

/-- The ghost state of 10_state.md R21 (not hardware; no step reads it to decide anything). `popped` is the model's
own: the bytes of the successful pops in order (DESIGN CHOICE, safe: log 14). -/
structure Ghost where
  PU       : Nat
  PO       : Nat
  HV       : Nat
  TV       : Nat
  IN       : List Byte
  popped   : List Byte
  deriving DecidableEq, Repr

/-- The machine. `C` and the form of `sync` are the build-time parameters, which no step writes (log 1); `head`,
`tail`, the views in `sync` and `storage` are the block's registers and memory; `pOp` and `kOp` are the in-flight
values; `out`, `regionLen`, `results` and `trace` are the environment's side (INVENTORY.md, State). -/
structure State where
  C         : Nat
  sync      : Sync
  head      : Nat
  tail      : Nat
  storage   : Memory
  pOp       : POp
  kOp       : KOp
  out       : Memory
  regionLen : Nat
  results   : List (Agent × Result)
  trace     : List TraceItem
  ghost     : Ghost
  deriving DecidableEq, Repr

/-- Why the machine stops with a fault. -/
inductive Fault
  /-- A `MemRead` of a slot that holds no value, raised by K2 of a `POP` or of a `READ_INTO` (10_state.md R16,
  20_memory.md R31, 93 U1). Safe: no value is made up; the spec calls it a fault of the model. -/
  | unwrittenSlot (slot : Nat)
  deriving DecidableEq, Repr

/-- Why a step has no meaning. All are breaches of the environment's contract (60_exceptions.md R134), and all are
safe: nothing can be proved of what follows. -/
inductive Refusal
  /-- No meaning has been written for the instruction; raised by no arm of this model. -/
  | notModelled (mnemonic : String)
  /-- `C < 2` (00_scope.md R5, 93 U2). Raised by every step of an agent. -/
  | capacityTooSmall
  /-- An index register or view holds a value of `C` or more (93 U3). Raised by every step of an agent. -/
  | indexOutOfRange
  /-- The command word is illegal (30_encoding.md R59, 93 U9). Raised by the decoder's callers. -/
  | illegalCommand (why : Illegal)
  /-- The agent already has an operation in progress: a re-entrant `PUSH`, a second `POP` (R158, 93 U7). -/
  | operationInProgress (a : Agent)
  /-- A step of `K` inside a `PUSH` in `DIRECT` mode (20_memory.md R40). -/
  | consumerInsidePush
  /-- A micro-step of an agent that has no operation in progress (30_encoding.md R64). -/
  | nothingInProgress (a : Agent)
  /-- A synchroniser step in `DIRECT` mode, where there is no synchroniser (43_cross_domain_sync.md R110). -/
  | noSynchroniser
  /-- A view moved to a value outside `Between` (R111, R112). -/
  | outsideBetween
  /-- `READ_INTO` with an output region shorter than `n` (42_pop_read.md R100, 93 U8). -/
  | regionTooShort
  /-- Reset in mid-run (70_reset_and_hazards.md R151, 93 U6). -/
  | midRunReset
  deriving DecidableEq, Repr

/-- The ghost state at reset (10_state.md R26). -/
def Ghost.reset : Ghost :=
  { PU := 0, PO := 0, HV := 0, TV := 0, IN := [], popped := [] }

/-- The state after reset of a block built with the given parameters (10_state.md R26; 70_reset_and_hazards.md R150).
`out`, `results` and `trace` are empty and `regionLen` is `NMAX` (DESIGN CHOICE: log 3, log 11, log 13). -/
def State.resetWith (cfg : Config) : State :=
  { C         := cfg.C
    sync      := match cfg.mode with
                 | .DIRECT => .direct
                 | .SYNCED => .synced 0 0
    head      := 0
    tail      := 0
    storage   := []
    pOp       := .idle
    kOp       := .idle
    out       := []
    regionLen := NMAX
    results   := []
    trace     := []
    ghost     := Ghost.reset }

/-- The state after reset with the default parameters (00_scope.md R5, R6; log 1). -/
def State.reset : State := State.resetWith Config.default

end Sys2Proof.Machine
end

