-- ==== Sys2Proof/Machine/Ops.lean ====
section
/-! DEFINITION. The shared operations: index arithmetic, the two memories, the updates of the state that the
micro-steps are made of, and the check that a step keeps the environment's contract.

The block takes no exception and returns from none (spec/60_exceptions.md R132, R137, R138): its two exceptional
outcomes are results (R131, R133), so the shared operation that gives one is `giveResult`. -/

namespace Sys2Proof.Machine

/-! Nat arithmetic (00_scope.md R7). -/

/-- `inc(i) = (i + 1) mod C`. -/
def inc (C : Nat) (i : Nat) : Nat := (i + 1) % C

/-- `i` advanced by `k` steps. -/
def advanceBy (C : Nat) (i : Nat) (k : Nat) : Nat := (i + k) % C

/-- `dist(a, b) = (b - a) mod C`, for indices `a`, `b` below `C`. -/
def dist (C : Nat) (a b : Nat) : Nat := (b + (C - a)) % C

/-- `Between(a, b)`: the indices met walking forward from `a` to `b`, both included
(43_cross_domain_sync.md R113). -/
def between (C : Nat) (a b : Nat) : List Nat :=
  (List.range (dist C a b + 1)).map (advanceBy C a)

/-! Memory: a list of cells with rising addresses (log 5, log 11). -/

/-- The byte at an address, if it holds one. -/
def Memory.read : Memory → Nat → Option Byte
  | [], _ => none
  | (a, v) :: m, i => if a = i then some v else Memory.read m i

/-- A byte stored at an address; the cells stay in order and every other address is as before. -/
def Memory.write : Memory → Nat → Byte → Memory
  | [], i, b => [(i, b)]
  | (a, v) :: m, i, b =>
    if i < a then (i, b) :: (a, v) :: m
    else if i = a then (i, b) :: m
    else (a, v) :: Memory.write m i b

/-- The canonical form: addresses strictly rising. No cell can equal what an unlisted address reads as, since an
unlisted address holds no value. -/
abbrev Memory.wf (m : Memory) : Prop := List.Pairwise (fun x y => x.1 < y.1) m

/-- An output region holding these bytes at offsets 0, 1, 2, ... (20_memory.md R34). -/
def regionOf (bytes : List Byte) : Memory :=
  (List.range bytes.length).zip bytes

/-! Modes and roles. -/

/-- `SYNC_MODE` (00_scope.md R6). -/
def State.mode (s : State) : SyncMode :=
  match s.sync with
  | .direct => .DIRECT
  | .synced _ _ => .SYNCED

/-- The agent has an operation in progress (10_state.md R25). -/
def busy (a : Agent) (s : State) : Bool :=
  match a with
  | .P => decide (s.pOp ≠ .idle)
  | .K => decide (s.kOp ≠ .idle)

/-! The access primitives and the updates the micro-steps are made of. -/

/-- `MemRead(i, 1)` (20_memory.md R31). A slot that holds no value is a fault of the model (10_state.md R16). -/
def memRead (s : State) (i : Nat) : Except Fault Byte :=
  match Memory.read s.storage i with
  | some v => .ok v
  | none => .error (.unwrittenSlot i)

/-- `MemWrite(i, 1, v)` (20_memory.md R32). -/
def memWrite (i : Nat) (v : Byte) (s : State) : State :=
  { s with storage := Memory.write s.storage i v }

/-- `OutWrite(k, v)` (20_memory.md R34). -/
def outWrite (k : Nat) (v : Byte) (s : State) : State :=
  { s with out := Memory.write s.out k v }

/-- A fresh output region for a `READ_INTO` (30_encoding.md R57). -/
def freshRegion (s : State) : State := { s with out := [] }

/-- `result <- r`: the operation returns `r` to its agent (30_encoding.md R60). -/
def giveResult (a : Agent) (r : Result) (s : State) : State :=
  { s with results := s.results ++ [(a, r)] }

/-- The producer's in-flight values (10_state.md R25). -/
def setPOp (o : POp) (s : State) : State := { s with pOp := o }

/-- The consumer's in-flight values (10_state.md R25). -/
def setKOp (o : KOp) (s : State) : State := { s with kOp := o }

/-- The trace still to be performed (30_encoding.md R64). -/
def setTrace (l : List TraceItem) (s : State) : State := { s with trace := l }

/-- The ghost part of an accepted push (41_push.md R81): `PU` counts it and `IN` gains the byte. In `DIRECT` mode
`TV = PU` always (10_state.md R21). -/
def Ghost.pushed (mode : SyncMode) (b : Byte) (g : Ghost) : Ghost :=
  { g with
    PU := g.PU + 1
    IN := g.IN ++ [b]
    TV := match mode with
          | .DIRECT => g.PU + 1
          | .SYNCED => g.TV }

/-- The ghost part of a successful pop (42_pop_read.md R91): `PO` counts it. In `DIRECT` mode `HV = PO` always
(10_state.md R21). `popped` gains the byte (log 14). -/
def Ghost.popTaken (mode : SyncMode) (v : Byte) (g : Ghost) : Ghost :=
  { g with
    PO := g.PO + 1
    popped := g.popped ++ [v]
    HV := match mode with
          | .DIRECT => g.PO + 1
          | .SYNCED => g.HV }

/-- P3: `tail <- inc(tail)` (41_push.md R81), with the ghost part of accepting `b`. -/
def advanceTail (b : Byte) (s : State) : State :=
  { s with tail := inc s.C s.tail, ghost := s.ghost.pushed s.mode b }

/-- K3: `head <- inc(head)` (42_pop_read.md R91), with the ghost part of taking `v`. -/
def advanceHead (v : Byte) (s : State) : State :=
  { s with head := inc s.C s.head, ghost := s.ghost.popTaken s.mode v }

/-! What a step may do (60_exceptions.md R134; 70_reset_and_hazards.md R155 to R161). -/

/-- The index registers, the views among them, hold indices (10_state.md R15). -/
def indicesInRange (s : State) : Bool :=
  decide (s.head < s.C) && decide (s.tail < s.C) &&
    match s.sync with
    | .direct => true
    | .synced hv tv => decide (hv < s.C) && decide (tv < s.C)

/-- The conditions on the block itself, under which any agent may step: `C >= 2` and indices in range. -/
def contract (s : State) : Option Refusal :=
  if s.C < 2 then some .capacityTooSmall
  else if indicesInRange s then none
  else some .indexOutOfRange

/-- In `DIRECT` mode no step of `K` occurs inside a `PUSH` (20_memory.md R40). -/
def insidePush (a : Agent) (s : State) : Bool :=
  decide (a = .K) && decide (s.mode = .DIRECT) && busy .P s

/-- Why agent `a` may not begin an operation. `none`: it may, since the contract holds, it has none in progress (one
operation finishes before the agent's next begins: 20_memory.md R40, 70_reset_and_hazards.md R158), and it is not `K`
inside a `PUSH`. -/
def cannotBegin (a : Agent) (s : State) : Option Refusal :=
  match contract s with
  | some r => some r
  | none =>
    if busy a s then some (.operationInProgress a)
    else if insidePush a s then some .consumerInsidePush
    else none

/-- Why agent `a` may not perform the next micro-step of an operation it has in progress, `none` if it may. -/
def cannotContinue (a : Agent) (s : State) : Option Refusal :=
  match contract s with
  | some r => some r
  | none =>
    if !busy a s then some (.nothingInProgress a)
    else if insidePush a s then some .consumerInsidePush
    else none

/-- Agent `a` is ready to begin an operation. -/
abbrev Ready (a : Agent) (s : State) : Prop := cannotBegin a s = none

/-- Do `f` where `check` finds nothing wrong. -/
def unlessRefused (check : Option Refusal) (f : Host.Outcome State Fault Refusal) :
    Host.Outcome State Fault Refusal :=
  match check with
  | some r => .refused r
  | none => f

/-- The outcome of a computation that can only end in a state or a fault of the model. -/
def ofExcept : Except Fault State → Host.Outcome State Fault Refusal
  | .ok s => .next s
  | .error f => .fault f

/-- First `o`, then `f` in the state it leaves. -/
def andThen (o : Host.Outcome State Fault Refusal) (f : State → Host.Outcome State Fault Refusal) :
    Host.Outcome State Fault Refusal :=
  match o with
  | .next s => f s
  | .fault r => .fault r
  | .refused r => .refused r

end Sys2Proof.Machine
end

