-- ==== Sys2Proof/Machine/Operands.lean ====
section
/-! DEFINITION. How an agent reads an index register (spec/20_memory.md R36). It is the one operand form of the block
besides the immediate fields of the command word, which Sys2Proof/Decode.lean reads. -/

namespace Sys2Proof.Machine

/-- The two index registers, by name (00_scope.md R8). -/
inductive IndexReg
  | head
  | tail
  deriving DecidableEq, Repr

/-- `Obs(a, r)`: an agent sees its own index exactly, and the other's exactly in `DIRECT` mode and through the view in
`SYNCED` mode (20_memory.md R36). -/
def obs (a : Agent) (r : IndexReg) (s : State) : Nat :=
  match a, r, s.sync with
  | .P, .head, .synced hv _ => hv
  | .P, .head, .direct => s.head
  | .P, .tail, _ => s.tail
  | .K, .tail, .synced _ tv => tv
  | .K, .tail, .direct => s.tail
  | .K, .head, _ => s.head

end Sys2Proof.Machine
end

