-- ==== Sys2Proof/Machine/Flags.lean ====
section
/-! DEFINITION. The flags `empty` and `full`, which are comparisons and not registers (spec/10_state.md R17, R18), and
the occupancy (R19). There are no other flags (R20). -/

namespace Sys2Proof.Machine

/-- `empty` of a pair of index values (10_state.md R17). -/
def emptyOf (h t : Nat) : Bool := decide (h = t)

/-- `full` of a pair of index values (10_state.md R18). -/
def fullOf (C : Nat) (h t : Nat) : Bool := decide (inc C t = h)

/-- `empty` as agent `a` evaluates it (10_state.md R17). -/
def emptySeen (a : Agent) (s : State) : Bool := emptyOf (obs a .head s) (obs a .tail s)

/-- `full` as agent `a` evaluates it (10_state.md R18). -/
def fullSeen (a : Agent) (s : State) : Bool := fullOf s.C (obs a .head s) (obs a .tail s)

/-- The number of bytes pushed and not yet popped (10_state.md R19). -/
def occupancy (s : State) : Nat := dist s.C s.head s.tail

/-- The occupied slots, oldest byte first: those from `head` forward to the one before `tail`
(20_memory.md R33, R46). -/
def occupiedSlots (s : State) : List Nat :=
  (List.range (occupancy s)).map (advanceBy s.C s.head)

/-- The free slots: those from `tail` forward to `(head - 1) mod C`, the last of them the sentinel
(20_memory.md R46). -/
def freeSlots (s : State) : List Nat :=
  (List.range (s.C - occupancy s)).map (advanceBy s.C s.tail)

/-- What the slots of the occupied range hold, oldest first. -/
def contents (s : State) : List (Option Byte) :=
  (occupiedSlots s).map (Memory.read s.storage)

end Sys2Proof.Machine
end

