-- ==== Sys2Proof/Machine/Pop.lean ====
section
/-! DEFINITION. `POP` (spec/42_pop_read.md R90 to R95): its micro-steps K1, K2, K3 and the whole operation.
`READ_INTO` is built from the same pieces. -/

namespace Sys2Proof.Machine

/-- One whole `POP`, without its result being given to anyone yet (R91): K1 decides with `K`'s `empty`; K2 reads
`storage[head]`; K3 advances `head`. -/
def popOnce (s : State) : Except Fault (Option Byte × State) :=
  if emptySeen .K s then .ok (none, s)
  else
    match memRead s s.head with
    | .ok v => .ok (some v, advanceHead v s)
    | .error f => .error f

/-- The whole of a `POP` (R91). -/
def popWhole (s : State) : Except Fault State :=
  match popOnce s with
  | .ok (r, t) => .ok (giveResult .K (.pop r) t)
  | .error f => .error f

/-- `POP` (R91). An empty buffer is the normal outcome `none` (R92). -/
def execPop (s : State) : Host.Outcome State Fault Refusal :=
  unlessRefused (cannotBegin .K s) (ofExcept (popWhole s))

/-- The first micro-step of a `POP`: K1, which ends it when empty (R91). -/
def popBegin (s : State) : State :=
  if emptySeen .K s then giveResult .K (.pop none) s
  else setKOp (.pop (.afterK1 (obs .K .tail s))) s

/-- The next micro-step of the `POP` in progress: K2, then K3 (R91). -/
def popContinue (p : PopOp) (s : State) : Except Fault State :=
  match p with
  | .afterK1 t =>
    match memRead s s.head with
    | .ok v => .ok (setKOp (.pop (.afterK2 t v)) s)
    | .error f => .error f
  | .afterK2 _ v => .ok (giveResult .K (.pop (some v)) (setKOp .idle (advanceHead v s)))

end Sys2Proof.Machine
end

