-- ==== Sys2Proof/Machine/Push.lean ====
section
/-! DEFINITION. `PUSH` (spec/41_push.md R80 to R87): its micro-steps P1, P2, P3 and the whole operation. -/

namespace Sys2Proof.Machine

/-- P1 when full: the result is `false` and nothing changes; the byte is dropped (R81, R82). -/
def pushReject (s : State) : State := giveResult .P (.push false) s

/-- P2: `MemWrite(tail, 1, b)` (R81). -/
def pushWrite (b : Byte) (s : State) : State := memWrite s.tail b s

/-- P3: `tail <- inc(tail)` and the result `true` (R81). -/
def pushAdvance (b : Byte) (s : State) : State := giveResult .P (.push true) (advanceTail b s)

/-- The whole of a `PUSH`: P1 decides with `P`'s `full`; P2, then P3 (R81). -/
def pushWhole (b : Byte) (s : State) : State :=
  if fullSeen .P s then pushReject s else pushAdvance b (pushWrite b s)

/-- `PUSH` (R81). It always completes with a result (R84). -/
def execPush (b : Byte) (s : State) : Host.Outcome State Fault Refusal :=
  unlessRefused (cannotBegin .P s) (.next (pushWhole b s))

/-- The first micro-step of a `PUSH`: P1, which ends it when full (R81). -/
def pushBegin (b : Byte) (s : State) : State :=
  if fullSeen .P s then pushReject s else setPOp (.afterP1 b (obs .P .head s)) s

/-- The next micro-step of the `PUSH` in progress: P2, then P3 (R81). It is always enabled (R84). -/
def pushContinue (s : State) : State :=
  match s.pOp with
  | .idle => s
  | .afterP1 b h => setPOp (.afterP2 b h) (pushWrite b s)
  | .afterP2 b _ => setPOp .idle (pushAdvance b s)

end Sys2Proof.Machine
end

