-- ==== Sys2Proof/Machine/ReadInto.lean ====
section
/-! DEFINITION. `READ_INTO` (spec/42_pop_read.md R96 to R103): a loop of `POP`s into the output region. The whole
operation runs with nothing between its `POP`s; its micro-steps let steps of other agents in (R96, R99). -/

namespace Sys2Proof.Machine

/-- The result: `count`, and the bytes of the output region (30_encoding.md R60). -/
def readFinish (count : Nat) (s : State) : State :=
  giveResult .K (.readInto count (s.out.map Prod.snd)) s

/-- The loop, with `left = n - count` passes still allowed (R96): test `count < n` first, then one `POP`; a `none`
ends it, a byte goes to `out[count]`. -/
def readLoop : (left count : Nat) → State → Except Fault State
  | 0, count, s => .ok (readFinish count s)
  | left + 1, count, s =>
    match popOnce s with
    | .ok (none, t) => .ok (readFinish count t)
    | .ok (some v, t) => readLoop left (count + 1) (outWrite count v t)
    | .error f => .error f

/-- An output region shorter than `n` is a caller error the block cannot detect; the model refuses it (R100). -/
def regionCheck (n : Nat) (s : State) : Option Refusal :=
  if n ≤ s.regionLen then none else some .regionTooShort

/-- `READ_INTO` (R96), into a fresh region (30_encoding.md R57). -/
def execReadInto (n : Nat) (s : State) : Host.Outcome State Fault Refusal :=
  unlessRefused (cannotBegin .K s)
    (unlessRefused (regionCheck n s) (ofExcept (readLoop n 0 (freshRegion s))))

/-- The loop head with `count < n`, K1 of the next `POP` (R96): when empty the `READ_INTO` is over. -/
def readK1 (n count : Nat) (s : State) : State :=
  if emptySeen .K s then setKOp .idle (readFinish count s)
  else setKOp (.readInto n count (some (.afterK1 (obs .K .tail s)))) s

/-- The first micro-step of a `READ_INTO`: with `n = 0` it is over at once and reads no index (R98); else K1 of the
first `POP`. -/
def readBegin (n : Nat) (s : State) : State :=
  if n = 0 then readFinish 0 (freshRegion s) else readK1 n 0 (freshRegion s)

/-- The next micro-step of the `READ_INTO` in progress (R96). `OutWrite` goes with K3 (93 U16; log 12), and the
operation ends with the K3 that makes `count` reach `n`: no further observation of `tail` is made. -/
def readContinue (n count : Nat) (p : Option PopOp) (s : State) : Except Fault State :=
  match p with
  | none => .ok (readK1 n count s)
  | some (.afterK1 t) =>
    match memRead s s.head with
    | .ok v => .ok (setKOp (.readInto n count (some (.afterK2 t v))) s)
    | .error f => .error f
  | some (.afterK2 _ v) =>
    let t := outWrite count v (advanceHead v s)
    if count + 1 < n then .ok (setKOp (.readInto n (count + 1) none) t)
    else .ok (setKOp .idle (readFinish (count + 1) t))

end Sys2Proof.Machine
end

