-- ==== Sys2Proof/Machine/Status.lean ====
section
/-! DEFINITION. `NOP`, `IS_EMPTY`, `IS_FULL` (spec/40_status_flags.md R70 to R72): they change no state of the block.
Each is one step, so a `NOP` or query is never in progress. -/

namespace Sys2Proof.Machine

/-- `NOP` (R70): nothing, and no result (30_encoding.md R60). -/
def execNop (a : Agent) (s : State) : Host.Outcome State Fault Refusal :=
  unlessRefused (cannotBegin a s) (.next s)

/-- `IS_EMPTY` (R71): `result <- (Obs(a, head) == Obs(a, tail))`. -/
def execIsEmpty (a : Agent) (s : State) : Host.Outcome State Fault Refusal :=
  unlessRefused (cannotBegin a s) (.next (giveResult a (.isEmpty (emptySeen a s)) s))

/-- `IS_FULL` (R72): `result <- (inc(Obs(a, tail)) == Obs(a, head))`. -/
def execIsFull (a : Agent) (s : State) : Host.Outcome State Fault Refusal :=
  unlessRefused (cannotBegin a s) (.next (giveResult a (.isFull (fullSeen a s)) s))

end Sys2Proof.Machine
end

