-- ==== Sys2Proof/Machine/Dispatch.lean ====
section
/-! DEFINITION. One arm per operation. -/

namespace Sys2Proof.Machine

def exec (i : Instr) (s : State) : Host.Outcome State Fault Refusal :=
  match i with
  | .nop ag => Sys2Proof.Machine.execNop ag s
  | .isEmpty ag => Sys2Proof.Machine.execIsEmpty ag s
  | .isFull ag => Sys2Proof.Machine.execIsFull ag s
  | .push imm8 => Sys2Proof.Machine.execPush imm8 s
  | .pop => Sys2Proof.Machine.execPop s
  | .readInto n => Sys2Proof.Machine.execReadInto n s

end Sys2Proof.Machine
end

