-- ==== Sys2Proof/Machine/Drain.lean ====
section
/-! DEFINITION. A drain pass taken apart (spec/30_encoding.md R63, spec/42_pop_read.md R101): `POP`s one after another,
micro-step by micro-step, so that steps of the other agents can fall anywhere between them. It has no bound of its own
(spec/70_reset_and_hazards.md R163). -/

namespace Sys2Proof.Machine

/-- K1 of the next `POP` of a drain: the `POP` that finds the ring empty returns `none` and is the last (R63). -/
def drainK1 (s : State) : State :=
  if emptySeen .K s then giveResult .K (.pop none) (setKOp .idle s)
  else setKOp (.drain (some (.afterK1 (obs .K .tail s)))) s

/-- The first micro-step of a drain. -/
def drainBegin (s : State) : Host.Outcome State Fault Refusal :=
  unlessRefused (cannotBegin .K s) (.next (drainK1 s))

/-- The next micro-step of the drain in progress: K1, K2, K3 of each `POP` in turn (42_pop_read.md R91). A `POP` that
returns a byte does not end the drain (R63). -/
def drainContinue (p : Option PopOp) (s : State) : Except Fault State :=
  match p with
  | none => .ok (drainK1 s)
  | some (.afterK1 t) =>
    match memRead s s.head with
    | .ok v => .ok (setKOp (.drain (some (.afterK2 t v))) s)
    | .error f => .error f
  | some (.afterK2 _ v) => .ok (giveResult .K (.pop (some v)) (setKOp (.drain none) (advanceHead v s)))

end Sys2Proof.Machine
end

