-- ==== Sys2Proof/Machine/Synchroniser.lean ====
section
/-! DEFINITION. The steps of the two synchroniser agents (spec/43_cross_domain_sync.md R110 to R115). The `choose` of
R111 and R112 is the number of steps `k` that the trace gives: `v` is in `Between(view, index)` exactly when `v` is the
view advanced by some `k <= dist(view, index)` (R113; log 10). -/

namespace Sys2Proof.Machine

/-- `tail_view <- v`, `v` being `tail_view` advanced `k` steps, and `TV` with it (R111). -/
def moveTailView (hv tv : Nat) (k : Nat) (s : State) : State :=
  { s with sync := .synced hv (advanceBy s.C tv k), ghost := { s.ghost with TV := s.ghost.TV + k } }

/-- `head_view <- v`, `v` being `head_view` advanced `k` steps, and `HV` with it (R112). -/
def moveHeadView (hv tv : Nat) (k : Nat) (s : State) : State :=
  { s with sync := .synced (advanceBy s.C hv k) tv, ghost := { s.ghost with HV := s.ghost.HV + k } }

/-- `SYNC_TAIL`, the step of `ST` (R111): `tail_view` advances `k` steps. -/
def syncTail (k : Nat) (s : State) : Host.Outcome State Fault Refusal :=
  unlessRefused (contract s)
    (match s.sync with
     | .direct => .refused .noSynchroniser
     | .synced hv tv =>
       if k ≤ dist s.C tv s.tail then .next (moveTailView hv tv k s) else .refused .outsideBetween)

/-- `SYNC_HEAD`, the step of `SH` (R112): `head_view` advances `k` steps. -/
def syncHead (k : Nat) (s : State) : Host.Outcome State Fault Refusal :=
  unlessRefused (contract s)
    (match s.sync with
     | .direct => .refused .noSynchroniser
     | .synced hv tv =>
       if k ≤ dist s.C hv s.head then .next (moveHeadView hv tv k s) else .refused .outsideBetween)

end Sys2Proof.Machine
end

