-- ==== Sys2Proof/Machine/Schedule.lean ====
section
/-! DEFINITION. What one entry of the trace does (spec/30_encoding.md R64; 20_memory.md R40): a whole command, the
first or the next micro-step of an operation, a step of a synchroniser, a drain, or something the environment does. -/

namespace Sys2Proof.Machine

/-- A whole command: decode it and perform it (30_encoding.md R54). An illegal word is refused by name (R59). -/
def runCommand (w : CmdWord) (s : State) : Host.Outcome State Fault Refusal :=
  match decode w with
  | .ok i => exec i s
  | .error why => .refused (.illegalCommand why)

/-- The first micro-step of an operation (20_memory.md R40). `NOP` and the queries are one step. -/
def beginOp (i : Instr) (s : State) : Host.Outcome State Fault Refusal :=
  match i with
  | .nop ag => execNop ag s
  | .isEmpty ag => execIsEmpty ag s
  | .isFull ag => execIsFull ag s
  | .push imm8 => unlessRefused (cannotBegin .P s) (.next (pushBegin imm8 s))
  | .pop => unlessRefused (cannotBegin .K s) (.next (popBegin s))
  | .readInto n =>
    unlessRefused (cannotBegin .K s) (unlessRefused (regionCheck n s) (.next (readBegin n s)))

/-- The first micro-step of a command. -/
def startCommand (w : CmdWord) (s : State) : Host.Outcome State Fault Refusal :=
  match decode w with
  | .ok i => beginOp i s
  | .error why => .refused (.illegalCommand why)

/-- The next micro-step of the operation that agent `a` has in progress. -/
def microStep (a : Agent) (s : State) : Host.Outcome State Fault Refusal :=
  unlessRefused (cannotContinue a s)
    (match a with
     | .P => .next (pushContinue s)
     | .K =>
       match s.kOp with
       | .idle => .refused (.nothingInProgress .K)
       | .pop p => ofExcept (popContinue p s)
       | .readInto n count p => ofExcept (readContinue n count p s)
       | .drain p => ofExcept (drainContinue p s))

/-- `K: drain` with nothing between its `POP`s (30_encoding.md R63): one `POP`; the drain goes on unless that `POP` found
the ring empty. -/
def runDrain (s : State) : Host.Outcome State Fault Refusal :=
  andThen (exec .pop s)
    (fun t => .next (if emptySeen .K s then t else setTrace (.drain :: t.trace) t))

/-- One entry of the trace. -/
def runItem (x : TraceItem) (s : State) : Host.Outcome State Fault Refusal :=
  match x with
  | .command w => runCommand w s
  | .start w => startCommand w s
  | .micro a => microStep a s
  | .syncHead k => syncHead k s
  | .syncTail k => syncTail k s
  | .drain => runDrain s
  | .startDrain => drainBegin s
  | .region len => .next { s with regionLen := len }
  | .rst => .refused .midRunReset

/-- The entry that performs the command whose table bits are `w`: of a number of more than 16 bits, its low 16 bits
(DESIGN CHOICE, safe: log 18; no row of the table is so long, and `decodeTableWord` reads nothing from one). -/
def tableItem (nbits w : Nat) : TraceItem := .command (tableWord nbits w)

/-- What happens next: the entry that the harness's cursor finds (30_encoding.md R64). Past the end of the trace an
operation in progress goes on to its end, `P` first; `none` when there is none, and then the run is over
(70_reset_and_hazards.md R166; log 3). -/
def nextItem (s : State) : Option TraceItem :=
  match s.trace with
  | x :: _ => some x
  | [] => if busy .P s then some (.micro .P) else if busy .K s then some (.micro .K) else none

/-- One step performs what happens next. When the run is over nobody steps and nothing changes: the block never halts
of itself (70_reset_and_hazards.md R166; log 3). -/
def stepTrace (s : State) : Host.Outcome State Fault Refusal :=
  match nextItem s with
  | none => .next s
  | some x => runItem x (setTrace s.trace.tail s)

/-- `k` steps. -/
def steps : Nat → State → Host.Outcome State Fault Refusal
  | 0, s => .next s
  | k + 1, s => andThen (stepTrace s) (steps k)

end Sys2Proof.Machine
end

