-- ==== Sys2Proof/Machine/Step.lean ====
section
/-! DEFINITION. The step of the machine, and how a command is placed where the step takes its next one. -/

namespace Sys2Proof.Machine

/-- One step of the machine. -/
def step (s : State) : Host.Outcome State Fault Refusal := stepTrace s

/-- `s` with a command of the opcode table placed at the front of its trace, so that the next step performs it
(log 3: the environment hands commands to the agents; nothing in the block fetches). -/
def State.withFetchWord (s : State) (nbits w : Nat) : State :=
  { s with trace := tableItem nbits w :: s.trace }

end Sys2Proof.Machine
end

