-- ==== Sys2Proof/Machine/Asm.lean ====
section
/-! DEFINITION. The assembler syntax (spec/30_encoding.md R62 to R64), the spec's own notation. A line is read into the
trace entry it stands for (log 21). -/

namespace Sys2Proof.Machine

/-- A decimal or hexadecimal digit in a base of at most 16. -/
def digitValue (base : Nat) (c : Char) : Option Nat :=
  let v :=
    if '0' ≤ c ∧ c ≤ '9' then c.toNat - '0'.toNat
    else if 'a' ≤ c ∧ c ≤ 'f' then c.toNat - 'a'.toNat + 10
    else if 'A' ≤ c ∧ c ≤ 'F' then c.toNat - 'A'.toNat + 10
    else 16
  if v < base then some v else none

/-- The digits of a literal, most significant first, onto the value read so far. -/
def readDigits (base : Nat) : List Char → Nat → Option Nat
  | [], acc => some acc
  | c :: cs, acc =>
    match digitValue base c with
    | some d => readDigits base cs (acc * base + d)
    | none => none

/-- An operand: a decimal or `0x` hexadecimal literal (R62). -/
def readLiteral (cs : List Char) : Option Nat :=
  match cs with
  | [] => none
  | '0' :: 'x' :: [] => none
  | '0' :: 'x' :: ds => readDigits 16 ds 0
  | ds => readDigits 10 ds 0

/-- A blank between tokens. -/
def isBlank (c : Char) : Bool := c == ' ' || c == '\t'

/-- What stands before a comment, which runs from `;` to the end of the line, and before the expected result, which is
written after `->` (R62). -/
def commandPart : List Char → List Char
  | [] => []
  | ';' :: _ => []
  | '-' :: '>' :: _ => []
  | c :: cs => c :: commandPart cs

/-- The words of a line; `word` holds the letters of the word being read, last letter first. -/
def tokens : List Char → (word : List Char) → List (List Char)
  | [], word => if word = [] then [] else [word.reverse]
  | c :: cs, word =>
    if isBlank c then (if word = [] then tokens cs [] else word.reverse :: tokens cs [])
    else tokens cs (c :: word)

/-- `P:` or `K:`. -/
def readAgent (t : List Char) : Option Agent :=
  if t = "P:".toList then some .P
  else if t = "K:".toList then some .K
  else none

/-- A command without operand. `P: pop`, which R59 makes illegal, is read as no command (DESIGN CHOICE, safe: the spec
does not say what a line in the wrong role stands for; log 21). -/
def plainOp (a : Agent) (m : List Char) : Option Instr :=
  if m = "nop".toList then some (.nop a)
  else if m = "is_empty".toList then some (.isEmpty a)
  else if m = "is_full".toList then some (.isFull a)
  else if m = "pop".toList ∧ a = .K then some .pop
  else none

/-- A command with an operand, which must fit its field (R56, R57). `K: push` and `P: read_into`, which R59 makes
illegal, are read as no command (DESIGN CHOICE, safe: log 21). -/
def operandOp (a : Agent) (m : List Char) (n : Nat) : Option Instr :=
  if m = "push".toList ∧ a = .P ∧ n < 256 then some (.push (BitVec.ofNat 8 n))
  else if m = "read_into".toList ∧ a = .K ∧ n ≤ NMAX then some (.readInto n)
  else none

/-- The command a line spells: `<agent>: <mnemonic> [<operand>]` (R62). -/
def readInstr (ts : List (List Char)) : Option Instr :=
  match ts with
  | [a, m] => (readAgent a).bind (fun a => plainOp a m)
  | [a, m, x] => (readAgent a).bind (fun a => (readLiteral x).bind (operandOp a m))
  | _ => none

/-- A schedule annotation or the pseudo-instruction (R63, R64). `pop.k1` begins the `POP` whose word is `0x9000`;
`pop.k2` and `pop.k3` are its next micro-steps. -/
def readAnnotation (ts : List (List Char)) : Option TraceItem :=
  match ts with
  | [a, m] =>
    if a = "K:".toList then
      if m = "drain".toList then some .drain
      else if m = "pop.k1".toList then some (.start (encode .pop))
      else if m = "pop.k2".toList then some (.micro .K)
      else if m = "pop.k3".toList then some (.micro .K)
      else none
    else none
  | [a, m, x] =>
    if a = "S:".toList then
      if m = "sync_head".toList then (readLiteral x).map .syncHead
      else if m = "sync_tail".toList then (readLiteral x).map .syncTail
      else none
    else none
  | _ => none

/-- The trace entry of one line, or none where the line spells none. -/
def readLine (line : List Char) : Option TraceItem :=
  let ts := tokens (commandPart line) []
  match readInstr ts with
  | some i => some (.command (encode i))
  | none => readAnnotation ts

/-- A hexadecimal digit. -/
def hexDigit (v : Nat) : Char := "0123456789abcdef".toList.getD (v % 16) '0'

/-- `v` in `w` hexadecimal digits. -/
def hexDigits : (w v : Nat) → List Char
  | 0, _ => []
  | w + 1, v => hexDigits w (v / 16) ++ [hexDigit v]

/-- `0x` and two or three digits. -/
def hexLiteral (w v : Nat) : List Char := '0' :: 'x' :: hexDigits w v

/-- The agent as it begins a line. -/
def agentText (a : Agent) : List Char :=
  match a with
  | .P => "P:".toList
  | .K => "K:".toList

/-- The line that spells an instruction (R62). -/
def writeInstr (i : Instr) : List Char :=
  agentText i.agent ++ ' ' ::
    match i with
    | .nop _ => "nop".toList
    | .isEmpty _ => "is_empty".toList
    | .isFull _ => "is_full".toList
    | .push imm8 => "push ".toList ++ hexLiteral 2 imm8.toNat
    | .pop => "pop".toList
    | .readInto n => "read_into ".toList ++ hexLiteral 3 n

/-- A flag as it is written after `->` (R62). -/
def boolText (b : Bool) : List Char := if b then "true".toList else "false".toList

/-- The bytes of a `READ_INTO` result, after its count (R62); with none, nothing is written, as in 95_test_vectors.md PR3,
since R62 gives no form for an empty list (DEDUCED, safe: log 21). -/
def bytesText (bytes : List Byte) : List Char :=
  match bytes with
  | [] => []
  | _ :: _ => ' ' :: '[' :: List.intercalate [' '] (bytes.map (fun v => hexLiteral 2 v.toNat)) ++ [']']

/-- A result as it is written after `->`; the count of a `READ_INTO` in decimal, bytes in hexadecimal, two digits each
(R62; log 21). -/
def writeResult (r : Result) : List Char :=
  match r with
  | .isEmpty b => boolText b
  | .isFull b => boolText b
  | .push b => boolText b
  | .pop none => "none".toList
  | .pop (some v) => hexLiteral 2 v.toNat
  | .readInto count bytes =>
    Nat.toDigits 10 count ++ bytesText bytes

end Sys2Proof.Machine
end

