-- ==== Sys2Proof/Machine/Gray.lean ====
section
/-! DEFINITION. The transfer code (spec/43_cross_domain_sync.md R117, R118), which the spec takes from general
knowledge. It is invisible to every rule, and no step uses it (log 19). -/

namespace Sys2Proof.Machine

/-- `G(i) = i xor floor(i / 2)` (R117). -/
def gray (i : Nat) : Nat := i ^^^ (i / 2)

/-- The inverse `B(g)` on `w` bits: the top bit of `B` is that of `g`, and each lower bit of `B` is the next higher bit
of `B` xor the same bit of `g` (R118). -/
def ungray : (w g : Nat) → Nat
  | 0, _ => 0
  | w + 1, g => 2 * ungray w (g / 2) + (ungray w (g / 2) + g) % 2

/-- `k_empty` in Gray form: `G(head) == synced G(tail)` (R118). -/
def grayEmptyK (s : State) : Bool := decide (gray (obs .K .head s) = gray (obs .K .tail s))

/-- `p_full` in Gray form: `G(inc(tail)) == synced G(head)` (R118). -/
def grayFullP (s : State) : Bool := decide (gray (inc s.C (obs .P .tail s)) = gray (obs .P .head s))

end Sys2Proof.Machine
end

