-- ==== Sys2Proof/Machine/Ports.lean ====
section
/-! DEFINITION. The port-level view (spec/30_encoding.md R51, R52, R65) and the clocked reading of R49
(spec/20_memory.md). No step uses them; that they agree with the operations is stated. -/

namespace Sys2Proof.Machine

/-- The producer's inputs `p_push`, `p_data` (R51). -/
structure PIn where
  p_push : Bool
  p_data : Byte
  deriving DecidableEq, Repr

/-- The producer's outputs (R51). `p_ok` is meaningless when `p_push = 0`: no value (93 U5; log 17). -/
structure POut where
  p_ok    : Option Bool
  p_full  : Bool
  p_empty : Bool
  deriving DecidableEq, Repr

/-- The consumer's input `k_pop` (R52). -/
structure KIn where
  k_pop : Bool
  deriving DecidableEq, Repr

/-- The consumer's outputs (R52). `k_valid` is meaningless when `k_pop = 0`, and `k_data` is unspecified when
`k_valid = 0`: no value (93 U4, U5; log 17). -/
structure KOut where
  k_valid : Option Bool
  k_data  : Option Byte
  k_empty : Bool
  k_full  : Bool
  deriving DecidableEq, Repr

/-- The command that the producer's inputs stand for (R65). -/
def PIn.command (i : PIn) : Instr := if i.p_push then .push i.p_data else .nop .P

/-- The command that the consumer's input stands for (R65). -/
def KIn.command (i : KIn) : Instr := if i.k_pop then .pop else .nop .K

/-- `p_ok = p_push and not p_full`, evaluated at the same instant (R51). -/
def producerPorts (i : PIn) (s : State) : POut :=
  { p_ok    := if i.p_push then some (!fullSeen .P s) else none
    p_full  := fullSeen .P s
    p_empty := emptySeen .P s }

/-- `k_valid = k_pop and not k_empty`, and `k_data` is `storage[head]` before the advance (R52). -/
def consumerPorts (i : KIn) (s : State) : KOut :=
  { k_valid := if i.k_pop then some (!emptySeen .K s) else none
    k_data  := if i.k_pop && !emptySeen .K s then Memory.read s.storage s.head else none
    k_empty := emptySeen .K s
    k_full  := fullSeen .K s }

/-- A `PUSH` and a `POP` on one clock edge of a common clock, each deciding from the register values before the edge
(20_memory.md R49; log 20). The registers and `storage` take their new values together; the two results are recorded
one after the other, the producer's first. -/
def sameEdge (b : Byte) (s : State) : Except Fault State :=
  match popOnce s with
  | .error f => .error f
  | .ok (r, popped) =>
    let pushed := if fullSeen .P s then s else advanceTail b (pushWrite b s)
    .ok (giveResult .K (.pop r) (giveResult .P (.push (!fullSeen .P s))
      { s with
        storage := pushed.storage
        tail    := pushed.tail
        head    := popped.head
        ghost   := { PU := pushed.ghost.PU, TV := pushed.ghost.TV, IN := pushed.ghost.IN,
                     PO := popped.ghost.PO, HV := popped.ghost.HV, popped := popped.ghost.popped } }))

/-- The results an agent has been given, oldest first. -/
def resultsOf (a : Agent) (s : State) : List Result :=
  (s.results.filter (fun x => decide (x.1 = a))).map Prod.snd

end Sys2Proof.Machine
end

