-- ==== Sys2Proof/Safety.lean ====
section
/-! DEFINITION. What a good state and a good run are, in the terms the statements use: the invariants of
spec/10_state.md R15, R27, R28 with what the in-flight values add to them, reachable states, abstract contents, infinite
runs and the fairness of spec/43_cross_domain_sync.md R115. -/

namespace Sys2Proof.Machine

/-- The views hold the indices of `HV` and `TV`; in `DIRECT` mode there are none, and `HV = PO`, `TV = PU`
(10_state.md R21). -/
abbrev viewsAgree (s : State) : Prop :=
  match s.sync with
  | .direct => s.ghost.HV = s.ghost.PO ∧ s.ghost.TV = s.ghost.PU
  | .synced hv tv => hv = s.ghost.HV % s.C ∧ tv = s.ghost.TV % s.C

/-- A `PUSH` in progress saw a free slot, and what it saw stays true until P3 (10_state.md R27); after P2 the slot
`tail` holds its byte. -/
abbrev pushInProgressOk (s : State) : Prop :=
  match s.pOp with
  | .idle => True
  | .afterP1 _ _ => s.ghost.PU + 2 ≤ s.ghost.HV + s.C
  | .afterP2 b _ => s.ghost.PU + 2 ≤ s.ghost.HV + s.C ∧ Memory.read s.storage s.tail = some b

/-- A `POP` in progress saw a byte, and what it saw stays true until K3 (10_state.md R27); after K2 it holds the oldest
byte not yet popped. -/
abbrev popInProgressOk (p : PopOp) (s : State) : Prop :=
  match p with
  | .afterK1 _ => s.ghost.PO < s.ghost.TV
  | .afterK2 _ v => s.ghost.PO < s.ghost.TV ∧ s.ghost.IN[s.ghost.PO]? = some v

/-- A `READ_INTO` in progress has `count < n`, and its region holds the last `count` bytes popped, at offsets 0 up
(42_pop_read.md R96). -/
abbrev readInProgressOk (n count : Nat) (s : State) : Prop :=
  count < n ∧ count ≤ s.ghost.PO ∧ s.out = regionOf (s.ghost.popped.drop (s.ghost.PO - count))

/-- What `K` holds between micro-steps is right. -/
abbrev consumerInProgressOk (s : State) : Prop :=
  match s.kOp with
  | .idle => True
  | .pop p => popInProgressOk p s
  | .readInto n count none => readInProgressOk n count s
  | .readInto n count (some p) => readInProgressOk n count s ∧ popInProgressOk p s
  | .drain none => True
  | .drain (some p) => popInProgressOk p s

/-- The invariant of the machine. -/
structure Good (s : State) : Prop where
  /-- `C >= 2` (00_scope.md R5). -/
  capacity : 2 ≤ s.C
  /-- `tail = PU mod C` (10_state.md R21). -/
  tail_eq : s.tail = s.ghost.PU % s.C
  /-- `head = PO mod C` (10_state.md R21). -/
  head_eq : s.head = s.ghost.PO % s.C
  /-- `head_view = HV mod C` and `tail_view = TV mod C` (10_state.md R21). -/
  views : viewsAgree s
  /-- `HV <= PO` (10_state.md R27). -/
  hv_le_po : s.ghost.HV ≤ s.ghost.PO
  /-- `PO <= TV` (10_state.md R27). -/
  po_le_tv : s.ghost.PO ≤ s.ghost.TV
  /-- `TV <= PU` (10_state.md R27). -/
  tv_le_pu : s.ghost.TV ≤ s.ghost.PU
  /-- `PU <= HV + C - 1` (10_state.md R27). -/
  pu_le : s.ghost.PU + 1 ≤ s.ghost.HV + s.C
  /-- `IN` holds one byte for each accepted push (10_state.md R21). -/
  in_length : s.ghost.IN.length = s.ghost.PU
  /-- The popped bytes are the first `PO` bytes of the accepted pushes (20_memory.md R42). -/
  fifo : s.ghost.popped = s.ghost.IN.take s.ghost.PO
  /-- `storage[j mod C] = IN[j]` for `PO <= j < PU` (10_state.md R28). -/
  data : ∀ j < s.ghost.PU, s.ghost.PO ≤ j → Memory.read s.storage (j % s.C) = s.ghost.IN[j]?
  /-- `storage` keeps its canonical form, and only slots `0 .. C-1` hold bytes (10_state.md R16). -/
  storage_wf : Memory.wf s.storage
  storage_slots : ∀ c ∈ s.storage, c.1 < s.C
  /-- The output region keeps its canonical form. -/
  out_wf : Memory.wf s.out
  push_ok : pushInProgressOk s
  consumer_ok : consumerInProgressOk s

/-- No operation is in progress. -/
abbrev Idle (s : State) : Prop := s.pOp = .idle ∧ s.kOp = .idle

/-- The run is over: the commands are exhausted and no operation is in progress (70_reset_and_hazards.md R166). -/
abbrev RunOver (s : State) : Prop := s.trace = [] ∧ Idle s

/-- A drain pass is in progress (30_encoding.md R63). -/
abbrev Draining (s : State) : Prop := ∃ p, s.kOp = .drain p

/-- A state that a run of the block built with `cfg` can reach, over every trace the environment may give
(30_encoding.md R64). -/
inductive Reachable (cfg : Config) : State → Prop
  | reset (trace : List TraceItem) : Reachable cfg (setTrace trace (State.resetWith cfg))
  | step (s t : State) : Reachable cfg s → Machine.step s = .next t → Reachable cfg t

/-- `head_view`, `none` in `DIRECT` mode (10_state.md R14). -/
def headView (s : State) : Option Nat :=
  match s.sync with
  | .direct => none
  | .synced hv _ => some hv

/-- `tail_view`, `none` in `DIRECT` mode (10_state.md R14). -/
def tailView (s : State) : Option Nat :=
  match s.sync with
  | .direct => none
  | .synced _ tv => some tv

/-- The agents that take steps (60_exceptions.md R140): the two that issue operations and the two synchronisers. -/
inductive Actor
  | P
  | K
  | SH
  | ST
  deriving DecidableEq, Repr

/-- The agent that issues operations, as one of the four. -/
def Agent.actor : Agent → Actor
  | .P => .P
  | .K => .K

/-- Whose step a trace entry is; `none` for an illegal word and for what the environment does. -/
def TraceItem.actor : TraceItem → Option Actor
  | .command w => match decode w with
                  | .ok i => some (Agent.actor i.agent)
                  | .error _ => none
  | .start w => match decode w with
                | .ok i => some (Agent.actor i.agent)
                | .error _ => none
  | .micro a => some (Agent.actor a)
  | .syncHead _ => some .SH
  | .syncTail _ => some .ST
  | .drain => some .K
  | .startDrain => some .K
  | .region _ => none
  | .rst => none

/-- An infinite run: at moment `n` the machine is in `run n`, and the entry `sched n` is performed. -/
def IsRun (sched : Nat → TraceItem) (run : Nat → State) : Prop :=
  ∀ n, runItem (sched n) (run n) = .next (run (n + 1))

/-- Weak fairness of `ST` (43_cross_domain_sync.md R115): if `tail_view` differs from `tail` from some moment on, then
`ST` takes a step that moves it after that moment. -/
def FairTail (sched : Nat → TraceItem) (run : Nat → State) : Prop :=
  ∀ n, (∀ m, n ≤ m → tailView (run m) ≠ some (run m).tail) →
    ∃ m, n ≤ m ∧ TraceItem.actor (sched m) = some .ST ∧ tailView (run (m + 1)) ≠ tailView (run m)

/-- Weak fairness of `SH` (43_cross_domain_sync.md R115). -/
def FairHead (sched : Nat → TraceItem) (run : Nat → State) : Prop :=
  ∀ n, (∀ m, n ≤ m → headView (run m) ≠ some (run m).head) →
    ∃ m, n ≤ m ∧ TraceItem.actor (sched m) = some .SH ∧ headView (run (m + 1)) ≠ headView (run m)

/-- The bytes a result hands to the consumer, in order (30_encoding.md R60). -/
def Result.bytes : Result → List Byte
  | .isEmpty _ => []
  | .isFull _ => []
  | .push _ => []
  | .pop none => []
  | .pop (some v) => [v]
  | .readInto _ bytes => bytes

/-- All bytes returned to the consumer so far, in order. -/
def returnedBytes (s : State) : List Byte := s.results.flatMap (fun x => x.2.bytes)

/-- The bytes that a `READ_INTO` in progress has popped and not yet returned: they stand in its output region. -/
def pendingBytes (s : State) : List Byte :=
  match s.kOp with
  | .idle => []
  | .pop _ => []
  | .readInto _ _ _ => s.out.map Prod.snd
  | .drain _ => []

/-- Every byte popped has been returned or stands in the region of the `READ_INTO` in progress. -/
abbrev Delivered (s : State) : Prop := s.ghost.popped = returnedBytes s ++ pendingBytes s

/-- The producer may read `tail` and `head` (or `head_view`) and nothing else (60_exceptions.md R139): two states it
cannot tell apart, each ready for it. -/
abbrev SameForProducer (s t : State) : Prop :=
  s.C = t.C ∧ s.tail = t.tail ∧ obs .P .head s = obs .P .head t

/-- The consumer may read `head`, `tail` (or `tail_view`) and the slots from `head` to the `tail` it observes
(60_exceptions.md R139; 20_memory.md R33): two states it cannot tell apart. -/
abbrev SameForConsumer (s t : State) : Prop :=
  s.C = t.C ∧ s.head = t.head ∧ obs .K .tail s = obs .K .tail t ∧
    ∀ k, k < dist s.C s.head (obs .K .tail s) →
      Memory.read s.storage (advanceBy s.C s.head k) = Memory.read t.storage (advanceBy s.C s.head k)

/-- What an operation added to the results. -/
def newResults (s t : State) : List (Agent × Result) := t.results.drop s.results.length

/-- The same micro-step of a `PUSH`, of the same byte; the observed heads may be different slots. -/
abbrev samePushStep (o o' : POp) : Prop :=
  match o, o' with
  | .idle, .idle => True
  | .afterP1 b _, .afterP1 b' _ => b = b'
  | .afterP2 b _, .afterP2 b' _ => b = b'
  | _, _ => False

/-- The same micro-step of a `POP`; the observed tails may be different slots. -/
abbrev samePopStep (p p' : PopOp) : Prop :=
  match p, p' with
  | .afterK1 _, .afterK1 _ => True
  | .afterK2 _ v, .afterK2 _ v' => v = v'
  | _, _ => False

/-- The same operation of `K` in progress, at the same micro-step. -/
abbrev sameConsumerStep (o o' : KOp) : Prop :=
  match o, o' with
  | .idle, .idle => True
  | .pop p, .pop p' => samePopStep p p'
  | .readInto n c none, .readInto n' c' none => n = n' ∧ c = c'
  | .readInto n c (some p), .readInto n' c' (some p') => n = n' ∧ c = c' ∧ samePopStep p p'
  | .drain none, .drain none => True
  | .drain (some p), .drain (some p') => samePopStep p p'
  | _, _ => False

/-- Two states that hold the same queue, seen through views that lag by the same numbers of steps, with the same
operations in progress and the same environment, whichever slots they use (10_state.md R29). -/
structure SameQueue (s t : State) : Prop where
  C : s.C = t.C
  mode : s.mode = t.mode
  contents : contents s = contents t
  headLag : dist s.C (obs .P .head s) s.head = dist t.C (obs .P .head t) t.head
  tailLag : dist s.C (obs .K .tail s) s.tail = dist t.C (obs .K .tail t) t.tail
  pOp : samePushStep s.pOp t.pOp
  kOp : sameConsumerStep s.kOp t.kOp
  out : s.out = t.out
  regionLen : s.regionLen = t.regionLen
  results : s.results = t.results
  trace : s.trace = t.trace

/-- A `DIRECT` state and a `SYNCED` one that agree on everything but the views and the ghosts of the views
(43_cross_domain_sync.md R116). -/
structure DirectAsSynced (s t : State) : Prop where
  direct : s.mode = .DIRECT
  synced : t.mode = .SYNCED
  C : t.C = s.C
  head : t.head = s.head
  tail : t.tail = s.tail
  storage : t.storage = s.storage
  pOp : t.pOp = s.pOp
  kOp : t.kOp = s.kOp
  out : t.out = s.out
  regionLen : t.regionLen = s.regionLen
  results : t.results = s.results
  trace : t.trace = s.trace
  PU : t.ghost.PU = s.ghost.PU
  PO : t.ghost.PO = s.ghost.PO
  IN : t.ghost.IN = s.ghost.IN
  popped : t.ghost.popped = s.ghost.popped

/-- `SYNC_HEAD` choosing `head` and `SYNC_TAIL` choosing `tail` (43_cross_domain_sync.md R116). -/
def syncBoth (s : State) : Host.Outcome State Fault Refusal :=
  andThen (syncHead (dist s.C (obs .P .head s) s.head) s)
    (fun t => syncTail (dist t.C (obs .K .tail t) t.tail) t)

end Sys2Proof.Machine
end

