-- ==== Sys2Proof/Certificates/Slice0/Obligations.lean ====
section
/-! DEFINITION. The statements for the provers. Each docstring names the rule of spec/ that the statement rests on. -/

open Sys2Proof Sys2Proof.Machine

/-! ### Reset, invariants, reachable states -/

/-- 10_state.md R26: the table of reset values, for every capacity and mode, and the defaults of 00_scope.md R5, R6. -/
def Obligations.ResetLeavesTheTableOfValues : Prop :=
  (∀ cfg : Config, 2 ≤ cfg.C →
    let s := State.resetWith cfg
    s.C = cfg.C ∧ s.mode = cfg.mode ∧ s.head = 0 ∧ s.tail = 0 ∧
    (∀ i, Memory.read s.storage i = none) ∧
    headView s = (if cfg.mode = .SYNCED then some 0 else none) ∧
    tailView s = (if cfg.mode = .SYNCED then some 0 else none) ∧
    (∀ a, emptySeen a s = true ∧ fullSeen a s = false) ∧
    Idle s ∧
    s.ghost.PU = 0 ∧ s.ghost.PO = 0 ∧ s.ghost.HV = 0 ∧ s.ghost.TV = 0 ∧ s.ghost.IN = []) ∧
  State.reset = State.resetWith ⟨512, .DIRECT⟩

/-- The invariant holds after reset, whatever trace the environment gives (10_state.md R26, R27, R28). -/
def Obligations.InvariantHoldsAtReset : Prop :=
  ∀ (cfg : Config) (trace : List TraceItem), 2 ≤ cfg.C → Good (setTrace trace (State.resetWith cfg))

/-- Every step of every agent keeps the invariant of 10_state.md R15, R27, R28 and 20_memory.md R42, from every state
that has it, for every interleaving and every move of the views (43_cross_domain_sync.md R120). -/
def Obligations.StepKeepsInvariant : Prop :=
  ∀ s t : State, Good s → step s = .next t → Good t

/-- 10_state.md R15. -/
def Obligations.IndicesStayInRange : Prop :=
  ∀ (cfg : Config) (s : State), 2 ≤ cfg.C → Reachable cfg s →
    0 ≤ s.head ∧ s.head < s.C ∧ 0 ≤ s.tail ∧ s.tail < s.C

/-- 10_state.md R27: the chain of the ghost counters, and that each lag is the distance of the wrapped indices. -/
def Obligations.GhostCountersAreChained : Prop :=
  ∀ (cfg : Config) (s : State), 2 ≤ cfg.C → Reachable cfg s →
    s.ghost.HV ≤ s.ghost.PO ∧ s.ghost.PO ≤ s.ghost.TV ∧ s.ghost.TV ≤ s.ghost.PU ∧
    s.ghost.PU ≤ s.ghost.HV + s.C - 1 ∧
    s.ghost.PU - s.ghost.PO = occupancy s ∧ occupancy s ≤ s.C - 1 ∧
    s.ghost.PO - s.ghost.HV = dist s.C (obs .P .head s) s.head ∧ s.ghost.PO - s.ghost.HV ≤ s.C - 1 ∧
    s.ghost.PU - s.ghost.TV = dist s.C (obs .K .tail s) s.tail ∧ s.ghost.PU - s.ghost.TV ≤ s.C - 1

/-- 10_state.md R28: the occupied slots hold the bytes pushed and not yet popped, are pairwise distinct, and none of
them is the slot the next `PUSH` writes; so a `POP` reads only a written slot, and a `PUSH` overwrites none of them. -/
def Obligations.OccupiedSlotsHoldUnpoppedBytes : Prop :=
  ∀ (cfg : Config) (s : State), 2 ≤ cfg.C → Reachable cfg s →
    (∀ j, s.ghost.PO ≤ j → j < s.ghost.PU →
      Memory.read s.storage (j % s.C) = s.ghost.IN[j]? ∧ (s.ghost.IN[j]?).isSome ∧ j % s.C ≠ s.tail) ∧
    s.ghost.PU - s.ghost.PO ≤ s.C - 1 ∧
    (∀ j k, s.ghost.PO ≤ j → j < s.ghost.PU → s.ghost.PO ≤ k → k < s.ghost.PU → j % s.C = k % s.C → j = k) ∧
    s.tail = s.ghost.PU % s.C ∧
    (emptySeen .K s = false → (Memory.read s.storage s.head).isSome) ∧
    (∀ b t, exec (.push b) s = .next t → ∀ j, s.ghost.PO ≤ j → j < s.ghost.PU →
      Memory.read t.storage (j % s.C) = Memory.read s.storage (j % s.C))

/-- 20_memory.md R42: the bytes returned to the consumer, with those of a `READ_INTO` in progress, are the first `PO`
bytes of the accepted pushes, and every accepted byte not yet popped stands in `storage`. -/
def Obligations.BytesArriveInPushOrder : Prop :=
  ∀ (cfg : Config) (s : State), 2 ≤ cfg.C → Reachable cfg s →
    returnedBytes s ++ pendingBytes s = s.ghost.IN.take s.ghost.PO ∧
    contents s = (s.ghost.IN.drop s.ghost.PO).map some

/-- No step faults in a good state: the read of an unwritten slot cannot happen (20_memory.md R31). -/
def Obligations.GoodStatesNeverFault : Prop :=
  ∀ (s : State) (f : Fault), Good s → step s ≠ .fault f

/-! ### Decoding -/

/-- Words of 30_encoding.md R61 and 95_test_vectors.md V11, written out bit by bit, and what they decode to. -/
def Obligations.WrittenWordsDecode : Prop :=
  decode 0b0000000000000000#16 = .ok (.nop .P) ∧
  decode 0b0001000000000000#16 = .ok (.nop .K) ∧
  decode 0b0011000000000000#16 = .ok (.isEmpty .K) ∧
  decode 0b0100000000000000#16 = .ok (.isFull .P) ∧
  decode 0b0110000001000001#16 = .ok (.push 0x41) ∧
  decode 0b1001000000000000#16 = .ok .pop ∧
  decode 0b1011000000000101#16 = .ok (.readInto 5) ∧
  decode 0b1011111111111111#16 = .ok (.readInto 4095) ∧
  decode 0b0111000001000001#16 = .error .wrongRole ∧
  decode 0b0110000101000001#16 = .error .operandBits ∧
  decode 0b1101000100100011#16 = .error .reservedOp

/-- Decode of encode gives back every well-formed instruction, with every operand (30_encoding.md R54 to R57). -/
def Obligations.DecodeUndoesEncode : Prop :=
  ∀ i : Instr, i.wf = true → decode (encode i) = .ok i

/-- A word that decodes is the word of its instruction, so each instruction has one word (30_encoding.md R54, R59). -/
def Obligations.EncodeUndoesDecode : Prop :=
  ∀ (w : CmdWord) (i : Instr), decode w = .ok i → i.wf = true ∧ encode i = w

/-- 30_encoding.md R61: the six rows, with the examples; a word decodes to an operation of a row exactly when the row
selects it, so every other word is illegal; and the rows select disjoint sets of words. -/
def Obligations.OpcodeMapSelectsOperations : Prop :=
  (opcodeTable.map (fun r => (r.mnemonic, r.pattern, r.mask)) =
    [("NOP", 0x0000#16, 0xEFFF#16), ("IS_EMPTY", 0x2000#16, 0xEFFF#16), ("IS_FULL", 0x4000#16, 0xEFFF#16),
     ("PUSH", 0x6000#16, 0xFF00#16), ("POP", 0x9000#16, 0xFFFF#16), ("READ_INTO", 0xB000#16, 0xF000#16)]) ∧
  (∀ (w : CmdWord) (r : OpRow), r ∈ opcodeTable →
    ((∃ i, decode w = .ok i ∧ i.mnemonic = r.mnemonic) ↔ r.selects w)) ∧
  (∀ (w : CmdWord) (i : Instr), decode w = .ok i → ∃ r ∈ opcodeTable, r.selects w) ∧
  (∀ w : CmdWord, opcodeTable.Pairwise (fun r q => ¬ (r.selects w ∧ q.selects w))) ∧
  encode (.nop .P) = 0x0000 ∧ encode (.nop .K) = 0x1000 ∧ encode (.isEmpty .P) = 0x2000 ∧
  encode (.isEmpty .K) = 0x3000 ∧ encode (.isFull .P) = 0x4000 ∧ encode (.isFull .K) = 0x5000 ∧
  encode (.push 0x41) = 0x6041 ∧ encode .pop = 0x9000 ∧ encode (.readInto 5) = 0xB005

/-- 30_encoding.md R59: exactly the words it lists are illegal, and the machine refuses such a command by name, whole
or begun, and does not execute it as anything else. -/
def Obligations.IllegalWordsAreRefused : Prop :=
  ∀ w : CmdWord,
    ((∃ why, decode w = .error why) ↔
      (fieldOp w = 0b110 ∨ fieldOp w = 0b111 ∨ (fieldOp w = 0b011 ∧ fieldAg w = .K) ∨
       ((fieldOp w = 0b100 ∨ fieldOp w = 0b101) ∧ fieldAg w = .P) ∨
       (fieldOp w = 0b011 ∧ bitField (fieldArg w) 11 8 ≠ 0) ∨
       ((fieldOp w = 0b000 ∨ fieldOp w = 0b001 ∨ fieldOp w = 0b010 ∨ fieldOp w = 0b100) ∧ fieldArg w ≠ 0))) ∧
    (∀ why, decode w = .error why → ∀ (s : State) (rest : List TraceItem),
      step (setTrace (.command w :: rest) s) = .refused (.illegalCommand why) ∧
      step (setTrace (.start w :: rest) s) = .refused (.illegalCommand why))

/-! ### The step -/

/-- A step performs the command at the front of the trace: the instruction its word decodes to, in the state with the
trace advanced by one (30_encoding.md R54, R64). `withFetchWord` puts a command there (log 3). -/
def Obligations.StepPerformsDecodedCommand : Prop :=
  (∀ (s : State) (w : CmdWord) (i : Instr) (rest : List TraceItem),
    decode w = .ok i → s.trace = .command w :: rest → step s = exec i (setTrace rest s)) ∧
  (∀ (s : State) (i : Instr) (rest : List TraceItem),
    i.wf = true → s.trace = .command (encode i) :: rest → step s = exec i (setTrace rest s)) ∧
  (∀ (s : State) (nbits w : Nat) (i : Instr),
    decodeTableWord nbits w = some i → step (s.withFetchWord nbits w) = exec i s)

/-- What a step does with every other entry of a trace (30_encoding.md R63, R64): the first micro-step of an operation
and the next one (20_memory.md R40; for `PUSH` and `READ_INTO` the entries are the model's, log 4), the steps of the
synchronisers, a drain with nothing between its `POP`s and a drain taken apart (log 15), a new length of the output
regions (log 11), and a reset in mid-run, which is refused (70_reset_and_hazards.md R151; log 16). Past the end of the
trace what is in progress goes on, `P` first, and then nothing changes (R166; the model's choice, log 3). -/
def Obligations.StepPerformsTraceEntries : Prop :=
  ∀ (s : State) (rest : List TraceItem),
    (∀ i, i.wf = true → step (setTrace (.start (encode i) :: rest) s) = beginOp i (setTrace rest s)) ∧
    (∀ a, step (setTrace (.micro a :: rest) s) = microStep a (setTrace rest s)) ∧
    (∀ k, step (setTrace (.syncHead k :: rest) s) = syncHead k (setTrace rest s)) ∧
    (∀ k, step (setTrace (.syncTail k :: rest) s) = syncTail k (setTrace rest s)) ∧
    (∀ t, exec .pop (setTrace rest s) = .next t →
      step (setTrace (.drain :: rest) s) = .next (if emptySeen .K s then t else setTrace (.drain :: rest) t)) ∧
    (∀ f, exec .pop (setTrace rest s) = .fault f → step (setTrace (.drain :: rest) s) = .fault f) ∧
    (∀ r, exec .pop (setTrace rest s) = .refused r → step (setTrace (.drain :: rest) s) = .refused r) ∧
    (Ready .K s →
      step (setTrace (.startDrain :: rest) s) =
        .next (if emptySeen .K s then { setTrace rest s with results := s.results ++ [(.K, .pop none)] }
               else { setTrace rest s with kOp := .drain (some (.afterK1 (obs .K .tail s))) })) ∧
    (∀ n, step (setTrace (.region n :: rest) s) = .next { setTrace rest s with regionLen := n }) ∧
    step (setTrace (.rst :: rest) s) = .refused .midRunReset ∧
    (s.pOp ≠ .idle → step (setTrace [] s) = microStep .P (setTrace [] s)) ∧
    (s.pOp = .idle → s.kOp ≠ .idle → step (setTrace [] s) = microStep .K (setTrace [] s)) ∧
    (Idle s → step (setTrace [] s) = .next (setTrace [] s))

/-! ### The operations: what each answers -/

/-- 40_status_flags.md R70: `NOP` completes, changes nothing and returns nothing; its words. -/
def Obligations.NopChangesNothing : Prop :=
  (∀ (a : Agent) (s : State), Ready a s → exec (.nop a) s = .next s) ∧
  (∀ w : CmdWord, w &&& 0xEFFF = 0x0000 ↔ ∃ a, decode w = .ok (.nop a))

/-- 40_status_flags.md R71: `IS_EMPTY` completes with `Obs(a, head) == Obs(a, tail)` and changes nothing else. -/
def Obligations.IsEmptyAnswersEquality : Prop :=
  ∀ (a : Agent) (s : State), Ready a s →
    exec (.isEmpty a) s =
      .next { s with results := s.results ++ [(a, .isEmpty (decide (obs a .head s = obs a .tail s)))] }

/-- 40_status_flags.md R72: `IS_FULL` completes with `inc(Obs(a, tail)) == Obs(a, head)` and changes nothing else. -/
def Obligations.IsFullAnswersSentinelTest : Prop :=
  ∀ (a : Agent) (s : State), Ready a s →
    exec (.isFull a) s =
      .next { s with
        results := s.results ++ [(a, .isFull (decide ((obs a .tail s + 1) % s.C = obs a .head s)))] }

/-- 41_push.md R81: `PUSH` completes; when full as `P` sees it the result is `false` and nothing else changes, else the
byte goes to `storage[tail]`, `tail` advances, and the result is `true`. -/
def Obligations.PushStoresOrRejects : Prop :=
  ∀ (b : Byte) (s : State), Ready .P s →
    exec (.push b) s =
      if (s.tail + 1) % s.C = obs .P .head s then
        .next { s with results := s.results ++ [(.P, .push false)] }
      else
        .next { s with
          storage := Memory.write s.storage s.tail b
          tail := (s.tail + 1) % s.C
          results := s.results ++ [(.P, .push true)]
          ghost := { s.ghost with
            PU := s.ghost.PU + 1
            IN := s.ghost.IN ++ [b]
            TV := if s.mode = .DIRECT then s.ghost.PU + 1 else s.ghost.TV } }

/-- 42_pop_read.md R91: `POP` completes; when empty as `K` sees it the result is `none` and nothing else changes, else
the byte of `storage[head]` is returned and `head` advances. -/
def Obligations.PopReturnsOldestByteOrNone : Prop :=
  ∀ s : State, Ready .K s →
    (s.head = obs .K .tail s →
      exec .pop s = .next { s with results := s.results ++ [(.K, .pop none)] }) ∧
    (s.head ≠ obs .K .tail s → ∀ v, Memory.read s.storage s.head = some v →
      exec .pop s = .next { s with
        head := (s.head + 1) % s.C
        results := s.results ++ [(.K, .pop (some v))]
        ghost := { s.ghost with
          PO := s.ghost.PO + 1
          popped := s.ghost.popped ++ [v]
          HV := if s.mode = .DIRECT then s.ghost.PO + 1 else s.ghost.HV } }) ∧
    (s.head ≠ obs .K .tail s → Memory.read s.storage s.head = none →
      exec .pop s = .fault (.unwrittenSlot s.head))

/-- 42_pop_read.md R96, R99: in a good state `READ_INTO` completes with `count = min(n, d)`, `d` the distance from
`head` to the `tail` that `K` observes; offset `k` of the region holds the byte of the `k`-th occupied slot for
`k < count` and is not written from `count` on; `head` advances by `count`, and the rest of the block is as it was. -/
def Obligations.ReadIntoDeliversWhatIsThere : Prop :=
  ∀ (n : Nat) (s : State), Good s → Ready .K s → n ≤ s.regionLen →
    ∃ (t : State) (bytes : List Byte),
      exec (.readInto n) s = .next t ∧
      bytes.length = min n (dist s.C s.head (obs .K .tail s)) ∧
      (∀ k, k < bytes.length →
        Memory.read s.storage ((s.head + k) % s.C) = bytes[k]? ∧ Memory.read t.out k = bytes[k]?) ∧
      (∀ k, bytes.length ≤ k → Memory.read t.out k = none) ∧
      t.head = (s.head + bytes.length) % s.C ∧
      t.ghost.PO = s.ghost.PO + bytes.length ∧
      t = { s with
        head := t.head
        out := t.out
        results := s.results ++ [(.K, .readInto bytes.length bytes)]
        ghost := { s.ghost with PO := t.ghost.PO, popped := s.ghost.popped ++ bytes, HV := t.ghost.HV } }

/-- 42_pop_read.md R96: `READ_INTO` is a sequence of `POP`s. When `K` sees a byte, `READ_INTO (n + 1)` is one `POP`
followed by `READ_INTO n`, with the byte in front; when it sees none, it is over with count 0. (`out := []` and
`out := regionOf ...` are the fresh region of the call, the model's choice: log 11.) -/
def Obligations.ReadIntoIsASequenceOfPops : Prop :=
  ∀ (n : Nat) (s : State), Ready .K s → n + 1 ≤ s.regionLen →
    (emptySeen .K s = true →
      exec (.readInto (n + 1)) s =
        .next { s with out := [], results := s.results ++ [(.K, .readInto 0 [])] }) ∧
    (∀ (v : Byte) (u t : State),
      exec .pop s = .next u → u.results = s.results ++ [(.K, .pop (some v))] →
      exec (.readInto n) { u with results := s.results } = .next t →
      ∃ (count : Nat) (bytes : List Byte),
        t.results = s.results ++ [(.K, .readInto count bytes)] ∧
        exec (.readInto (n + 1)) s = .next { t with
          out := regionOf (v :: bytes)
          results := s.results ++ [(.K, .readInto (count + 1) (v :: bytes))] })

/-- 42_pop_read.md R98: with `n = 0` the count is 0, no `POP` is performed and nothing is written; the whole operation
and its first micro-step are the same. (`out := []` is the fresh region of the call, log 11.) -/
def Obligations.ReadIntoZeroTouchesNothing : Prop :=
  ∀ s : State, Ready .K s →
    exec (.readInto 0) s = .next { s with out := [], results := s.results ++ [(.K, .readInto 0 [])] } ∧
    beginOp (.readInto 0) s = exec (.readInto 0) s

/-- 60_exceptions.md R134 and 93_implementation_defined.md U2, U3, U7, U8; 20_memory.md R40: a breach of the
environment's contract is refused by name, whether the operation is whole or only begun, and so is a micro-step that
R40 does not let happen: one of `K` inside a `PUSH` in `DIRECT` mode, or one of an agent with nothing in progress (the
names, and the last two refusals, are the model's: log 7, log 9, log 11). -/
def Obligations.ContractBreachesAreRefused : Prop :=
  (∀ (i : Instr) (s : State) (run : State → Host.Outcome State Fault Refusal), (run = exec i ∨ run = beginOp i) →
    (s.C < 2 → run s = .refused .capacityTooSmall) ∧
    (2 ≤ s.C → indicesInRange s = false → run s = .refused .indexOutOfRange) ∧
    (contract s = none → busy i.agent s = true → run s = .refused (.operationInProgress i.agent)) ∧
    (contract s = none → busy i.agent s = false → i.agent = .K → s.mode = .DIRECT → busy .P s = true →
      run s = .refused .consumerInsidePush) ∧
    (∀ n, i = .readInto n → Ready .K s → s.regionLen < n → run s = .refused .regionTooShort)) ∧
  (∀ (a : Agent) (s : State),
    (∀ r, contract s = some r → microStep a s = .refused r) ∧
    (contract s = none → busy a s = false → microStep a s = .refused (.nothingInProgress a)) ∧
    (contract s = none → busy .K s = true → s.mode = .DIRECT → busy .P s = true →
      microStep .K s = .refused .consumerInsidePush)) ∧
  (∀ (s : State) (r : Refusal), cannotBegin .K s = some r → drainBegin s = .refused r ∧ runDrain s = .refused r)

/-- Every operation completes in every good state in which its agent may begin it: none traps, faults or waits
(60_exceptions.md R132; 41_push.md R84; 42_pop_read.md R92, R102). -/
def Obligations.EveryOperationCompletes : Prop :=
  ∀ (i : Instr) (s : State), Good s → Ready i.agent s → (∀ n, i = .readInto n → n ≤ s.regionLen) →
    ∃ t, exec i s = .next t

/-! ### Frames -/

/-- `NOP`, `IS_EMPTY` and `IS_FULL` change no state: registers, views, both memories, what is in progress and the
ghosts stay; at most a result is recorded (40_status_flags.md R70 to R72; 20_memory.md R47). -/
def Obligations.QueriesFrame : Prop :=
  ∀ (a : Agent) (i : Instr) (s t : State), (i = .nop a ∨ i = .isEmpty a ∨ i = .isFull a) → exec i s = .next t →
    t = { s with results := t.results } ∧
    (i = .nop a → t.results = s.results) ∧
    (∀ x, Memory.read t.storage x = Memory.read s.storage x) ∧
    (∀ k, Memory.read t.out k = Memory.read s.out k)

/-- `PUSH` changes `tail`, the slot `tail` named before, the result list and the ghosts `PU`, `TV`, `IN`, and nothing
else; a rejected one changes only the result list (41_push.md R81, R82). -/
def Obligations.PushFrame : Prop :=
  ∀ (b : Byte) (s t : State), exec (.push b) s = .next t →
    t.C = s.C ∧ t.sync = s.sync ∧ t.head = s.head ∧ t.pOp = s.pOp ∧ t.kOp = s.kOp ∧ t.regionLen = s.regionLen ∧
    t.trace = s.trace ∧ t.ghost.PO = s.ghost.PO ∧ t.ghost.HV = s.ghost.HV ∧ t.ghost.popped = s.ghost.popped ∧
    (∀ k, Memory.read t.out k = Memory.read s.out k) ∧
    (∀ x, x ≠ s.tail → Memory.read t.storage x = Memory.read s.storage x) ∧
    (fullSeen .P s = true → t = { s with results := t.results }) ∧
    (fullSeen .P s = false → t.tail = inc s.C s.tail ∧ Memory.read t.storage s.tail = some b)

/-- `POP` and `READ_INTO` change `head`, the output region (`READ_INTO` only), the result list and the ghosts `PO`,
`HV`, `popped`, and nothing else; no slot of `storage` is altered (42_pop_read.md R91, R93, R96). The region of a
`READ_INTO` is fresh, so its offsets from `n` on hold nothing (log 11). -/
def Obligations.ConsumerFrame : Prop :=
  ∀ (i : Instr) (s t : State), (i = .pop ∨ ∃ n, i = .readInto n) → exec i s = .next t →
    t.C = s.C ∧ t.sync = s.sync ∧ t.tail = s.tail ∧ t.pOp = s.pOp ∧ t.kOp = s.kOp ∧ t.regionLen = s.regionLen ∧
    t.trace = s.trace ∧ t.ghost.PU = s.ghost.PU ∧ t.ghost.TV = s.ghost.TV ∧ t.ghost.IN = s.ghost.IN ∧
    (∀ x, Memory.read t.storage x = Memory.read s.storage x) ∧
    (i = .pop → ∀ k, Memory.read t.out k = Memory.read s.out k) ∧
    (∀ n, i = .readInto n → ∀ k, n ≤ k → Memory.read t.out k = none) ∧
    (emptySeen .K s = true → t.head = s.head ∧ t.ghost = s.ghost)

/-! ### The whole machine -/

/-- 10_state.md R13 and 60_exceptions.md R139: over every step, each register is changed by its owner only; `tail`
moves by one `inc` for each byte accepted, and `head` by one `inc` for each byte delivered, which is at most one byte
unless the step is a whole `READ_INTO`, and then the bytes it returns; `storage` changes by `P` only and only in the
slot `tail`; `C` and `SYNC_MODE` never change. -/
def Obligations.OnlyOwnersWriteTheirRegisters : Prop :=
  ∀ (s t : State) (x : TraceItem), nextItem s = some x → step s = .next t →
    t.C = s.C ∧ t.mode = s.mode ∧
    (t.tail ≠ s.tail ∨ t.storage ≠ s.storage ∨ t.pOp ≠ s.pOp → x.actor = some .P) ∧
    (t.head ≠ s.head ∨ t.out ≠ s.out ∨ t.kOp ≠ s.kOp → x.actor = some .K) ∧
    (headView t ≠ headView s → x.actor = some .SH) ∧
    (tailView t ≠ tailView s → x.actor = some .ST) ∧
    ((t.tail = s.tail ∧ t.ghost.PU = s.ghost.PU) ∨ (t.tail = inc s.C s.tail ∧ t.ghost.PU = s.ghost.PU + 1)) ∧
    (∃ bytes : List Byte,
      t.head = (inc s.C)^[bytes.length] s.head ∧
      t.ghost.PO = s.ghost.PO + bytes.length ∧ t.ghost.popped = s.ghost.popped ++ bytes ∧
      (bytes.length ≤ 1 ∨ ∃ w n, x = .command w ∧ decode w = .ok (.readInto n) ∧ bytes.length ≤ n ∧
        newResults s t = [(.K, .readInto bytes.length bytes)])) ∧
    (∀ a, a ≠ s.tail → Memory.read t.storage a = Memory.read s.storage a)

/-- No step decides anything from the ghosts: with other ghosts in their place the same step has the same outcome
(10_state.md R21: not hardware, used only to state invariants). -/
def Obligations.GhostsDecideNothing : Prop :=
  ∀ (s : State) (g : Ghost),
    (∀ t, step s = .next t → ∃ g', step { s with ghost := g } = .next { t with ghost := g' }) ∧
    (∀ f, step s = .fault f → step { s with ghost := g } = .fault f) ∧
    (∀ r, step s = .refused r → step { s with ghost := g } = .refused r)

/-- What the producer does and is told depends on `tail` and on the head it observes, and on nothing the consumer
holds (20_memory.md R36; 60_exceptions.md R139). -/
def Obligations.ProducerSeesOnlyItsView : Prop :=
  ∀ (i : Instr) (s s' t t' : State), i.agent = .P → SameForProducer s s' →
    exec i s = .next t → exec i s' = .next t' →
    newResults s t = newResults s' t' ∧ t.tail = t'.tail

/-- What the consumer does and is told depends on `head`, on the tail it observes and on the slots between them
(20_memory.md R33, R36; 60_exceptions.md R139). -/
def Obligations.ConsumerSeesOnlyItsView : Prop :=
  ∀ (i : Instr) (s s' t t' : State), i.agent = .K → Good s → Good s' → SameForConsumer s s' →
    exec i s = .next t → exec i s' = .next t' →
    newResults s t = newResults s' t' ∧ t.head = t'.head ∧ (∀ n, i = .readInto n → t.out = t'.out)

/-! ### Micro-steps -/

/-- 41_push.md R81 and 20_memory.md R39: P1 decides and changes nothing of the block, P2 writes the byte while `tail`
still names its slot, and only then P3 advances `tail` and gives the result. -/
def Obligations.PushMicroStepsInOrder : Prop :=
  ∀ (s : State) (b : Byte) (h : Nat),
    (Ready .P s → fullSeen .P s = true →
      beginOp (.push b) s = .next { s with results := s.results ++ [(.P, .push false)] }) ∧
    (Ready .P s → fullSeen .P s = false →
      beginOp (.push b) s = .next { s with pOp := .afterP1 b (obs .P .head s) }) ∧
    (contract s = none → s.pOp = .afterP1 b h →
      microStep .P s = .next { s with storage := Memory.write s.storage s.tail b, pOp := .afterP2 b h }) ∧
    (contract s = none → s.pOp = .afterP2 b h → ∃ g,
      microStep .P s = .next { s with
        tail := inc s.C s.tail, pOp := .idle, results := s.results ++ [(.P, .push true)], ghost := g } ∧
      g.PU = s.ghost.PU + 1 ∧ g.IN = s.ghost.IN ++ [b])

/-- 42_pop_read.md R91 and 20_memory.md R39: K1 decides and changes nothing of the block, K2 reads the byte while
`head` still names its slot, and only then K3 advances `head` and gives the result. -/
def Obligations.PopMicroStepsInOrder : Prop :=
  ∀ (s : State) (x : Nat) (v : Byte),
    (Ready .K s → emptySeen .K s = true →
      beginOp .pop s = .next { s with results := s.results ++ [(.K, .pop none)] }) ∧
    (Ready .K s → emptySeen .K s = false →
      beginOp .pop s = .next { s with kOp := .pop (.afterK1 (obs .K .tail s)) }) ∧
    (contract s = none → insidePush .K s = false → s.kOp = .pop (.afterK1 x) →
      Memory.read s.storage s.head = some v →
      microStep .K s = .next { s with kOp := .pop (.afterK2 x v) }) ∧
    (contract s = none → insidePush .K s = false → s.kOp = .pop (.afterK2 x v) → ∃ g,
      microStep .K s = .next { s with
        head := inc s.C s.head, kOp := .idle, results := s.results ++ [(.K, .pop (some v))], ghost := g } ∧
      g.PO = s.ghost.PO + 1 ∧ g.popped = s.ghost.popped ++ [v])

/-- The micro-steps of a `PUSH` and of a `POP`, with nothing between them, are the whole operation
(41_push.md R81; 42_pop_read.md R91; 20_memory.md R48). -/
def Obligations.MicroStepsMakeTheWholeOperation : Prop :=
  ∀ (s : State) (b : Byte) (rest : List TraceItem),
    (Ready .P s → fullSeen .P s = true →
      step (setTrace (.start (encode (.push b)) :: rest) s) = exec (.push b) (setTrace rest s)) ∧
    (Ready .P s → fullSeen .P s = false →
      steps 3 (setTrace (.start (encode (.push b)) :: .micro .P :: .micro .P :: rest) s) =
        exec (.push b) (setTrace rest s)) ∧
    (Ready .K s → emptySeen .K s = true →
      step (setTrace (.start (encode .pop) :: rest) s) = exec .pop (setTrace rest s)) ∧
    (Ready .K s → emptySeen .K s = false →
      steps 3 (setTrace (.start (encode .pop) :: .micro .K :: .micro .K :: rest) s) =
        exec .pop (setTrace rest s))

/-- A `READ_INTO` performed by micro-steps, with nothing between them, is the whole `READ_INTO`, and takes at most
`3n + 1` micro-steps (42_pop_read.md R96, R102). -/
def Obligations.ReadIntoMicroStepsMakeTheWhole : Prop :=
  ∀ (n : Nat) (s : State) (rest : List TraceItem), n ≤ NMAX → Good s → Ready .K s → n ≤ s.regionLen →
    ∃ m, m ≤ 3 * n ∧
      steps (m + 1) (setTrace (.start (encode (.readInto n)) :: (List.replicate m (.micro .K) ++ rest)) s) =
        exec (.readInto n) (setTrace rest s)

/-- 20_memory.md R48: a `PUSH` that falls between K1 and K2, or between K2 and K3, of a `POP` whose K1 saw a byte gives
the same as the `PUSH` and then the `POP`; after a K1 that saw none, the same as the `POP` and then the `PUSH`. -/
def Obligations.PushInsidePopIsSerial : Prop :=
  ∀ (s : State) (b : Byte) (rest : List TraceItem), Good s → Idle s →
    (emptySeen .K s = false →
      steps 4 (setTrace (.start (encode .pop) :: .command (encode (.push b)) :: .micro .K :: .micro .K :: rest) s) =
        steps 2 (setTrace (.command (encode (.push b)) :: .command (encode .pop) :: rest) s) ∧
      steps 4 (setTrace (.start (encode .pop) :: .micro .K :: .command (encode (.push b)) :: .micro .K :: rest) s) =
        steps 2 (setTrace (.command (encode (.push b)) :: .command (encode .pop) :: rest) s)) ∧
    (emptySeen .K s = true →
      steps 2 (setTrace (.start (encode .pop) :: .command (encode (.push b)) :: rest) s) =
        steps 2 (setTrace (.command (encode .pop) :: .command (encode (.push b)) :: rest) s))

/-- 20_memory.md R48 in `SYNCED` mode: a `POP` between P1 and P2, or between P2 and P3, of a `PUSH` whose P1 saw room
gives the same as the `POP` and then the `PUSH`; and a move of either view at any place inside a `PUSH` that saw room or
a `POP` that saw a byte gives the same as the move after it. -/
def Obligations.PopAndViewMovesInsideAreSerial : Prop :=
  ∀ (s : State) (b : Byte) (k : Nat) (rest : List TraceItem), Good s → Idle s → s.mode = .SYNCED →
    (fullSeen .P s = false →
      steps 4 (setTrace (.start (encode (.push b)) :: .command (encode .pop) :: .micro .P :: .micro .P :: rest) s) =
        steps 2 (setTrace (.command (encode .pop) :: .command (encode (.push b)) :: rest) s) ∧
      steps 4 (setTrace (.start (encode (.push b)) :: .micro .P :: .command (encode .pop) :: .micro .P :: rest) s) =
        steps 2 (setTrace (.command (encode .pop) :: .command (encode (.push b)) :: rest) s)) ∧
    (∀ move, (move = .syncHead k ∧ k ≤ dist s.C (obs .P .head s) s.head ∨
        move = .syncTail k ∧ k ≤ dist s.C (obs .K .tail s) s.tail) →
      (fullSeen .P s = false →
        steps 4 (setTrace (.start (encode (.push b)) :: move :: .micro .P :: .micro .P :: rest) s) =
          steps 2 (setTrace (.command (encode (.push b)) :: move :: rest) s) ∧
        steps 4 (setTrace (.start (encode (.push b)) :: .micro .P :: move :: .micro .P :: rest) s) =
          steps 2 (setTrace (.command (encode (.push b)) :: move :: rest) s)) ∧
      (emptySeen .K s = false →
        steps 4 (setTrace (.start (encode .pop) :: move :: .micro .K :: .micro .K :: rest) s) =
          steps 2 (setTrace (.command (encode .pop) :: move :: rest) s) ∧
        steps 4 (setTrace (.start (encode .pop) :: .micro .K :: move :: .micro .K :: rest) s) =
          steps 2 (setTrace (.command (encode .pop) :: move :: rest) s)))

/-- Every micro-step of an operation in progress, a drain included, is enabled: nothing waits (41_push.md R84;
42_pop_read.md R92, R102). In `DIRECT` mode a `PUSH` in progress runs to its end first (20_memory.md R40): the step of `K`
that this leaves out is refused, which ContractBreachesAreRefused states. -/
def Obligations.MicroStepsNeverWait : Prop :=
  ∀ (a : Agent) (s : State), Good s → busy a s = true → insidePush a s = false → ∃ t, microStep a s = .next t

/-! ### The two exceptional outcomes -/

/-- 60_exceptions.md R131: overflow. Its cause is P1 finding `inc(tail) == Obs(P, head)`, its signal the result
`false`, it has no effect on the state, and `PUSH` only raises it. -/
def Obligations.OverflowIsOnlyAResult : Prop :=
  (∀ (b : Byte) (s : State), Ready .P s → inc s.C s.tail = obs .P .head s →
    exec (.push b) s = .next { s with results := s.results ++ [(.P, .push false)] }) ∧
  (∀ (i : Instr) (s t : State) (a : Agent), exec i s = .next t → t.results = s.results ++ [(a, .push false)] →
    (∃ b, i = .push b) ∧ inc s.C s.tail = obs .P .head s)

/-- 60_exceptions.md R133: underflow. Its cause is K1 finding `head == Obs(K, tail)`, its signal `none` or a count below
`n`, and it has no effect on the state; `POP` and `READ_INTO` only raise it. (`out := []` is the fresh region of the
call, log 11.) -/
def Obligations.UnderflowIsOnlyAResult : Prop :=
  (∀ s : State, Ready .K s → s.head = obs .K .tail s →
    exec .pop s = .next { s with results := s.results ++ [(.K, .pop none)] } ∧
    ∀ n, 0 < n → n ≤ s.regionLen →
      exec (.readInto n) s = .next { s with out := [], results := s.results ++ [(.K, .readInto 0 [])] }) ∧
  (∀ (i : Instr) (s t : State) (a : Agent), exec i s = .next t → t.results = s.results ++ [(a, .pop none)] →
    i = .pop ∧ s.head = obs .K .tail s) ∧
  (∀ (i : Instr) (s t : State) (a : Agent) (count : Nat) (bytes : List Byte), exec i s = .next t →
    t.results = s.results ++ [(a, .readInto count bytes)] →
    ∃ n, i = .readInto n ∧ count ≤ n ∧ (count < n → t.head = obs .K .tail t))

/-! ### Flags, occupancy, staleness -/

/-- 10_state.md R19, R20: on one pair of indices the occupancy is in `0 .. C-1`, `empty` is occupancy 0, `full` is
occupancy `C - 1`, and the two are never both true; so one agent never sees both. -/
def Obligations.FlagsFollowOccupancy : Prop :=
  (∀ (C h t : Nat), 2 ≤ C → h < C → t < C →
    dist C h t ≤ C - 1 ∧ (emptyOf h t = true ↔ dist C h t = 0) ∧ (fullOf C h t = true ↔ dist C h t = C - 1) ∧
    ¬ (emptyOf h t = true ∧ fullOf C h t = true)) ∧
  (∀ (a : Agent) (s : State), 2 ≤ s.C → ¬ (emptySeen a s = true ∧ fullSeen a s = true))

/-- 20_memory.md R46: the occupied and the free slots are together the slots `0 .. C-1`, each once; the slot
`(head - 1) mod C` is always free (the sentinel). -/
def Obligations.SlotsAreOccupiedOrFree : Prop :=
  ∀ s : State, contract s = none →
    (occupiedSlots s ++ freeSlots s).Perm (List.range s.C) ∧
    (freeSlots s).getLast? = some ((s.head + (s.C - 1)) % s.C) ∧
    (fullOf s.C s.head s.tail = true → freeSlots s = [s.tail])

/-- 20_memory.md R41 and 43_cross_domain_sync.md R121: what an agent sees errs on the safe side only: really full is
seen full by `P`, really empty is seen empty by `K`, what `K` sees full is full, what `P` sees empty is empty; in
`DIRECT` mode both see exactly. -/
def Obligations.StaleViewsErrSafely : Prop :=
  ∀ s : State, Good s →
    (occupancy s = s.C - 1 → fullSeen .P s = true) ∧
    (occupancy s = 0 → emptySeen .K s = true) ∧
    (fullSeen .K s = true → occupancy s = s.C - 1) ∧
    (emptySeen .P s = true → occupancy s = 0) ∧
    (s.mode = .DIRECT → ∀ a, (fullSeen a s = true ↔ occupancy s = s.C - 1) ∧ (emptySeen a s = true ↔ occupancy s = 0))

/-- 43_cross_domain_sync.md R121 and 60_exceptions.md R136: in `SYNCED` mode there is a reachable state that `P` sees
full and `K` sees empty with one byte in the buffer, so that a `PUSH` and a `POP` both fail there. -/
def Obligations.SpuriousFullAndLateEmptyHappen : Prop :=
  ∃ s : State, Reachable ⟨4, .SYNCED⟩ s ∧ occupancy s = 1 ∧
    fullSeen .P s = true ∧ emptySeen .K s = true ∧ fullSeen .K s = false ∧ emptySeen .P s = false

/-- 00_scope.md R6 and 10_state.md R12: `AW = max(1, ceil(log2 C))` is the smallest positive width that holds every
index. -/
def Obligations.IndexWidthIsTheLeast : Prop :=
  ∀ C : Nat, 2 ≤ C →
    1 ≤ AW C ∧ (∀ i, i < C → i < 2 ^ AW C) ∧ (∀ w, 1 ≤ w → (∀ i, i < C → i < 2 ^ w) → AW C ≤ w)

/-! ### Synchronisers -/

/-- 43_cross_domain_sync.md R113. -/
def Obligations.BetweenIsTheForwardWalk : Prop :=
  ∀ (C a b : Nat), a < C → b < C →
    (∀ v, v ∈ between C a b ↔ ∃ k, 0 ≤ k ∧ k ≤ dist C a b ∧ v = (a + k) % C) ∧
    a ∈ between C a b ∧ b ∈ between C a b ∧ between C a a = [a]

/-- 43_cross_domain_sync.md R111: `SYNC_TAIL` moves `tail_view` to any member of `Between(tail_view, tail)` and changes
nothing else but `TV`; those are exactly the values `tail` has held since. In `DIRECT` mode there is no such step. -/
def Obligations.SyncTailMovesTheViewForward : Prop :=
  ∀ s : State, Good s →
    (∀ k hv tv, s.sync = .synced hv tv → k ≤ dist s.C tv s.tail →
      syncTail k s = .next { s with
        sync := .synced hv ((tv + k) % s.C), ghost := { s.ghost with TV := s.ghost.TV + k } }) ∧
    (∀ v hv tv, s.sync = .synced hv tv →
      ((∃ k t, syncTail k s = .next t ∧ tailView t = some v) ↔ v ∈ between s.C tv s.tail) ∧
      (v ∈ between s.C tv s.tail ↔ ∃ j, s.ghost.TV ≤ j ∧ j ≤ s.ghost.PU ∧ v = j % s.C)) ∧
    (∀ k hv tv, s.sync = .synced hv tv → dist s.C tv s.tail < k → syncTail k s = .refused .outsideBetween) ∧
    (∀ k, s.sync = .direct → syncTail k s = .refused .noSynchroniser)

/-- 43_cross_domain_sync.md R112: `SYNC_HEAD`, likewise. -/
def Obligations.SyncHeadMovesTheViewForward : Prop :=
  ∀ s : State, Good s →
    (∀ k hv tv, s.sync = .synced hv tv → k ≤ dist s.C hv s.head →
      syncHead k s = .next { s with
        sync := .synced ((hv + k) % s.C) tv, ghost := { s.ghost with HV := s.ghost.HV + k } }) ∧
    (∀ v hv tv, s.sync = .synced hv tv →
      ((∃ k t, syncHead k s = .next t ∧ headView t = some v) ↔ v ∈ between s.C hv s.head) ∧
      (v ∈ between s.C hv s.head ↔ ∃ j, s.ghost.HV ≤ j ∧ j ≤ s.ghost.PO ∧ v = j % s.C)) ∧
    (∀ k hv tv, s.sync = .synced hv tv → dist s.C hv s.head < k → syncHead k s = .refused .outsideBetween) ∧
    (∀ k, s.sync = .direct → syncHead k s = .refused .noSynchroniser)

/-- 43_cross_domain_sync.md R114 and 20_memory.md R38, R44: over every step the views never go back, always hold a
value their index has held, and never run ahead of it. -/
def Obligations.ViewsAreMonotoneAndCausal : Prop :=
  ∀ s t : State, Good s → step s = .next t →
    s.ghost.HV ≤ t.ghost.HV ∧ s.ghost.TV ≤ t.ghost.TV ∧ s.ghost.PO ≤ t.ghost.PO ∧ s.ghost.PU ≤ t.ghost.PU ∧
    t.ghost.HV ≤ t.ghost.PO ∧ t.ghost.TV ≤ t.ghost.PU ∧
    obs .P .head t = t.ghost.HV % t.C ∧ obs .K .tail t = t.ghost.TV % t.C

/-- 43_cross_domain_sync.md R115: under weak fairness, when nothing more is pushed `tail_view` comes to equal `tail`
and stays so, and when nothing more is popped `head_view` comes to equal `head`. -/
def Obligations.FairViewsCatchUp : Prop :=
  ∀ (sched : Nat → TraceItem) (run : Nat → State), IsRun sched run → Good (run 0) → (run 0).mode = .SYNCED →
    (FairTail sched run → (∃ n, ∀ m, n ≤ m → (run m).ghost.PU = (run n).ghost.PU) →
      ∃ n, ∀ m, n ≤ m → tailView (run m) = some (run m).tail) ∧
    (FairHead sched run → (∃ n, ∀ m, n ≤ m → (run m).ghost.PO = (run n).ghost.PO) →
      ∃ n, ∀ m, n ≤ m → headView (run m) = some (run m).head)

/-- 43_cross_domain_sync.md R116: `DIRECT` behaves as `SYNCED` with both views brought up to their indices before each
step: every step of a `DIRECT` machine is matched by the `SYNCED` one. -/
def Obligations.DirectRunsAreSyncedRuns : Prop :=
  ∀ (s t u : State) (x : TraceItem), Good s → Good t → DirectAsSynced s t → runItem x s = .next u →
    ∃ t' u', syncBoth t = .next t' ∧ runItem x t' = .next u' ∧ DirectAsSynced u u'

/-! ### Refinement -/

/-- The block is a bounded queue: an accepted `PUSH` adds its byte at the end, a `POP` that returns a byte takes it
from the front, `READ_INTO` takes what it returns from the front, and nothing else changes the queue
(20_memory.md R42; 41_push.md R82; 42_pop_read.md R91, R96). -/
def Obligations.BlockRefinesABoundedQueue : Prop :=
  ∀ s : State, Good s →
    (contents s).length = occupancy s ∧ (contents s).length ≤ USABLE s.C ∧ (∀ x ∈ contents s, x.isSome) ∧
    (∀ i t a, exec i s = .next t → (i = .nop a ∨ i = .isEmpty a ∨ i = .isFull a) → contents t = contents s) ∧
    (∀ b t, exec (.push b) s = .next t →
      (newResults s t = [(.P, .push true)] ∧ contents t = contents s ++ [some b]) ∨
      (newResults s t = [(.P, .push false)] ∧ contents t = contents s)) ∧
    (∀ t, exec .pop s = .next t →
      (newResults s t = [(.K, .pop none)] ∧ contents t = contents s) ∨
      (∃ v, newResults s t = [(.K, .pop (some v))] ∧ contents s = some v :: contents t)) ∧
    (∀ n t, exec (.readInto n) s = .next t → ∃ bytes,
      newResults s t = [(.K, .readInto bytes.length bytes)] ∧ bytes.length ≤ n ∧
      contents s = bytes.map some ++ contents t)

/-- 10_state.md R29: only the queue, the lags of the views and what is in progress matter, not which slots are in use
nor what popped slots still hold: two good states that agree on these have the same steps with the same results. And a
state at rest with `head == tail`, which each side sees as it is (in `DIRECT` mode always, in `SYNCED` mode once the
views have caught up), agrees with the reset state of the same environment. -/
def Obligations.OnlyTheQueueMatters : Prop :=
  (∀ s t s' : State, Good s → Good t → SameQueue s t → step s = .next s' →
    ∃ t', step t = .next t' ∧ SameQueue s' t') ∧
  (∀ s : State, Good s → Idle s → s.head = s.tail → obs .P .head s = s.head → obs .K .tail s = s.tail →
    SameQueue s { State.resetWith ⟨s.C, s.mode⟩ with
      out := s.out, regionLen := s.regionLen, results := s.results, trace := s.trace })

/-! ### Drain, ports, clock edge, transfer code, assembler -/

/-- 30_encoding.md R63, 42_pop_read.md R101 and 70_reset_and_hazards.md R163. With no other agent stepping, a drain pops
all that `K` sees, ends with the `POP` that finds none, and leaves the rest of the trace; taken apart into micro-steps it
does the same (the two entries are the model's: log 15). A drain ends only when a `POP` of it finds none. And it has no
bound: in `DIRECT` mode, from every state in which `K` sees a byte and for every sequence of bytes, there is a run in
which a `PUSH` follows each `POP`, every `PUSH` is accepted, and the drain never ends. -/
def Obligations.DrainEndsOnlyWhenItSeesNone : Prop :=
  (∀ (s : State) (rest : List TraceItem), Good s → Ready .K s →
    ∃ t : State, steps (dist s.C s.head (obs .K .tail s) + 1) (setTrace (.drain :: rest) s) = .next t ∧
      steps (3 * dist s.C s.head (obs .K .tail s) + 1)
        (setTrace (.startDrain :: (List.replicate (3 * dist s.C s.head (obs .K .tail s)) (.micro .K) ++ rest)) s) =
          .next t ∧
      t.trace = rest ∧ t.head = obs .K .tail s ∧ t.tail = s.tail ∧ t.pOp = s.pOp ∧ t.kOp = .idle ∧
      ∃ bytes : List Byte, bytes.length = dist s.C s.head (obs .K .tail s) ∧
        contents s = bytes.map some ++ contents t ∧
        newResults s t = bytes.map (fun v => (.K, .pop (some v))) ++ [(.K, .pop none)]) ∧
  (∀ s t : State, Draining s → step s = .next t → ¬ Draining t →
    emptySeen .K s = true ∧ newResults s t = [(.K, .pop none)]) ∧
  (∀ (s : State) (b : Nat → Byte), Good s → Idle s → s.mode = .DIRECT → emptySeen .K s = false →
    ∃ (sched : Nat → TraceItem) (run : Nat → State), IsRun sched run ∧ run 0 = s ∧ sched 0 = .startDrain ∧
      (∀ n, sched (4 * n + 3) = .command (encode (.push (b n)))) ∧
      (∀ n, Draining (run (n + 1))) ∧
      (∀ n, (run (4 * n)).ghost.PO = s.ghost.PO + n ∧ (run (4 * n)).ghost.PU = s.ghost.PU + n))

/-- 30_encoding.md R51, R52, R65: the ports at the instant of a request say what the operation answers: `p_ok` and
(`k_valid`, `k_data`) are the results, the flag ports are the answers of the queries. -/
def Obligations.PortsAgreeWithOperations : Prop :=
  (∀ (i : PIn) (s t : State), Ready .P s → exec i.command s = .next t →
    (i.p_push = true → ∃ ok, (producerPorts i s).p_ok = some ok ∧ newResults s t = [(.P, .push ok)] ∧
      ok = (i.p_push && !(producerPorts i s).p_full)) ∧
    (i.p_push = false → (producerPorts i s).p_ok = none ∧ t = s)) ∧
  (∀ (i : KIn) (s t : State), Ready .K s → exec i.command s = .next t →
    (i.k_pop = true → ∃ ok, (consumerPorts i s).k_valid = some ok ∧
      newResults s t = [(.K, .pop (consumerPorts i s).k_data)] ∧ (consumerPorts i s).k_data.isSome = ok ∧
      ok = (i.k_pop && !(consumerPorts i s).k_empty)) ∧
    (i.k_pop = false → (consumerPorts i s).k_valid = none ∧ t = s)) ∧
  (∀ (i : PIn) (s t u : State), exec (.isFull .P) s = .next t → exec (.isEmpty .P) s = .next u →
    newResults s t = [(.P, .isFull (producerPorts i s).p_full)] ∧
    newResults s u = [(.P, .isEmpty (producerPorts i s).p_empty)]) ∧
  (∀ (i : KIn) (s t u : State), exec (.isFull .K) s = .next t → exec (.isEmpty .K) s = .next u →
    newResults s t = [(.K, .isFull (consumerPorts i s).k_full)] ∧
    newResults s u = [(.K, .isEmpty (consumerPorts i s).k_empty)])

/-- 20_memory.md R49: a `PUSH` and a `POP` on one clock edge equal the `PUSH` and then the `POP` when the buffer was
full, the `POP` and then the `PUSH` when it was empty, and either order otherwise: the same state, and the same results
for each agent. -/
def Obligations.SameEdgeIsASerialOrder : Prop :=
  ∀ (s : State) (b : Byte), Good s → Idle s → s.mode = .DIRECT →
    ∃ e, sameEdge b s = .ok e ∧
      ∀ first second, ((first = Instr.push b ∧ second = Instr.pop ∧ emptySeen .K s = false) ∨
          (first = Instr.pop ∧ second = Instr.push b ∧ fullSeen .P s = false)) →
        ∃ t, andThen (exec first s) (exec second) = .next t ∧
          { t with results := [] } = { e with results := [] } ∧ ∀ a, resultsOf a t = resultsOf a e

/-- 43_cross_domain_sync.md R118: `B(G(i)) = i`; `G` of neighbours differs in exactly one bit, the wrap included; and a
word each of whose bits is that of the old or of the new code is the old or the new code; the tables for 2 and 3 bits;
and the flags in Gray form equal the binary comparisons. -/
def Obligations.GrayCodeChangesOneBit : Prop :=
  (∀ (w i : Nat), i < 2 ^ w →
    gray i < 2 ^ w ∧ ungray w (gray i) = i ∧
    (0 < w → ∃ k, k < w ∧ gray ((i + 1) % 2 ^ w) = gray i ^^^ 2 ^ k) ∧
    (∀ g, 0 < w → (∀ k, g.testBit k = (gray i).testBit k ∨ g.testBit k = (gray ((i + 1) % 2 ^ w)).testBit k) →
      g = gray i ∨ g = gray ((i + 1) % 2 ^ w))) ∧
  (List.range 4).map gray = [0b00, 0b01, 0b11, 0b10] ∧
  (List.range 8).map gray = [0b000, 0b001, 0b011, 0b010, 0b110, 0b111, 0b101, 0b100] ∧
  (∀ s : State, grayEmptyK s = emptySeen .K s ∧ grayFullP s = fullSeen .P s)

/-- 30_encoding.md R62: the line written for an instruction reads back as its command. -/
def Obligations.AssemblerReadsWhatItWrites : Prop :=
  ∀ i : Instr, i.wf = true → readLine (writeInstr i) = some (.command (encode i))

/-! ### The end of a run -/

/-- 70_reset_and_hazards.md R166: a run is over when the commands are exhausted and no operation is in progress. With
the commands exhausted, a step changes nothing exactly when the run is over, and what is in progress comes to its end
(the steps past the end of the trace are the model's: log 3). At the end the bytes returned are `IN[0 .. PO-1]`, and
those not yet popped stand in `storage`; `SYNC_TAIL` steps and a final drain then deliver every byte accepted. -/
def Obligations.RunIsOverWhenNothingIsLeft : Prop :=
  (∀ s : State, Good s → s.trace = [] →
    (step s = .next s ↔ RunOver s) ∧ ∃ k t, steps k s = .next t ∧ RunOver t) ∧
  (∀ (cfg : Config) (s : State), 2 ≤ cfg.C → Reachable cfg s → RunOver s →
    returnedBytes s = s.ghost.IN.take s.ghost.PO ∧ contents s = (s.ghost.IN.drop s.ghost.PO).map some ∧
    ∃ (final : List TraceItem) (k : Nat) (t : State), (∀ x ∈ final, x = .drain ∨ ∃ j, x = .syncTail j) ∧
      steps k (setTrace final s) = .next t ∧ RunOver t ∧ returnedBytes t = s.ghost.IN ∧ t.head = t.tail)
end

