-- ==== Sys2Proof/Laws/Index.lean ====
section
/-! SUPPORT. Nat arithmetic: what `inc`, `dist` and `advanceBy` do to an index that is a count modulo `C`, and when
two counts fall on one slot (spec/00_scope.md R7, spec/10_state.md R21). -/

namespace Sys2Proof.Machine

theorem inc_lt {C : Nat} (hC : 2 ≤ C) (i : Nat) : inc C i < C := Nat.mod_lt _ (by omega)

/-- `inc` of a count modulo `C` is the next count modulo `C`. -/
theorem inc_mod (C n : Nat) : inc C (n % C) = (n + 1) % C := by
  simp [inc, Nat.add_mod]

/-- `k` steps from a count modulo `C`. -/
theorem advanceBy_mod (C n k : Nat) : advanceBy C (n % C) k = (n + k) % C := by
  simp [advanceBy, Nat.add_mod]

theorem advanceBy_zero {C : Nat} {i : Nat} (h : i < C) : advanceBy C i 0 = i := by
  simp [advanceBy, Nat.mod_eq_of_lt h]

/-- Two counts less than `C` apart fall on one slot only if they are equal. -/
theorem eq_of_mod_eq {C a b : Nat} (hab : a ≤ b) (hlt : b < a + C) (h : a % C = b % C) : a = b := by
  have hb : (b - a) % C = 0 := by
    have := (Nat.modEq_iff_dvd' hab).mp h
    exact Nat.mod_eq_zero_of_dvd this
  rw [Nat.mod_eq_of_lt (by omega)] at hb
  omega

/-- The distance between two counts modulo `C`, the second less than `C` ahead, is their difference. -/
theorem dist_mod {C a b : Nat} (hC : 0 < C) (hab : a ≤ b) (hlt : b < a + C) :
    dist C (a % C) (b % C) = b - a := by
  have ha : a % C < C := Nat.mod_lt _ hC
  unfold dist
  have h1 : (b % C + (C - a % C)) % C = (b + (C - a % C)) % C := by
    simp [Nat.add_mod]
  have h2 : b + (C - a % C) = (b - a) + C * (a / C + 1) := by
    have := Nat.div_add_mod a C
    rw [Nat.mul_add, Nat.mul_one]
    omega
  rw [h1, h2, Nat.add_mul_mod_self_left, Nat.mod_eq_of_lt (by omega)]

/-- Two indices below `C` and the number of steps from one to the other. -/
theorem dist_of_lt {C a b : Nat} (ha : a < C) (hb : b < C) :
    dist C a b = if a ≤ b then b - a else b + C - a := by
  unfold dist
  split
  · have : b + (C - a) = (b - a) + C := by omega
    rw [this, Nat.add_mod_right, Nat.mod_eq_of_lt (by omega)]
  · rw [Nat.mod_eq_of_lt (by omega)]; omega

theorem inc_of_lt {C i : Nat} (h : i < C) : inc C i = if i + 1 = C then 0 else i + 1 := by
  unfold inc
  split
  · simp [*]
  · exact Nat.mod_eq_of_lt (by omega)

/-- `v` is in `Between(a, b)` exactly when it is `a` advanced by at most `dist(a, b)` steps. -/
theorem mem_between {C a b v : Nat} :
    v ∈ between C a b ↔ ∃ k, k ≤ dist C a b ∧ advanceBy C a k = v := by
  simp [between]

end Sys2Proof.Machine
end

