-- ==== Sys2Proof/Laws/Memory.lean ====
section
/-! SUPPORT. The laws of the two memories: a read after a write, and that a write keeps the canonical form. -/

namespace Sys2Proof.Machine

@[simp] theorem read_nil (i : Nat) : Memory.read [] i = none := rfl

@[simp] theorem read_write_same (m : Memory) (i : Nat) (b : Byte) :
    Memory.read (Memory.write m i b) i = some b := by
  induction m with
  | nil => simp [Memory.write, Memory.read]
  | cons c m ih =>
    obtain ⟨a, v⟩ := c
    unfold Memory.write
    split
    · simp [Memory.read]
    · split
      · simp [Memory.read]
      · have : a ≠ i := fun h => ‹¬i = a› h.symm
        simp [Memory.read, this, ih]

theorem read_write_other (m : Memory) {i j : Nat} (b : Byte) (h : j ≠ i) :
    Memory.read (Memory.write m i b) j = Memory.read m j := by
  have h' : i ≠ j := fun e => h e.symm
  induction m with
  | nil => simp [Memory.write, Memory.read, h']
  | cons c m ih =>
    obtain ⟨a, v⟩ := c
    unfold Memory.write
    split
    · simp [Memory.read, h']
    · split
      · rename_i e; subst e; simp [Memory.read, h']
      · simp [Memory.read, ih]

/-- Every cell of a memory after a write is the new one or was there before. -/
theorem mem_write {m : Memory} {i : Nat} {b : Byte} {c : Host.Cell} (h : c ∈ Memory.write m i b) :
    c = (i, b) ∨ c ∈ m := by
  induction m with
  | nil => simpa [Memory.write] using h
  | cons d m ih =>
    obtain ⟨a, v⟩ := d
    unfold Memory.write at h
    split at h
    · rcases List.mem_cons.mp h with h | h
      · exact .inl h
      · exact .inr h
    · split at h
      · rcases List.mem_cons.mp h with h | h
        · exact .inl h
        · exact .inr (List.mem_cons_of_mem _ h)
      · rcases List.mem_cons.mp h with h | h
        · exact .inr (h ▸ List.mem_cons_self)
        · exact (ih h).imp id (List.mem_cons_of_mem _)

/-- A write keeps the canonical form. -/
theorem write_wf {m : Memory} (h : Memory.wf m) (i : Nat) (b : Byte) : Memory.wf (Memory.write m i b) := by
  induction m with
  | nil => simp [Memory.write, Memory.wf]
  | cons c m ih =>
    obtain ⟨a, v⟩ := c
    obtain ⟨h1, h2⟩ := List.pairwise_cons.mp h
    unfold Memory.write
    split
    · refine List.pairwise_cons.mpr ⟨?_, h⟩
      intro d hd
      rcases List.mem_cons.mp hd with rfl | hd
      · assumption
      · exact Nat.lt_trans ‹_› (h1 d hd)
    · split
      · rename_i e; subst e
        exact List.pairwise_cons.mpr ⟨h1, h2⟩
      · refine List.pairwise_cons.mpr ⟨?_, ih h2⟩
        intro d hd
        rcases mem_write hd with rfl | hd
        · show a < i
          omega
        · exact h1 d hd

/-- A write to a slot below `C` keeps every listed slot below `C`. -/
theorem write_slots {m : Memory} {C i : Nat} {b : Byte} (h : ∀ c ∈ m, c.1 < C) (hi : i < C) :
    ∀ c ∈ Memory.write m i b, c.1 < C := by
  intro c hc
  rcases mem_write hc with rfl | hc
  · exact hi
  · exact h c hc

/-- A memory in canonical form whose cells all lie below `i` gains its new cell at the end. -/
theorem write_above {m : Memory} {i : Nat} {b : Byte} (h : ∀ c ∈ m, c.1 < i) :
    Memory.write m i b = m ++ [(i, b)] := by
  induction m with
  | nil => rfl
  | cons c m ih =>
    obtain ⟨a, v⟩ := c
    have ha : a < i := h _ List.mem_cons_self
    have h1 : ¬ i < a := by omega
    have h2 : ¬ i = a := by omega
    simp only [Memory.write, h1, h2, if_false, List.cons_append]
    rw [ih (fun c hc => h c (List.mem_cons_of_mem _ hc))]

@[simp] theorem regionOf_nil : regionOf [] = [] := rfl

/-- A region that holds `bytes` at 0 up takes the next byte at the next offset. -/
theorem regionOf_snoc (bytes : List Byte) (b : Byte) :
    Memory.write (regionOf bytes) bytes.length b = regionOf (bytes ++ [b]) := by
  rw [write_above]
  · simp [regionOf, List.range_succ, List.zip_append]
  · intro c hc
    have := List.of_mem_zip (show (c.1, c.2) ∈ (List.range bytes.length).zip bytes from hc)
    simpa using this.1

/-- The bytes of a region. -/
@[simp] theorem regionOf_bytes (bytes : List Byte) : (regionOf bytes).map Prod.snd = bytes := by
  simp [regionOf, List.map_snd_zip]

theorem regionOf_wf (bytes : List Byte) : Memory.wf (regionOf bytes) := by
  induction bytes using List.reverseRecOn with
  | nil => simp [Memory.wf]
  | append_singleton l b ih => rw [← regionOf_snoc]; exact write_wf ih _ _

/-- What an offset of a region holds: its byte, and nothing from the end on. -/
theorem read_regionOf (bytes : List Byte) (k : Nat) : Memory.read (regionOf bytes) k = bytes[k]? := by
  induction bytes using List.reverseRecOn with
  | nil => rfl
  | append_singleton l b ih =>
    rw [← regionOf_snoc]
    by_cases h : k = l.length
    · subst h; simp
    · rw [read_write_other _ _ h, ih]
      rcases Nat.lt_or_ge k l.length with h1 | h1
      · rw [List.getElem?_append_left h1]
      · rw [List.getElem?_eq_none h1, List.getElem?_eq_none (by simp; omega)]

end Sys2Proof.Machine
end

