-- ==== Sys2Proof/Laws/State.lean ====
section
/-! SUPPORT. One lemma per field per update, so that no proof unfolds a record update. -/

namespace Sys2Proof.Machine

/-! `memWrite` -/

@[simp] theorem memWrite_C (i : Nat) (v : Byte) (s : State) : (memWrite i v s).C = s.C := rfl
@[simp] theorem memWrite_sync (i : Nat) (v : Byte) (s : State) : (memWrite i v s).sync = s.sync := rfl
@[simp] theorem memWrite_head (i : Nat) (v : Byte) (s : State) : (memWrite i v s).head = s.head := rfl
@[simp] theorem memWrite_tail (i : Nat) (v : Byte) (s : State) : (memWrite i v s).tail = s.tail := rfl
@[simp] theorem memWrite_storage (i : Nat) (v : Byte) (s : State) : (memWrite i v s).storage = Memory.write s.storage i v := rfl
@[simp] theorem memWrite_pOp (i : Nat) (v : Byte) (s : State) : (memWrite i v s).pOp = s.pOp := rfl
@[simp] theorem memWrite_kOp (i : Nat) (v : Byte) (s : State) : (memWrite i v s).kOp = s.kOp := rfl
@[simp] theorem memWrite_out (i : Nat) (v : Byte) (s : State) : (memWrite i v s).out = s.out := rfl
@[simp] theorem memWrite_regionLen (i : Nat) (v : Byte) (s : State) : (memWrite i v s).regionLen = s.regionLen := rfl
@[simp] theorem memWrite_results (i : Nat) (v : Byte) (s : State) : (memWrite i v s).results = s.results := rfl
@[simp] theorem memWrite_trace (i : Nat) (v : Byte) (s : State) : (memWrite i v s).trace = s.trace := rfl
@[simp] theorem memWrite_ghost (i : Nat) (v : Byte) (s : State) : (memWrite i v s).ghost = s.ghost := rfl
@[simp] theorem memWrite_mode (i : Nat) (v : Byte) (s : State) : (memWrite i v s).mode = s.mode := rfl
@[simp] theorem memWrite_obs (a : Agent) (r : IndexReg) (i : Nat) (v : Byte) (s : State) : obs a r (memWrite i v s) = obs a r s := by
  cases a <;> cases r <;> rfl

/-! `outWrite` -/

@[simp] theorem outWrite_C (k : Nat) (v : Byte) (s : State) : (outWrite k v s).C = s.C := rfl
@[simp] theorem outWrite_sync (k : Nat) (v : Byte) (s : State) : (outWrite k v s).sync = s.sync := rfl
@[simp] theorem outWrite_head (k : Nat) (v : Byte) (s : State) : (outWrite k v s).head = s.head := rfl
@[simp] theorem outWrite_tail (k : Nat) (v : Byte) (s : State) : (outWrite k v s).tail = s.tail := rfl
@[simp] theorem outWrite_storage (k : Nat) (v : Byte) (s : State) : (outWrite k v s).storage = s.storage := rfl
@[simp] theorem outWrite_pOp (k : Nat) (v : Byte) (s : State) : (outWrite k v s).pOp = s.pOp := rfl
@[simp] theorem outWrite_kOp (k : Nat) (v : Byte) (s : State) : (outWrite k v s).kOp = s.kOp := rfl
@[simp] theorem outWrite_out (k : Nat) (v : Byte) (s : State) : (outWrite k v s).out = Memory.write s.out k v := rfl
@[simp] theorem outWrite_regionLen (k : Nat) (v : Byte) (s : State) : (outWrite k v s).regionLen = s.regionLen := rfl
@[simp] theorem outWrite_results (k : Nat) (v : Byte) (s : State) : (outWrite k v s).results = s.results := rfl
@[simp] theorem outWrite_trace (k : Nat) (v : Byte) (s : State) : (outWrite k v s).trace = s.trace := rfl
@[simp] theorem outWrite_ghost (k : Nat) (v : Byte) (s : State) : (outWrite k v s).ghost = s.ghost := rfl
@[simp] theorem outWrite_mode (k : Nat) (v : Byte) (s : State) : (outWrite k v s).mode = s.mode := rfl
@[simp] theorem outWrite_obs (a : Agent) (r : IndexReg) (k : Nat) (v : Byte) (s : State) : obs a r (outWrite k v s) = obs a r s := by
  cases a <;> cases r <;> rfl

/-! `freshRegion` -/

@[simp] theorem freshRegion_C (s : State) : (freshRegion s).C = s.C := rfl
@[simp] theorem freshRegion_sync (s : State) : (freshRegion s).sync = s.sync := rfl
@[simp] theorem freshRegion_head (s : State) : (freshRegion s).head = s.head := rfl
@[simp] theorem freshRegion_tail (s : State) : (freshRegion s).tail = s.tail := rfl
@[simp] theorem freshRegion_storage (s : State) : (freshRegion s).storage = s.storage := rfl
@[simp] theorem freshRegion_pOp (s : State) : (freshRegion s).pOp = s.pOp := rfl
@[simp] theorem freshRegion_kOp (s : State) : (freshRegion s).kOp = s.kOp := rfl
@[simp] theorem freshRegion_out (s : State) : (freshRegion s).out = [] := rfl
@[simp] theorem freshRegion_regionLen (s : State) : (freshRegion s).regionLen = s.regionLen := rfl
@[simp] theorem freshRegion_results (s : State) : (freshRegion s).results = s.results := rfl
@[simp] theorem freshRegion_trace (s : State) : (freshRegion s).trace = s.trace := rfl
@[simp] theorem freshRegion_ghost (s : State) : (freshRegion s).ghost = s.ghost := rfl
@[simp] theorem freshRegion_mode (s : State) : (freshRegion s).mode = s.mode := rfl
@[simp] theorem freshRegion_obs (a : Agent) (r : IndexReg) (s : State) : obs a r (freshRegion s) = obs a r s := by
  cases a <;> cases r <;> rfl

/-! `giveResult` -/

@[simp] theorem giveResult_C (a : Agent) (r : Result) (s : State) : (giveResult a r s).C = s.C := rfl
@[simp] theorem giveResult_sync (a : Agent) (r : Result) (s : State) : (giveResult a r s).sync = s.sync := rfl
@[simp] theorem giveResult_head (a : Agent) (r : Result) (s : State) : (giveResult a r s).head = s.head := rfl
@[simp] theorem giveResult_tail (a : Agent) (r : Result) (s : State) : (giveResult a r s).tail = s.tail := rfl
@[simp] theorem giveResult_storage (a : Agent) (r : Result) (s : State) : (giveResult a r s).storage = s.storage := rfl
@[simp] theorem giveResult_pOp (a : Agent) (r : Result) (s : State) : (giveResult a r s).pOp = s.pOp := rfl
@[simp] theorem giveResult_kOp (a : Agent) (r : Result) (s : State) : (giveResult a r s).kOp = s.kOp := rfl
@[simp] theorem giveResult_out (a : Agent) (r : Result) (s : State) : (giveResult a r s).out = s.out := rfl
@[simp] theorem giveResult_regionLen (a : Agent) (r : Result) (s : State) : (giveResult a r s).regionLen = s.regionLen := rfl
@[simp] theorem giveResult_results (a : Agent) (r : Result) (s : State) : (giveResult a r s).results = s.results ++ [(a, r)] := rfl
@[simp] theorem giveResult_trace (a : Agent) (r : Result) (s : State) : (giveResult a r s).trace = s.trace := rfl
@[simp] theorem giveResult_ghost (a : Agent) (r : Result) (s : State) : (giveResult a r s).ghost = s.ghost := rfl
@[simp] theorem giveResult_mode (a : Agent) (r : Result) (s : State) : (giveResult a r s).mode = s.mode := rfl
@[simp] theorem giveResult_obs (x : Agent) (q : IndexReg) (a : Agent) (r : Result) (s : State) :
    obs x q (giveResult a r s) = obs x q s := by
  cases x <;> cases q <;> rfl

/-! `setPOp` -/

@[simp] theorem setPOp_C (o : POp) (s : State) : (setPOp o s).C = s.C := rfl
@[simp] theorem setPOp_sync (o : POp) (s : State) : (setPOp o s).sync = s.sync := rfl
@[simp] theorem setPOp_head (o : POp) (s : State) : (setPOp o s).head = s.head := rfl
@[simp] theorem setPOp_tail (o : POp) (s : State) : (setPOp o s).tail = s.tail := rfl
@[simp] theorem setPOp_storage (o : POp) (s : State) : (setPOp o s).storage = s.storage := rfl
@[simp] theorem setPOp_pOp (o : POp) (s : State) : (setPOp o s).pOp = o := rfl
@[simp] theorem setPOp_kOp (o : POp) (s : State) : (setPOp o s).kOp = s.kOp := rfl
@[simp] theorem setPOp_out (o : POp) (s : State) : (setPOp o s).out = s.out := rfl
@[simp] theorem setPOp_regionLen (o : POp) (s : State) : (setPOp o s).regionLen = s.regionLen := rfl
@[simp] theorem setPOp_results (o : POp) (s : State) : (setPOp o s).results = s.results := rfl
@[simp] theorem setPOp_trace (o : POp) (s : State) : (setPOp o s).trace = s.trace := rfl
@[simp] theorem setPOp_ghost (o : POp) (s : State) : (setPOp o s).ghost = s.ghost := rfl
@[simp] theorem setPOp_mode (o : POp) (s : State) : (setPOp o s).mode = s.mode := rfl
@[simp] theorem setPOp_obs (a : Agent) (r : IndexReg) (o : POp) (s : State) : obs a r (setPOp o s) = obs a r s := by
  cases a <;> cases r <;> rfl

/-! `setKOp` -/

@[simp] theorem setKOp_C (o : KOp) (s : State) : (setKOp o s).C = s.C := rfl
@[simp] theorem setKOp_sync (o : KOp) (s : State) : (setKOp o s).sync = s.sync := rfl
@[simp] theorem setKOp_head (o : KOp) (s : State) : (setKOp o s).head = s.head := rfl
@[simp] theorem setKOp_tail (o : KOp) (s : State) : (setKOp o s).tail = s.tail := rfl
@[simp] theorem setKOp_storage (o : KOp) (s : State) : (setKOp o s).storage = s.storage := rfl
@[simp] theorem setKOp_pOp (o : KOp) (s : State) : (setKOp o s).pOp = s.pOp := rfl
@[simp] theorem setKOp_kOp (o : KOp) (s : State) : (setKOp o s).kOp = o := rfl
@[simp] theorem setKOp_out (o : KOp) (s : State) : (setKOp o s).out = s.out := rfl
@[simp] theorem setKOp_regionLen (o : KOp) (s : State) : (setKOp o s).regionLen = s.regionLen := rfl
@[simp] theorem setKOp_results (o : KOp) (s : State) : (setKOp o s).results = s.results := rfl
@[simp] theorem setKOp_trace (o : KOp) (s : State) : (setKOp o s).trace = s.trace := rfl
@[simp] theorem setKOp_ghost (o : KOp) (s : State) : (setKOp o s).ghost = s.ghost := rfl
@[simp] theorem setKOp_mode (o : KOp) (s : State) : (setKOp o s).mode = s.mode := rfl
@[simp] theorem setKOp_obs (a : Agent) (r : IndexReg) (o : KOp) (s : State) : obs a r (setKOp o s) = obs a r s := by
  cases a <;> cases r <;> rfl

/-! `setTrace` -/

@[simp] theorem setTrace_C (l : List TraceItem) (s : State) : (setTrace l s).C = s.C := rfl
@[simp] theorem setTrace_sync (l : List TraceItem) (s : State) : (setTrace l s).sync = s.sync := rfl
@[simp] theorem setTrace_head (l : List TraceItem) (s : State) : (setTrace l s).head = s.head := rfl
@[simp] theorem setTrace_tail (l : List TraceItem) (s : State) : (setTrace l s).tail = s.tail := rfl
@[simp] theorem setTrace_storage (l : List TraceItem) (s : State) : (setTrace l s).storage = s.storage := rfl
@[simp] theorem setTrace_pOp (l : List TraceItem) (s : State) : (setTrace l s).pOp = s.pOp := rfl
@[simp] theorem setTrace_kOp (l : List TraceItem) (s : State) : (setTrace l s).kOp = s.kOp := rfl
@[simp] theorem setTrace_out (l : List TraceItem) (s : State) : (setTrace l s).out = s.out := rfl
@[simp] theorem setTrace_regionLen (l : List TraceItem) (s : State) : (setTrace l s).regionLen = s.regionLen := rfl
@[simp] theorem setTrace_results (l : List TraceItem) (s : State) : (setTrace l s).results = s.results := rfl
@[simp] theorem setTrace_trace (l : List TraceItem) (s : State) : (setTrace l s).trace = l := rfl
@[simp] theorem setTrace_ghost (l : List TraceItem) (s : State) : (setTrace l s).ghost = s.ghost := rfl
@[simp] theorem setTrace_mode (l : List TraceItem) (s : State) : (setTrace l s).mode = s.mode := rfl
@[simp] theorem setTrace_obs (a : Agent) (r : IndexReg) (l : List TraceItem) (s : State) : obs a r (setTrace l s) = obs a r s := by
  cases a <;> cases r <;> rfl

/-! `advanceTail` -/

@[simp] theorem advanceTail_C (b : Byte) (s : State) : (advanceTail b s).C = s.C := rfl
@[simp] theorem advanceTail_sync (b : Byte) (s : State) : (advanceTail b s).sync = s.sync := rfl
@[simp] theorem advanceTail_head (b : Byte) (s : State) : (advanceTail b s).head = s.head := rfl
@[simp] theorem advanceTail_tail (b : Byte) (s : State) : (advanceTail b s).tail = inc s.C s.tail := rfl
@[simp] theorem advanceTail_storage (b : Byte) (s : State) : (advanceTail b s).storage = s.storage := rfl
@[simp] theorem advanceTail_pOp (b : Byte) (s : State) : (advanceTail b s).pOp = s.pOp := rfl
@[simp] theorem advanceTail_kOp (b : Byte) (s : State) : (advanceTail b s).kOp = s.kOp := rfl
@[simp] theorem advanceTail_out (b : Byte) (s : State) : (advanceTail b s).out = s.out := rfl
@[simp] theorem advanceTail_regionLen (b : Byte) (s : State) : (advanceTail b s).regionLen = s.regionLen := rfl
@[simp] theorem advanceTail_results (b : Byte) (s : State) : (advanceTail b s).results = s.results := rfl
@[simp] theorem advanceTail_trace (b : Byte) (s : State) : (advanceTail b s).trace = s.trace := rfl
@[simp] theorem advanceTail_ghost (b : Byte) (s : State) : (advanceTail b s).ghost = s.ghost.pushed s.mode b := rfl
@[simp] theorem advanceTail_mode (b : Byte) (s : State) : (advanceTail b s).mode = s.mode := rfl

/-! `advanceHead` -/

@[simp] theorem advanceHead_C (v : Byte) (s : State) : (advanceHead v s).C = s.C := rfl
@[simp] theorem advanceHead_sync (v : Byte) (s : State) : (advanceHead v s).sync = s.sync := rfl
@[simp] theorem advanceHead_head (v : Byte) (s : State) : (advanceHead v s).head = inc s.C s.head := rfl
@[simp] theorem advanceHead_tail (v : Byte) (s : State) : (advanceHead v s).tail = s.tail := rfl
@[simp] theorem advanceHead_storage (v : Byte) (s : State) : (advanceHead v s).storage = s.storage := rfl
@[simp] theorem advanceHead_pOp (v : Byte) (s : State) : (advanceHead v s).pOp = s.pOp := rfl
@[simp] theorem advanceHead_kOp (v : Byte) (s : State) : (advanceHead v s).kOp = s.kOp := rfl
@[simp] theorem advanceHead_out (v : Byte) (s : State) : (advanceHead v s).out = s.out := rfl
@[simp] theorem advanceHead_regionLen (v : Byte) (s : State) : (advanceHead v s).regionLen = s.regionLen := rfl
@[simp] theorem advanceHead_results (v : Byte) (s : State) : (advanceHead v s).results = s.results := rfl
@[simp] theorem advanceHead_trace (v : Byte) (s : State) : (advanceHead v s).trace = s.trace := rfl
@[simp] theorem advanceHead_ghost (v : Byte) (s : State) : (advanceHead v s).ghost = s.ghost.popTaken s.mode v := rfl
@[simp] theorem advanceHead_mode (v : Byte) (s : State) : (advanceHead v s).mode = s.mode := rfl

/-! What the two advances do to what an agent sees. -/

@[simp] theorem advanceTail_obs_head (a : Agent) (b : Byte) (s : State) :
    obs a .head (advanceTail b s) = obs a .head s := by
  cases a
  · cases h : s.sync <;> simp [obs, h]
  · rfl

@[simp] theorem advanceTail_obs_tail_P (b : Byte) (s : State) :
    obs .P .tail (advanceTail b s) = inc s.C s.tail := rfl

@[simp] theorem advanceHead_obs_tail (a : Agent) (v : Byte) (s : State) :
    obs a .tail (advanceHead v s) = obs a .tail s := by
  cases a
  · rfl
  · cases h : s.sync <;> simp [obs, h]

@[simp] theorem advanceHead_obs_head_K (v : Byte) (s : State) :
    obs .K .head (advanceHead v s) = inc s.C s.head := rfl

@[simp] theorem obs_P_tail (s : State) : obs .P .tail s = s.tail := rfl

@[simp] theorem obs_K_head (s : State) : obs .K .head s = s.head := rfl

/-! `moveTailView` -/

@[simp] theorem moveTailView_C (hv tv : Nat) (k : Nat) (s : State) :
    (moveTailView hv tv k s).C = s.C := rfl
@[simp] theorem moveTailView_sync (hv tv : Nat) (k : Nat) (s : State) :
    (moveTailView hv tv k s).sync = .synced hv (advanceBy s.C tv k) := rfl
@[simp] theorem moveTailView_head (hv tv : Nat) (k : Nat) (s : State) :
    (moveTailView hv tv k s).head = s.head := rfl
@[simp] theorem moveTailView_tail (hv tv : Nat) (k : Nat) (s : State) :
    (moveTailView hv tv k s).tail = s.tail := rfl
@[simp] theorem moveTailView_storage (hv tv : Nat) (k : Nat) (s : State) :
    (moveTailView hv tv k s).storage = s.storage := rfl
@[simp] theorem moveTailView_pOp (hv tv : Nat) (k : Nat) (s : State) :
    (moveTailView hv tv k s).pOp = s.pOp := rfl
@[simp] theorem moveTailView_kOp (hv tv : Nat) (k : Nat) (s : State) :
    (moveTailView hv tv k s).kOp = s.kOp := rfl
@[simp] theorem moveTailView_out (hv tv : Nat) (k : Nat) (s : State) :
    (moveTailView hv tv k s).out = s.out := rfl
@[simp] theorem moveTailView_regionLen (hv tv : Nat) (k : Nat) (s : State) :
    (moveTailView hv tv k s).regionLen = s.regionLen := rfl
@[simp] theorem moveTailView_results (hv tv : Nat) (k : Nat) (s : State) :
    (moveTailView hv tv k s).results = s.results := rfl
@[simp] theorem moveTailView_trace (hv tv : Nat) (k : Nat) (s : State) :
    (moveTailView hv tv k s).trace = s.trace := rfl
@[simp] theorem moveTailView_PU (hv tv : Nat) (k : Nat) (s : State) :
    (moveTailView hv tv k s).ghost.PU = s.ghost.PU := rfl
@[simp] theorem moveTailView_PO (hv tv : Nat) (k : Nat) (s : State) :
    (moveTailView hv tv k s).ghost.PO = s.ghost.PO := rfl
@[simp] theorem moveTailView_HV (hv tv : Nat) (k : Nat) (s : State) :
    (moveTailView hv tv k s).ghost.HV = s.ghost.HV := rfl
@[simp] theorem moveTailView_TV (hv tv : Nat) (k : Nat) (s : State) :
    (moveTailView hv tv k s).ghost.TV = s.ghost.TV + k := rfl
@[simp] theorem moveTailView_IN (hv tv : Nat) (k : Nat) (s : State) :
    (moveTailView hv tv k s).ghost.IN = s.ghost.IN := rfl
@[simp] theorem moveTailView_popped (hv tv : Nat) (k : Nat) (s : State) :
    (moveTailView hv tv k s).ghost.popped = s.ghost.popped := rfl
@[simp] theorem moveTailView_mode (hv tv : Nat) (k : Nat) (s : State) : (moveTailView hv tv k s).mode = .SYNCED := rfl

/-! `moveHeadView` -/

@[simp] theorem moveHeadView_C (hv tv : Nat) (k : Nat) (s : State) :
    (moveHeadView hv tv k s).C = s.C := rfl
@[simp] theorem moveHeadView_sync (hv tv : Nat) (k : Nat) (s : State) :
    (moveHeadView hv tv k s).sync = .synced (advanceBy s.C hv k) tv := rfl
@[simp] theorem moveHeadView_head (hv tv : Nat) (k : Nat) (s : State) :
    (moveHeadView hv tv k s).head = s.head := rfl
@[simp] theorem moveHeadView_tail (hv tv : Nat) (k : Nat) (s : State) :
    (moveHeadView hv tv k s).tail = s.tail := rfl
@[simp] theorem moveHeadView_storage (hv tv : Nat) (k : Nat) (s : State) :
    (moveHeadView hv tv k s).storage = s.storage := rfl
@[simp] theorem moveHeadView_pOp (hv tv : Nat) (k : Nat) (s : State) :
    (moveHeadView hv tv k s).pOp = s.pOp := rfl
@[simp] theorem moveHeadView_kOp (hv tv : Nat) (k : Nat) (s : State) :
    (moveHeadView hv tv k s).kOp = s.kOp := rfl
@[simp] theorem moveHeadView_out (hv tv : Nat) (k : Nat) (s : State) :
    (moveHeadView hv tv k s).out = s.out := rfl
@[simp] theorem moveHeadView_regionLen (hv tv : Nat) (k : Nat) (s : State) :
    (moveHeadView hv tv k s).regionLen = s.regionLen := rfl
@[simp] theorem moveHeadView_results (hv tv : Nat) (k : Nat) (s : State) :
    (moveHeadView hv tv k s).results = s.results := rfl
@[simp] theorem moveHeadView_trace (hv tv : Nat) (k : Nat) (s : State) :
    (moveHeadView hv tv k s).trace = s.trace := rfl
@[simp] theorem moveHeadView_PU (hv tv : Nat) (k : Nat) (s : State) :
    (moveHeadView hv tv k s).ghost.PU = s.ghost.PU := rfl
@[simp] theorem moveHeadView_PO (hv tv : Nat) (k : Nat) (s : State) :
    (moveHeadView hv tv k s).ghost.PO = s.ghost.PO := rfl
@[simp] theorem moveHeadView_HV (hv tv : Nat) (k : Nat) (s : State) :
    (moveHeadView hv tv k s).ghost.HV = s.ghost.HV + k := rfl
@[simp] theorem moveHeadView_TV (hv tv : Nat) (k : Nat) (s : State) :
    (moveHeadView hv tv k s).ghost.TV = s.ghost.TV := rfl
@[simp] theorem moveHeadView_IN (hv tv : Nat) (k : Nat) (s : State) :
    (moveHeadView hv tv k s).ghost.IN = s.ghost.IN := rfl
@[simp] theorem moveHeadView_popped (hv tv : Nat) (k : Nat) (s : State) :
    (moveHeadView hv tv k s).ghost.popped = s.ghost.popped := rfl
@[simp] theorem moveHeadView_mode (hv tv : Nat) (k : Nat) (s : State) : (moveHeadView hv tv k s).mode = .SYNCED := rfl

/-! The ghost updates. -/

@[simp] theorem Ghost_pushed_PU (m : SyncMode) (b : Byte) (g : Ghost) :
    (g.pushed m b).PU = g.PU + 1 := rfl
@[simp] theorem Ghost_pushed_PO (m : SyncMode) (b : Byte) (g : Ghost) :
    (g.pushed m b).PO = g.PO := rfl
@[simp] theorem Ghost_pushed_HV (m : SyncMode) (b : Byte) (g : Ghost) :
    (g.pushed m b).HV = g.HV := rfl
@[simp] theorem Ghost_pushed_IN (m : SyncMode) (b : Byte) (g : Ghost) :
    (g.pushed m b).IN = g.IN ++ [b] := rfl
@[simp] theorem Ghost_pushed_popped (m : SyncMode) (b : Byte) (g : Ghost) :
    (g.pushed m b).popped = g.popped := rfl
@[simp] theorem Ghost_popTaken_PU (m : SyncMode) (v : Byte) (g : Ghost) :
    (g.popTaken m v).PU = g.PU := rfl
@[simp] theorem Ghost_popTaken_PO (m : SyncMode) (v : Byte) (g : Ghost) :
    (g.popTaken m v).PO = g.PO + 1 := rfl
@[simp] theorem Ghost_popTaken_TV (m : SyncMode) (v : Byte) (g : Ghost) :
    (g.popTaken m v).TV = g.TV := rfl
@[simp] theorem Ghost_popTaken_IN (m : SyncMode) (v : Byte) (g : Ghost) :
    (g.popTaken m v).IN = g.IN := rfl
@[simp] theorem Ghost_popTaken_popped (m : SyncMode) (v : Byte) (g : Ghost) :
    (g.popTaken m v).popped = g.popped ++ [v] := rfl
@[simp] theorem Ghost_pushed_TV_direct (b : Byte) (g : Ghost) : (g.pushed .DIRECT b).TV = g.PU + 1 := rfl
@[simp] theorem Ghost_pushed_TV_synced (b : Byte) (g : Ghost) : (g.pushed .SYNCED b).TV = g.TV := rfl
@[simp] theorem Ghost_popTaken_HV_direct (v : Byte) (g : Ghost) : (g.popTaken .DIRECT v).HV = g.PO + 1 := rfl
@[simp] theorem Ghost_popTaken_HV_synced (v : Byte) (g : Ghost) : (g.popTaken .SYNCED v).HV = g.HV := rfl

end Sys2Proof.Machine
end

