-- ==== Sys2Proof/Laws/Ops.lean ====
section
/-! SUPPORT. What each shared operation can do, said once: the checks, one `POP`, the loop of `READ_INTO`, and the
trace entries. -/

namespace Sys2Proof.Machine

/-! The outcome combinators. -/

@[simp] theorem unlessRefused_none (f : Host.Outcome State Fault Refusal) : unlessRefused none f = f := rfl
@[simp] theorem unlessRefused_some (r : Refusal) (f : Host.Outcome State Fault Refusal) :
    unlessRefused (some r) f = .refused r := rfl
@[simp] theorem ofExcept_ok (s : State) : ofExcept (.ok s) = .next s := rfl
@[simp] theorem ofExcept_error (f : Fault) : ofExcept (.error f) = .fault f := rfl
@[simp] theorem andThen_next (s : State) (f : State → Host.Outcome State Fault Refusal) : andThen (.next s) f = f s := rfl

theorem unlessRefused_next {c : Option Refusal} {f : Host.Outcome State Fault Refusal} {t : State} :
    unlessRefused c f = .next t ↔ c = none ∧ f = .next t := by
  cases c <;> simp

theorem unlessRefused_fault {c : Option Refusal} {f : Host.Outcome State Fault Refusal} {r : Fault} :
    unlessRefused c f = .fault r ↔ c = none ∧ f = .fault r := by
  cases c <;> simp

theorem ofExcept_next {e : Except Fault State} {t : State} : ofExcept e = .next t ↔ e = .ok t := by
  cases e <;> simp

theorem ofExcept_fault {e : Except Fault State} {f : Fault} : ofExcept e = .fault f ↔ e = .error f := by
  cases e <;> simp

theorem andThen_next_iff {o : Host.Outcome State Fault Refusal} {f : State → Host.Outcome State Fault Refusal} {t : State} :
    andThen o f = .next t ↔ ∃ u, o = .next u ∧ f u = .next t := by
  cases o <;> simp [andThen]

theorem andThen_fault_iff {o : Host.Outcome State Fault Refusal} {f : State → Host.Outcome State Fault Refusal} {r : Fault} :
    andThen o f = .fault r ↔ o = .fault r ∨ ∃ u, o = .next u ∧ f u = .fault r := by
  cases o <;> simp [andThen]

/-! The checks. -/

theorem contract_none {s : State} : contract s = none ↔ 2 ≤ s.C ∧ indicesInRange s = true := by
  unfold contract
  split_ifs
  · simp; omega
  · simp [*]; omega
  · simp [*]

theorem indicesInRange_iff {s : State} : indicesInRange s = true ↔
    s.head < s.C ∧ s.tail < s.C ∧
      match s.sync with
      | .direct => True
      | .synced hv tv => hv < s.C ∧ tv < s.C := by
  unfold indicesInRange
  cases s.sync <;> simp [and_assoc]

theorem ready_iff {a : Agent} {s : State} :
    Ready a s ↔ contract s = none ∧ busy a s = false ∧ insidePush a s = false := by
  unfold Ready cannotBegin
  cases h : contract s <;> cases busy a s <;> cases insidePush a s <;> simp

theorem cannotContinue_none {a : Agent} {s : State} :
    cannotContinue a s = none ↔ contract s = none ∧ busy a s = true ∧ insidePush a s = false := by
  unfold cannotContinue
  cases h : contract s <;> cases busy a s <;> cases insidePush a s <;> simp

@[simp] theorem busy_P {s : State} : busy .P s = false ↔ s.pOp = .idle := by simp [busy]
@[simp] theorem busy_K {s : State} : busy .K s = false ↔ s.kOp = .idle := by simp [busy]

@[simp] theorem insidePush_P (s : State) : insidePush .P s = false := rfl

/-- A ready producer has no `PUSH` in progress. -/
theorem Ready.pOp_idle {s : State} (h : Ready .P s) : s.pOp = .idle := busy_P.mp (ready_iff.mp h).2.1

/-- A ready consumer has no `POP` or `READ_INTO` in progress. -/
theorem Ready.kOp_idle {s : State} (h : Ready .K s) : s.kOp = .idle := busy_K.mp (ready_iff.mp h).2.1

/-- `emptySeen`, `fullSeen`: equality of what is observed. -/
theorem emptySeen_iff {a : Agent} {s : State} : emptySeen a s = true ↔ obs a .head s = obs a .tail s := by
  simp [emptySeen, emptyOf]

theorem fullSeen_iff {a : Agent} {s : State} : fullSeen a s = true ↔ inc s.C (obs a .tail s) = obs a .head s := by
  simp [fullSeen, fullOf]

/-! One `POP`. -/

theorem memRead_ok {s : State} {i : Nat} {v : Byte} : memRead s i = .ok v ↔ Memory.read s.storage i = some v := by
  unfold memRead
  cases Memory.read s.storage i <;> simp

theorem memRead_error {s : State} {i : Nat} {f : Fault} :
    memRead s i = .error f ↔ Memory.read s.storage i = none ∧ f = .unwrittenSlot i := by
  unfold memRead
  cases Memory.read s.storage i <;> simp [eq_comm]

theorem popOnce_empty {s : State} (h : emptySeen .K s = true) : popOnce s = .ok (none, s) := by
  simp [popOnce, h]

theorem popOnce_some {s : State} {v : Byte} (h : emptySeen .K s = false) (hv : Memory.read s.storage s.head = some v) :
    popOnce s = .ok (some v, advanceHead v s) := by
  simp [popOnce, h, memRead_ok.mpr hv]

/-- Everything one `POP` can do when it does not fault. -/
theorem popOnce_cases {s t : State} {r : Option Byte} (h : popOnce s = .ok (r, t)) :
    (emptySeen .K s = true ∧ r = none ∧ t = s) ∨
      ∃ v, emptySeen .K s = false ∧ Memory.read s.storage s.head = some v ∧ r = some v ∧ t = advanceHead v s := by
  unfold popOnce at h
  split at h
  · cases h; exact .inl ⟨‹_›, rfl, rfl⟩
  · split at h
    · cases h
      exact .inr ⟨_, by simpa using ‹¬emptySeen .K s = true›, memRead_ok.mp ‹_›, rfl, rfl⟩
    · cases h

theorem popOnce_error {s : State} {f : Fault} (h : popOnce s = .error f) :
    emptySeen .K s = false ∧ Memory.read s.storage s.head = none ∧ f = .unwrittenSlot s.head := by
  unfold popOnce at h
  split at h
  · cases h
  · split at h
    · cases h
    · cases h
      exact ⟨by simpa using ‹¬emptySeen .K s = true›, memRead_error.mp ‹_›⟩

/-! The loop of `READ_INTO`. -/

/-- `vs` popped one after the other and stored at offsets `count` up. -/
def deliver : List Byte → Nat → State → State
  | [], _, s => s
  | v :: vs, count, s => deliver vs (count + 1) (outWrite count v (advanceHead v s))

/-- Everything the loop can do when it does not fault: it delivers some bytes, at most as many as passes are left, each
the one `storage[head]` held when it was popped, and stops early only when `K` sees the ring empty. -/
theorem readLoop_cases {left count : Nat} {s t : State} (h : readLoop left count s = .ok t) :
    ∃ vs, vs.length ≤ left ∧ t = readFinish (count + vs.length) (deliver vs count s) ∧
      (vs.length < left → emptySeen .K (deliver vs count s) = true) := by
  induction left generalizing count s with
  | zero =>
    cases h
    exact ⟨[], by simp, rfl, by simp⟩
  | succ left ih =>
    unfold readLoop at h
    split at h
    · cases h
      rcases popOnce_cases ‹_› with ⟨he, -, rfl⟩ | ⟨v, -, -, h, -⟩
      · exact ⟨[], by simp, rfl, fun _ => he⟩
      · cases h
    · rename_i v t' hp
      rcases popOnce_cases hp with ⟨-, h, -⟩ | ⟨v', -, -, hv, ht⟩
      · cases h
      · cases hv
        subst ht
        obtain ⟨vs, hl, ht, he⟩ := ih h
        refine ⟨v :: vs, by simp; omega, ?_, ?_⟩
        · simpa [deliver, Nat.add_assoc, Nat.add_comm 1] using ht
        · intro hlt
          exact he (by simp at hlt; omega)
    · cases h

/-- A property that one byte delivered keeps is kept by the loop up to its end. -/
theorem readLoop_keeps {P : Nat → State → Prop} {left count : Nat} {s t : State} (h : readLoop left count s = .ok t)
    (h0 : P count s)
    (hs : ∀ c u v, P c u → emptySeen .K u = false → Memory.read u.storage u.head = some v →
      P (c + 1) (outWrite c v (advanceHead v u))) :
    ∃ c u, count ≤ c ∧ c ≤ count + left ∧ P c u ∧ t = readFinish c u ∧
      (c < count + left → emptySeen .K u = true) := by
  induction left generalizing count s with
  | zero =>
    cases h
    exact ⟨count, s, by simp, by simp, h0, rfl, by simp⟩
  | succ left ih =>
    unfold readLoop at h
    split at h
    · cases h
      rcases popOnce_cases ‹_› with ⟨he, -, rfl⟩ | ⟨v, -, -, h, -⟩
      · exact ⟨count, _, by simp, by omega, h0, rfl, fun _ => he⟩
      · cases h
    · rename_i v t' hp
      rcases popOnce_cases hp with ⟨-, h, -⟩ | ⟨v', he, hr, hv, ht⟩
      · cases h
      · cases hv
        subst ht
        obtain ⟨c, u, h1, h2, h3, h4, h5⟩ := ih h (hs _ _ _ h0 he hr)
        exact ⟨c, u, by omega, by omega, h3, h4, fun hlt => h5 (by omega)⟩
    · cases h

/-- Where `K` sees a byte and can read it, one pass of the loop delivers it and goes on. -/
theorem readLoop_some {left count : Nat} {s : State} {v : Byte} (h : emptySeen .K s = false)
    (hv : Memory.read s.storage s.head = some v) :
    readLoop (left + 1) count s = readLoop left (count + 1) (outWrite count v (advanceHead v s)) := by
  simp [readLoop, popOnce_some h hv]

theorem readLoop_empty {left count : Nat} {s : State} (h : emptySeen .K s = true) :
    readLoop (left + 1) count s = .ok (readFinish count s) := by
  simp [readLoop, popOnce_empty h]

@[simp] theorem readLoop_zero (count : Nat) (s : State) : readLoop 0 count s = .ok (readFinish count s) := rfl

/-! What delivering leaves alone. -/

section deliver
variable (vs : List Byte) (count : Nat) (s : State)

@[simp] theorem deliver_C : (deliver vs count s).C = s.C := by
  induction vs generalizing count s <;> simp [deliver, *]
@[simp] theorem deliver_sync : (deliver vs count s).sync = s.sync := by
  induction vs generalizing count s <;> simp [deliver, *]
@[simp] theorem deliver_mode : (deliver vs count s).mode = s.mode := by simp [State.mode]
@[simp] theorem deliver_tail : (deliver vs count s).tail = s.tail := by
  induction vs generalizing count s <;> simp [deliver, *]
@[simp] theorem deliver_storage : (deliver vs count s).storage = s.storage := by
  induction vs generalizing count s <;> simp [deliver, *]
@[simp] theorem deliver_pOp : (deliver vs count s).pOp = s.pOp := by
  induction vs generalizing count s <;> simp [deliver, *]
@[simp] theorem deliver_kOp : (deliver vs count s).kOp = s.kOp := by
  induction vs generalizing count s <;> simp [deliver, *]
@[simp] theorem deliver_regionLen : (deliver vs count s).regionLen = s.regionLen := by
  induction vs generalizing count s <;> simp [deliver, *]
@[simp] theorem deliver_results : (deliver vs count s).results = s.results := by
  induction vs generalizing count s <;> simp [deliver, *]
@[simp] theorem deliver_trace : (deliver vs count s).trace = s.trace := by
  induction vs generalizing count s <;> simp [deliver, *]
@[simp] theorem deliver_PO : (deliver vs count s).ghost.PO = s.ghost.PO + vs.length := by
  induction vs generalizing count s with
  | nil => rfl
  | cons v vs ih => simp [deliver, ih]; omega
@[simp] theorem deliver_popped : (deliver vs count s).ghost.popped = s.ghost.popped ++ vs := by
  induction vs generalizing count s <;> simp [deliver, *]
@[simp] theorem deliver_IN : (deliver vs count s).ghost.IN = s.ghost.IN := by
  induction vs generalizing count s <;> simp [deliver, *]
@[simp] theorem deliver_PU : (deliver vs count s).ghost.PU = s.ghost.PU := by
  induction vs generalizing count s <;> simp [deliver, *]
@[simp] theorem deliver_TV : (deliver vs count s).ghost.TV = s.ghost.TV := by
  induction vs generalizing count s <;> simp [deliver, *]

/-- The head has advanced by the number of bytes delivered. -/
theorem deliver_head (h : s.head < s.C) : (deliver vs count s).head = advanceBy s.C s.head vs.length := by
  induction vs generalizing count s with
  | nil => simp [deliver, advanceBy_zero h]
  | cons v vs ih =>
    have h' : (outWrite count v (advanceHead v s)).head < (outWrite count v (advanceHead v s)).C := by
      simpa [inc] using Nat.mod_lt _ (Nat.zero_lt_of_lt h)
    rw [deliver, ih _ _ h']
    simp [inc, advanceBy, Nat.add_assoc, Nat.add_comm 1]

/-- A region that holds `bs` at 0 up holds `bs ++ vs` after `vs` is delivered behind it. -/
theorem deliver_out {bs : List Byte} (h : s.out = regionOf bs) (hc : count = bs.length) :
    (deliver vs count s).out = regionOf (bs ++ vs) := by
  induction vs generalizing count s bs with
  | nil => simp [deliver, h]
  | cons v vs ih =>
    subst hc
    have : (outWrite bs.length v (advanceHead v s)).out = regionOf (bs ++ [v]) := by
      simp [h, regionOf_snoc]
    rw [deliver, ih _ _ this (by simp)]
    simp

end deliver

/-! Trace entries. -/

variable {s t : State} {x : TraceItem} {rest : List TraceItem}

theorem nextItem_cons (h : s.trace = x :: rest) : nextItem s = some x := by simp [nextItem, h]

theorem nextItem_nil_P (h : s.trace = []) (hp : s.pOp ≠ .idle) : nextItem s = some (.micro .P) := by
  simp [nextItem, h, busy, hp]

theorem nextItem_nil_K (h : s.trace = []) (hp : s.pOp = .idle) (hk : s.kOp ≠ .idle) :
    nextItem s = some (.micro .K) := by
  simp [nextItem, h, busy, hp, hk]

/-- Nothing happens next exactly when the run is over. -/
theorem nextItem_none : nextItem s = none ↔ s.trace = [] ∧ s.pOp = .idle ∧ s.kOp = .idle := by
  unfold nextItem busy
  cases s.trace <;> by_cases hp : s.pOp = .idle <;> by_cases hk : s.kOp = .idle <;> simp [hp, hk]

/-- A step performs what happens next. -/
theorem step_some (h : nextItem s = some x) : step s = runItem x (setTrace s.trace.tail s) := by
  simp [step, stepTrace, h]

theorem step_cons (h : s.trace = x :: rest) : step s = runItem x (setTrace rest s) := by
  simp [step_some (nextItem_cons h), h]

/-- Where nothing happens next nothing changes. -/
theorem step_none (h : nextItem s = none) : step s = .next s := by simp [step, stepTrace, h]

/-- Everything a step can do. -/
theorem step_cases (he : step s = .next t) :
    (nextItem s = none ∧ t = s) ∨ ∃ x, nextItem s = some x ∧ runItem x (setTrace s.trace.tail s) = .next t := by
  cases h : nextItem s with
  | none => rw [step_none h] at he; cases he; exact .inl ⟨rfl, rfl⟩
  | some x => exact .inr ⟨x, rfl, step_some h ▸ he⟩

end Sys2Proof.Machine
end

