-- ==== Sys2Proof/Laws/Checks.lean ====
section
/-! SUPPORT. The checks and the flags read the index registers and what is in progress only, so the updates of other
fields leave their answers alone. -/

namespace Sys2Proof.Machine

variable (s : State)

/-! `contract` -/

@[simp] theorem memWrite_contract (i : Nat) (v : Byte) : contract (memWrite i v s) = contract s := rfl
@[simp] theorem outWrite_contract (k : Nat) (v : Byte) : contract (outWrite k v s) = contract s := rfl
@[simp] theorem freshRegion_contract : contract (freshRegion s) = contract s := rfl
@[simp] theorem giveResult_contract (a : Agent) (r : Result) : contract (giveResult a r s) = contract s := rfl
@[simp] theorem setPOp_contract (o : POp) : contract (setPOp o s) = contract s := rfl
@[simp] theorem setKOp_contract (o : KOp) : contract (setKOp o s) = contract s := rfl
@[simp] theorem setTrace_contract (l : List TraceItem) : contract (setTrace l s) = contract s := rfl

/-! `emptySeen` -/

@[simp] theorem memWrite_emptySeen (g : Agent) (i : Nat) (v : Byte) : emptySeen g (memWrite i v s) = emptySeen g s := by
  simp [emptySeen]
@[simp] theorem outWrite_emptySeen (g : Agent) (k : Nat) (v : Byte) : emptySeen g (outWrite k v s) = emptySeen g s := by
  simp [emptySeen]
@[simp] theorem freshRegion_emptySeen (g : Agent) : emptySeen g (freshRegion s) = emptySeen g s := by simp [emptySeen]
@[simp] theorem giveResult_emptySeen (g : Agent) (a : Agent) (r : Result) : emptySeen g (giveResult a r s) = emptySeen g s := by
  simp [emptySeen]
@[simp] theorem setPOp_emptySeen (g : Agent) (o : POp) : emptySeen g (setPOp o s) = emptySeen g s := by
  simp [emptySeen]
@[simp] theorem setKOp_emptySeen (g : Agent) (o : KOp) : emptySeen g (setKOp o s) = emptySeen g s := by
  simp [emptySeen]
@[simp] theorem setTrace_emptySeen (g : Agent) (l : List TraceItem) : emptySeen g (setTrace l s) = emptySeen g s := by
  simp [emptySeen]

/-! `fullSeen` -/

@[simp] theorem memWrite_fullSeen (g : Agent) (i : Nat) (v : Byte) : fullSeen g (memWrite i v s) = fullSeen g s := by
  simp [fullSeen]
@[simp] theorem outWrite_fullSeen (g : Agent) (k : Nat) (v : Byte) : fullSeen g (outWrite k v s) = fullSeen g s := by
  simp [fullSeen]
@[simp] theorem freshRegion_fullSeen (g : Agent) : fullSeen g (freshRegion s) = fullSeen g s := by simp [fullSeen]
@[simp] theorem giveResult_fullSeen (g : Agent) (a : Agent) (r : Result) : fullSeen g (giveResult a r s) = fullSeen g s := by
  simp [fullSeen]
@[simp] theorem setPOp_fullSeen (g : Agent) (o : POp) : fullSeen g (setPOp o s) = fullSeen g s := by simp [fullSeen]
@[simp] theorem setKOp_fullSeen (g : Agent) (o : KOp) : fullSeen g (setKOp o s) = fullSeen g s := by simp [fullSeen]
@[simp] theorem setTrace_fullSeen (g : Agent) (l : List TraceItem) : fullSeen g (setTrace l s) = fullSeen g s := by
  simp [fullSeen]

/-! `cannotBegin` and `insidePush` -/

@[simp] theorem memWrite_cannotBegin (g : Agent) (i : Nat) (v : Byte) : cannotBegin g (memWrite i v s) = cannotBegin g s := rfl
@[simp] theorem outWrite_cannotBegin (g : Agent) (k : Nat) (v : Byte) : cannotBegin g (outWrite k v s) = cannotBegin g s := rfl
@[simp] theorem freshRegion_cannotBegin (g : Agent) : cannotBegin g (freshRegion s) = cannotBegin g s := rfl
@[simp] theorem giveResult_cannotBegin (g : Agent) (a : Agent) (r : Result) : cannotBegin g (giveResult a r s) = cannotBegin g s := rfl
@[simp] theorem setTrace_cannotBegin (g : Agent) (l : List TraceItem) : cannotBegin g (setTrace l s) = cannotBegin g s := rfl
@[simp] theorem memWrite_insidePush (g : Agent) (i : Nat) (v : Byte) : insidePush g (memWrite i v s) = insidePush g s :=
  rfl
@[simp] theorem outWrite_insidePush (g : Agent) (k : Nat) (v : Byte) : insidePush g (outWrite k v s) = insidePush g s :=
  rfl
@[simp] theorem freshRegion_insidePush (g : Agent) : insidePush g (freshRegion s) = insidePush g s := rfl
@[simp] theorem giveResult_insidePush (g : Agent) (a : Agent) (r : Result) : insidePush g (giveResult a r s) = insidePush g s :=
  rfl
@[simp] theorem setTrace_insidePush (g : Agent) (l : List TraceItem) : insidePush g (setTrace l s) = insidePush g s :=
  rfl
@[simp] theorem setKOp_insidePush (g : Agent) (o : KOp) : insidePush g (setKOp o s) = insidePush g s := rfl

@[simp] theorem setTrace_ready (a : Agent) (l : List TraceItem) : Ready a (setTrace l s) ↔ Ready a s := Iff.rfl
@[simp] theorem giveResult_ready (a b : Agent) (r : Result) : Ready a (giveResult b r s) ↔ Ready a s := Iff.rfl

/-- With no `PUSH` in progress, `K` is not inside one. -/
theorem insidePush_of_idle {s : State} (h : s.pOp = .idle) (a : Agent) : insidePush a s = false := by
  simp [insidePush, busy, h]

/-- In `SYNCED` mode `K` is never kept out of a `PUSH`. -/
theorem insidePush_of_synced {s : State} (h : s.mode = .SYNCED) (a : Agent) : insidePush a s = false := by
  simp [insidePush, h]

/-- `P` is ready when the contract holds and it has no `PUSH` in progress. -/
theorem ready_P {s : State} (hc : contract s = none) (hp : s.pOp = .idle) : Ready .P s :=
  ready_iff.mpr ⟨hc, by simp [hp], rfl⟩

/-- `K` is ready when the contract holds, it has nothing in progress and is not inside a `PUSH`. -/
theorem ready_K {s : State} (hc : contract s = none) (hk : s.kOp = .idle) (hi : insidePush .K s = false) : Ready .K s :=
  ready_iff.mpr ⟨hc, by simp [hk], hi⟩

/-- The contract goes on holding when the parameters and the views stay and the indices stay or advance. -/
theorem contract_of_advance {s t : State} (h : contract s = none) (h1 : t.C = s.C) (h2 : t.sync = s.sync)
    (h3 : t.head = s.head ∨ t.head = inc s.C s.head) (h4 : t.tail = s.tail ∨ t.tail = inc s.C s.tail) :
    contract t = none := by
  rw [contract_none] at *
  obtain ⟨hc, hr⟩ := h
  rw [indicesInRange_iff] at *
  rw [h1, h2]
  refine ⟨hc, ?_, ?_, hr.2.2⟩
  · rcases h3 with h | h <;> rw [h]
    · exact hr.1
    · exact inc_lt hc _
  · rcases h4 with h | h <;> rw [h]
    · exact hr.2.1
    · exact inc_lt hc _

@[simp] theorem contract_advanceTail {s : State} (b : Byte) (h : contract s = none) :
    contract (advanceTail b s) = none := contract_of_advance h rfl rfl (.inl rfl) (.inr rfl)

@[simp] theorem contract_advanceHead {s : State} (v : Byte) (h : contract s = none) :
    contract (advanceHead v s) = none := contract_of_advance h rfl rfl (.inr rfl) (.inl rfl)

end Sys2Proof.Machine
end

