-- ==== Sys2Proof/Laws/Encoding.lean ====
section
/-! SUPPORT. The fields of a packed command word (spec/30_encoding.md R54). -/

namespace Sys2Proof

/-- The agent bit as a number. -/
def agentBit : Agent → Nat
  | .P => 0
  | .K => 1

theorem packWord_toNat {op arg : Nat} {ag : Agent} (h : op < 8) :
    (packWord op ag arg).toNat = op * 8192 + agentBit ag * 4096 + arg % 4096 := by
  cases ag <;> simp [packWord, agentBit] <;> omega

theorem fieldOp_packWord {op arg : Nat} {ag : Agent} (h : op < 8) : fieldOp (packWord op ag arg) = op := by
  cases ag <;> simp [fieldOp, bitField, packWord_toNat h, agentBit] <;> omega

theorem fieldArg_packWord {op arg : Nat} {ag : Agent} (h : op < 8) : fieldArg (packWord op ag arg) = arg % 4096 := by
  cases ag <;> simp [fieldArg, bitField, packWord_toNat h, agentBit] <;> omega

theorem fieldAg_packWord {op arg : Nat} {ag : Agent} (h : op < 8) : fieldAg (packWord op ag arg) = ag := by
  cases ag <;> simp [fieldAg, bitField, packWord_toNat h, agentBit] <;> omega

/-- The three fields determine the word. -/
theorem packWord_fields (w : CmdWord) : packWord (fieldOp w) (fieldAg w) (fieldArg w) = w := by
  have hw := w.isLt
  apply BitVec.eq_of_toNat_eq
  rw [packWord_toNat (by simp [fieldOp, bitField]; omega)]
  by_cases h : bitField w.toNat 12 12 = 0 <;>
    simp [fieldAg, fieldOp, fieldArg, bitField, agentBit] at h ⊢ <;> simp [h] <;> omega

/-! Words under the masks of the opcode table (spec/30_encoding.md R61). -/

/-- A word under the mask of `READ_INTO`'s row. -/
theorem and_F000 (w : CmdWord) : (w &&& 0xF000#16).toNat = w.toNat / 4096 * 4096 := by
  have h : w &&& 0xF000#16 = (w >>> 12) <<< 12 := by
    ext i hi
    interval_cases i <;> simp
  have := w.isLt
  rw [h]
  simp [BitVec.toNat_shiftLeft, Nat.shiftLeft_eq, Nat.shiftRight_eq_div_pow]
  omega

/-- A word under the mask of `PUSH`'s row. -/
theorem and_FF00 (w : CmdWord) : (w &&& 0xFF00#16).toNat = w.toNat / 256 * 256 := by
  have h : w &&& 0xFF00#16 = (w >>> 8) <<< 8 := by
    ext i hi
    interval_cases i <;> simp
  have := w.isLt
  rw [h]
  simp [BitVec.toNat_shiftLeft, Nat.shiftLeft_eq, Nat.shiftRight_eq_div_pow]
  omega

/-- A word under the mask of the rows whose agent bit is free. -/
theorem and_EFFF (w : CmdWord) : (w &&& 0xEFFF#16).toNat = w.toNat / 8192 * 8192 + w.toNat % 4096 := by
  have h : w &&& 0xEFFF#16 = ((w >>> 13) <<< 13) ||| ((w <<< 4) >>> 4) := by
    ext i hi
    interval_cases i <;> simp
  have hd : ((w >>> 13) <<< 13) &&& ((w <<< 4) >>> 4) = 0#16 := by
    ext i hi
    interval_cases i <;> simp
  have := w.isLt
  rw [h, ← BitVec.add_eq_or_of_and_eq_zero _ _ hd, BitVec.toNat_add]
  simp [BitVec.toNat_shiftLeft, Nat.shiftLeft_eq, Nat.shiftRight_eq_div_pow]
  omega

end Sys2Proof
end

