-- ==== Sys2Proof/Laws/Good.lean ====
section
/-! SUPPORT. What the invariant says about the flags and about the slot at `head`, and that the pieces which the
micro-steps are made of keep it. -/

namespace Sys2Proof.Machine

variable {s t : State}

/-- The invariant speaks of the block, of what is in progress, of the region and of the ghosts; it holds of every state
that agrees on these. -/
theorem Good.of_same (h : Good s) (hC : t.C = s.C) (hsync : t.sync = s.sync) (hhead : t.head = s.head)
    (htail : t.tail = s.tail) (hst : t.storage = s.storage) (hp : t.pOp = s.pOp) (hk : t.kOp = s.kOp)
    (hout : t.out = s.out) (hg : t.ghost = s.ghost) : Good t := by
  cases s; cases t
  simp only at hC hsync hhead htail hst hp hk hout hg
  subst hC hsync hhead htail hst hp hk hout hg
  exact ⟨h.1, h.2, h.3, h.4, h.5, h.6, h.7, h.8, h.9, h.10, h.11, h.12, h.13, h.14, h.15, h.16⟩

theorem Good.giveResult (h : Good s) (a : Agent) (r : Result) : Good (giveResult a r s) :=
  h.of_same rfl rfl rfl rfl rfl rfl rfl rfl rfl

theorem Good.setTrace (h : Good s) (l : List TraceItem) : Good (setTrace l s) :=
  h.of_same rfl rfl rfl rfl rfl rfl rfl rfl rfl

theorem Good.pos (h : Good s) : 0 < s.C := by have := h.capacity; omega

theorem Good.head_lt (h : Good s) : s.head < s.C := by rw [h.head_eq]; exact Nat.mod_lt _ h.pos

theorem Good.tail_lt (h : Good s) : s.tail < s.C := by rw [h.tail_eq]; exact Nat.mod_lt _ h.pos

/-- In a good state the contract holds, so no step is refused for the block's sake. -/
theorem Good.contract (h : Good s) : contract s = none := by
  refine contract_none.mpr ⟨h.capacity, indicesInRange_iff.mpr ⟨h.head_lt, h.tail_lt, ?_⟩⟩
  have hv := h.views
  unfold viewsAgree at hv
  split <;> simp_all [Nat.mod_lt _ h.pos]

/-- The producer's view of `head` is the index of `HV`. -/
theorem Good.obs_P_head (h : Good s) : obs .P .head s = s.ghost.HV % s.C := by
  have hv := h.views
  unfold viewsAgree at hv
  unfold obs
  cases hs : s.sync <;> simp_all [h.head_eq]

/-- The consumer's view of `tail` is the index of `TV`. -/
theorem Good.obs_K_tail (h : Good s) : obs .K .tail s = s.ghost.TV % s.C := by
  have hv := h.views
  unfold viewsAgree at hv
  unfold obs
  cases hs : s.sync <;> simp_all [h.tail_eq]

/-- `K` sees "empty" exactly when it has popped all it has seen pushed. -/
theorem Good.emptySeen_K (h : Good s) : emptySeen .K s = true ↔ s.ghost.PO = s.ghost.TV := by
  rw [emptySeen_iff, h.obs_K_tail, obs_K_head, h.head_eq]
  have := h.hv_le_po; have := h.tv_le_pu; have := h.pu_le; have := h.po_le_tv
  exact ⟨fun e => eq_of_mod_eq (by omega) (by omega) e, fun e => by rw [e]⟩

theorem Good.emptySeen_K_false (h : Good s) : emptySeen .K s = false ↔ s.ghost.PO < s.ghost.TV := by
  have := h.emptySeen_K
  have := h.po_le_tv
  cases hb : Machine.emptySeen .K s <;> simp_all
  omega

/-- `P` sees "empty" exactly when it has seen as many pops as it has pushed. -/
theorem Good.emptySeen_P (h : Good s) : emptySeen .P s = true ↔ s.ghost.PU = s.ghost.HV := by
  rw [emptySeen_iff, h.obs_P_head, obs_P_tail, h.tail_eq]
  have := h.hv_le_po; have := h.tv_le_pu; have := h.pu_le; have := h.po_le_tv
  exact ⟨fun e => (eq_of_mod_eq (by omega) (by omega) e).symm, fun e => by rw [e]⟩

/-- `P` sees "full" exactly when `PU` is `C - 1` ahead of `HV`. -/
theorem Good.fullSeen_P (h : Good s) : fullSeen .P s = true ↔ s.ghost.PU + 1 = s.ghost.HV + s.C := by
  rw [fullSeen_iff, h.obs_P_head, obs_P_tail, h.tail_eq, inc_mod]
  have := h.hv_le_po; have := h.tv_le_pu; have := h.pu_le; have := h.po_le_tv
  constructor
  · intro e
    by_cases hlt : s.ghost.PU + 1 < s.ghost.HV + s.C
    · have := eq_of_mod_eq (by omega) hlt e.symm
      omega
    · omega
  · intro e
    rw [e, Nat.add_mod_right]

theorem Good.fullSeen_P_false (h : Good s) : fullSeen .P s = false ↔ s.ghost.PU + 2 ≤ s.ghost.HV + s.C := by
  have := h.fullSeen_P
  have := h.pu_le
  cases hb : Machine.fullSeen .P s <;> simp_all <;> omega

/-- `K` sees "full" exactly when `TV` is `C - 1` ahead of `PO`. -/
theorem Good.fullSeen_K (h : Good s) : fullSeen .K s = true ↔ s.ghost.TV + 1 = s.ghost.PO + s.C := by
  rw [fullSeen_iff, h.obs_K_tail, obs_K_head, h.head_eq, inc_mod]
  have := h.hv_le_po; have := h.tv_le_pu; have := h.pu_le; have := h.po_le_tv
  constructor
  · intro e
    by_cases hlt : s.ghost.TV + 1 < s.ghost.PO + s.C
    · have := eq_of_mod_eq (by omega) hlt e.symm
      omega
    · omega
  · intro e
    rw [e, Nat.add_mod_right]

/-- The occupancy is `PU - PO`. -/
theorem Good.occupancy (h : Good s) : occupancy s = s.ghost.PU - s.ghost.PO := by
  have := h.hv_le_po; have := h.tv_le_pu; have := h.pu_le; have := h.po_le_tv
  unfold Machine.occupancy
  rw [h.head_eq, h.tail_eq]
  exact dist_mod h.pos (by omega) (by omega)

/-- The slot at `head` holds the oldest byte not yet popped. -/
theorem Good.read_head (h : Good s) (hlt : s.ghost.PO < s.ghost.TV) :
    ∃ v, Memory.read s.storage s.head = some v ∧ s.ghost.IN[s.ghost.PO]? = some v := by
  have := h.tv_le_pu
  have hd := h.data s.ghost.PO (by omega) (Nat.le_refl _)
  have hl : s.ghost.PO < s.ghost.IN.length := by rw [h.in_length]; omega
  rw [h.head_eq, hd]
  exact ⟨_, List.getElem?_eq_getElem hl, List.getElem?_eq_getElem hl⟩

/-- P2 keeps the invariant: the slot `tail` is outside the occupied range. -/
theorem Good.write_tail (h : Good s) (b : Byte) (hC : t.C = s.C) (hsync : t.sync = s.sync)
    (hhead : t.head = s.head) (htail : t.tail = s.tail) (hst : t.storage = Memory.write s.storage s.tail b)
    (hk : t.kOp = s.kOp) (hout : t.out = s.out) (hg : t.ghost = s.ghost) (hp : pushInProgressOk t) : Good t where
  capacity := by rw [hC]; exact h.capacity
  tail_eq := by rw [htail, hg, hC]; exact h.tail_eq
  head_eq := by rw [hhead, hg, hC]; exact h.head_eq
  views := by have := h.views; unfold viewsAgree at *; rw [hsync, hg, hC]; exact this
  hv_le_po := by rw [hg]; exact h.hv_le_po
  po_le_tv := by rw [hg]; exact h.po_le_tv
  tv_le_pu := by rw [hg]; exact h.tv_le_pu
  pu_le := by rw [hg, hC]; exact h.pu_le
  in_length := by rw [hg]; exact h.in_length
  fifo := by rw [hg]; exact h.fifo
  data := by
    rw [hg, hC, hst]
    intro j hj hle
    have := h.hv_le_po; have := h.pu_le
    rw [read_write_other, h.data j hj hle]
    rw [h.tail_eq]
    intro e
    have := eq_of_mod_eq (by omega) (by omega) e
    omega
  storage_wf := by rw [hst]; exact write_wf h.storage_wf _ _
  storage_slots := by rw [hst, hC]; exact write_slots h.storage_slots h.tail_lt
  out_wf := by rw [hout]; exact h.out_wf
  push_ok := hp
  consumer_ok := by
    have := h.consumer_ok
    unfold consumerInProgressOk readInProgressOk popInProgressOk at *
    rw [hk, hg, hout]; exact this

/-- P3 keeps the invariant: `P` saw a free slot and the slot `tail` holds the byte. -/
theorem Good.advance_tail (h : Good s) {b : Byte} (hroom : s.ghost.PU + 2 ≤ s.ghost.HV + s.C)
    (hb : Memory.read s.storage s.tail = some b) (hC : t.C = s.C) (hsync : t.sync = s.sync)
    (hhead : t.head = s.head) (htail : t.tail = inc s.C s.tail) (hst : t.storage = s.storage)
    (hk : t.kOp = s.kOp) (hout : t.out = s.out) (hg : t.ghost = s.ghost.pushed s.mode b)
    (hp : t.pOp = .idle) : Good t := by
  have hTV : s.ghost.TV ≤ t.ghost.TV ∧ t.ghost.TV ≤ s.ghost.PU + 1 := by
    have := h.tv_le_pu
    rw [hg]; unfold Ghost.pushed
    cases s.mode <;> simp <;> omega
  have := h.hv_le_po; have := h.po_le_tv
  exact
  { capacity := by rw [hC]; exact h.capacity
    tail_eq := by rw [htail, hg, hC, h.tail_eq, inc_mod]; rfl
    head_eq := by rw [hhead, hg, hC, h.head_eq]; rfl
    views := by
      have hv := h.views
      unfold viewsAgree at *
      rw [hsync, hg, hC]
      unfold State.mode
      cases hs : s.sync <;> simp_all
    hv_le_po := by rw [hg]; exact h.hv_le_po
    po_le_tv := by simp only [hg] at hTV ⊢; simp; omega
    tv_le_pu := by simp only [hg] at hTV ⊢; simp; omega
    pu_le := by rw [hg, hC]; simp; omega
    in_length := by rw [hg]; simp [h.in_length]
    fifo := by
      have hle : s.ghost.PO ≤ s.ghost.IN.length := by rw [h.in_length]; have := h.tv_le_pu; omega
      rw [hg]
      simp [h.fifo, List.take_append_of_le_length hle]
    data := by
      rw [hg, hC, hst]
      simp only [Ghost_pushed_PU, Ghost_pushed_PO, Ghost_pushed_IN]
      intro j hj hle
      by_cases e : j = s.ghost.PU
      · subst e
        rw [← h.tail_eq, hb, ← h.in_length]; simp
      · rw [h.data j (by omega) hle, List.getElem?_append_left (by rw [h.in_length]; omega)]
    storage_wf := by rw [hst]; exact h.storage_wf
    storage_slots := by rw [hst, hC]; exact h.storage_slots
    out_wf := by rw [hout]; exact h.out_wf
    push_ok := by simp [pushInProgressOk, hp]
    consumer_ok := by
      have hc := h.consumer_ok
      have hlen := h.in_length
      have htv := h.tv_le_pu
      have hget : s.ghost.PO < s.ghost.TV → t.ghost.IN[s.ghost.PO]? = s.ghost.IN[s.ghost.PO]? := by
        intro hlt
        rw [hg]; simp only [Ghost_pushed_IN]
        exact List.getElem?_append_left (by omega)
      unfold consumerInProgressOk readInProgressOk popInProgressOk at *
      have e1 : t.ghost.PO = s.ghost.PO := by rw [hg]; rfl
      have e2 : t.ghost.popped = s.ghost.popped := by rw [hg]; rfl
      rw [hk]
      simp only [e1, e2, hout]
      split at hc
      · trivial
      · split at hc
        · exact Nat.lt_of_lt_of_le hc hTV.1
        · exact ⟨Nat.lt_of_lt_of_le hc.1 hTV.1, by rw [hget hc.1]; exact hc.2⟩
      · exact hc
      · refine ⟨hc.1, ?_⟩
        have hc := hc.2
        split at hc
        · exact Nat.lt_of_lt_of_le hc hTV.1
        · exact ⟨Nat.lt_of_lt_of_le hc.1 hTV.1, by rw [hget hc.1]; exact hc.2⟩
      · trivial
      · split at hc
        · exact Nat.lt_of_lt_of_le hc hTV.1
        · exact ⟨Nat.lt_of_lt_of_le hc.1 hTV.1, by rw [hget hc.1]; exact hc.2⟩ }

/-- K3 keeps the invariant: `K` saw a byte, and `v` is the oldest one not yet popped. -/
theorem Good.advance_head (h : Good s) {v : Byte} (hlt : s.ghost.PO < s.ghost.TV)
    (hv : s.ghost.IN[s.ghost.PO]? = some v) (hC : t.C = s.C) (hsync : t.sync = s.sync)
    (hhead : t.head = inc s.C s.head) (htail : t.tail = s.tail) (hst : t.storage = s.storage)
    (hp : t.pOp = s.pOp) (hg : t.ghost = s.ghost.popTaken s.mode v)
    (hout : Memory.wf t.out) (hk : consumerInProgressOk t) : Good t := by
  have hHV : s.ghost.HV ≤ t.ghost.HV ∧ t.ghost.HV ≤ s.ghost.PO + 1 := by
    have := h.hv_le_po
    rw [hg]; unfold Ghost.popTaken
    cases s.mode <;> simp <;> omega
  exact
  { capacity := by rw [hC]; exact h.capacity
    tail_eq := by rw [htail, hg, hC, h.tail_eq]; rfl
    head_eq := by rw [hhead, hg, hC, h.head_eq, inc_mod]; rfl
    views := by
      have hv := h.views
      unfold viewsAgree at *
      rw [hsync, hg, hC]
      unfold State.mode
      cases hs : s.sync <;> simp_all
    hv_le_po := by simp only [hg] at hHV ⊢; simp; omega
    po_le_tv := by rw [hg]; simp; omega
    tv_le_pu := by rw [hg]; exact h.tv_le_pu
    pu_le := by
      have := h.pu_le
      rw [hC]; simp only [hg] at hHV ⊢; simp; omega
    in_length := by rw [hg]; exact h.in_length
    fifo := by
      rw [hg]
      simp only [Ghost_popTaken_popped, Ghost_popTaken_IN, Ghost_popTaken_PO]
      rw [h.fifo, List.take_add_one, hv]; rfl
    data := by
      rw [hg, hC, hst]
      intro j hj hle
      exact h.data j hj (by simp at hle; omega)
    storage_wf := by rw [hst]; exact h.storage_wf
    storage_slots := by rw [hst, hC]; exact h.storage_slots
    out_wf := hout
    push_ok := by
      have hq := h.push_ok
      unfold pushInProgressOk at *
      have e : t.ghost.PU = s.ghost.PU := by rw [hg]; rfl
      rw [hp, e, hC, hst, htail]
      split at hq
      · trivial
      · omega
      · exact ⟨by omega, hq.2⟩
    consumer_ok := hk }

/-- A change of what `K` holds or of the output region keeps the invariant when what `K` holds is right. -/
theorem Good.set_consumer (h : Good s) (hC : t.C = s.C) (hsync : t.sync = s.sync) (hhead : t.head = s.head)
    (htail : t.tail = s.tail) (hst : t.storage = s.storage) (hp : t.pOp = s.pOp) (hg : t.ghost = s.ghost)
    (hout : Memory.wf t.out) (hk : consumerInProgressOk t) : Good t where
  capacity := by rw [hC]; exact h.capacity
  tail_eq := by rw [htail, hg, hC]; exact h.tail_eq
  head_eq := by rw [hhead, hg, hC]; exact h.head_eq
  views := by have := h.views; unfold viewsAgree at *; rw [hsync, hg, hC]; exact this
  hv_le_po := by rw [hg]; exact h.hv_le_po
  po_le_tv := by rw [hg]; exact h.po_le_tv
  tv_le_pu := by rw [hg]; exact h.tv_le_pu
  pu_le := by rw [hg, hC]; exact h.pu_le
  in_length := by rw [hg]; exact h.in_length
  fifo := by rw [hg]; exact h.fifo
  data := by rw [hg, hC, hst]; exact h.data
  storage_wf := by rw [hst]; exact h.storage_wf
  storage_slots := by rw [hst, hC]; exact h.storage_slots
  out_wf := hout
  push_ok := by have := h.push_ok; unfold pushInProgressOk at *; rw [hp, hg, hC, hst, htail]; exact this
  consumer_ok := hk

end Sys2Proof.Machine
end

