-- ==== Sys2Proof/Laws/Schedule.lean ====
section
/-! SUPPORT. What each operation answers, and what each entry of the trace does, as one equation a case and one
inversion lemma an operation. -/

namespace Sys2Proof.Machine

variable {s t : State} {rest : List TraceItem}

/-! The operations. -/

theorem exec_push (b : Byte) (hr : Ready .P s) : exec (.push b) s = .next (pushWhole b s) := by
  simp [exec, execPush, hr]

theorem pushWhole_full {b : Byte} (h : fullSeen .P s = true) : pushWhole b s = pushReject s := by
  simp [pushWhole, h]

theorem pushWhole_room {b : Byte} (h : fullSeen .P s = false) : pushWhole b s = pushAdvance b (pushWrite b s) := by
  simp [pushWhole, h]

/-- Everything a `PUSH` can do. -/
theorem exec_push_cases {b : Byte} (he : exec (.push b) s = .next t) :
    Ready .P s ∧ ((fullSeen .P s = true ∧ t = pushReject s) ∨
      (fullSeen .P s = false ∧ t = pushAdvance b (pushWrite b s))) := by
  simp only [exec, execPush, unlessRefused_next] at he
  obtain ⟨hr, he⟩ := he
  cases he
  refine ⟨hr, ?_⟩
  cases h : fullSeen .P s
  · exact .inr ⟨rfl, pushWhole_room h⟩
  · exact .inl ⟨rfl, pushWhole_full h⟩

theorem exec_pop_empty (hr : Ready .K s) (h : emptySeen .K s = true) :
    exec .pop s = .next (giveResult .K (.pop none) s) := by
  simp [exec, execPop, hr, popWhole, popOnce_empty h]

theorem exec_pop_some {v : Byte} (hr : Ready .K s) (h : emptySeen .K s = false)
    (hv : Memory.read s.storage s.head = some v) :
    exec .pop s = .next (giveResult .K (.pop (some v)) (advanceHead v s)) := by
  simp [exec, execPop, hr, popWhole, popOnce_some h hv]

/-- Everything a `POP` can do when it does not fault. -/
theorem exec_pop_cases (he : exec .pop s = .next t) :
    Ready .K s ∧ ((emptySeen .K s = true ∧ t = giveResult .K (.pop none) s) ∨
      ∃ v, emptySeen .K s = false ∧ Memory.read s.storage s.head = some v ∧
        t = giveResult .K (.pop (some v)) (advanceHead v s)) := by
  simp only [exec, execPop, unlessRefused_next, ofExcept_next] at he
  obtain ⟨hr, he⟩ := he
  refine ⟨hr, ?_⟩
  unfold popWhole at he
  split at he <;> cases he
  rename_i hp
  rcases popOnce_cases hp with ⟨g1, rfl, rfl⟩ | ⟨v, g1, g2, rfl, rfl⟩
  · exact .inl ⟨g1, rfl⟩
  · exact .inr ⟨v, g1, g2, rfl⟩

/-- The region that the loop of a whole `READ_INTO` leaves: the bytes delivered, at offsets 0 up. -/
@[simp] theorem deliver_fresh_out (vs : List Byte) (s : State) :
    (deliver vs 0 (freshRegion s)).out = regionOf vs := by
  simpa using deliver_out vs 0 (freshRegion s) (bs := []) rfl rfl

/-- Everything a `READ_INTO` can do when it does not fault. -/
theorem exec_readInto_cases {n : Nat} (he : exec (.readInto n) s = .next t) :
    Ready .K s ∧ n ≤ s.regionLen ∧
      ∃ vs, vs.length ≤ n ∧ t = readFinish vs.length (deliver vs 0 (freshRegion s)) ∧
        (vs.length < n → emptySeen .K (deliver vs 0 (freshRegion s)) = true) := by
  simp only [exec, execReadInto, unlessRefused_next, ofExcept_next] at he
  obtain ⟨hr, hn, he⟩ := he
  refine ⟨hr, ?_, ?_⟩
  · unfold regionCheck at hn
    split at hn
    · assumption
    · cases hn
  · simpa using readLoop_cases he

theorem exec_readInto {n : Nat} (hr : Ready .K s) (hn : n ≤ s.regionLen) :
    exec (.readInto n) s = ofExcept (readLoop n 0 (freshRegion s)) := by
  simp [exec, execReadInto, hr, regionCheck, hn]

/-! The entries of the trace. -/

theorem setTrace_tail_nil (ht : s.trace = []) : setTrace s.trace.tail s = s := by
  cases s; simp_all [setTrace]

/-- Past the end of the trace, a `PUSH` in progress goes on. -/
theorem step_nil_P (ht : s.trace = []) (hp : s.pOp ≠ .idle) : step s = microStep .P s := by
  rw [step_some (nextItem_nil_P ht hp), setTrace_tail_nil ht]; rfl

/-- Past the end of the trace, with `P` at rest, what `K` has in progress goes on. -/
theorem step_nil_K (ht : s.trace = []) (hp : s.pOp = .idle) (hk : s.kOp ≠ .idle) : step s = microStep .K s := by
  rw [step_some (nextItem_nil_K ht hp hk), setTrace_tail_nil ht]; rfl

/-- When the run is over nothing changes. -/
theorem step_over (ht : s.trace = []) (hp : s.pOp = .idle) (hk : s.kOp = .idle) : step s = .next s :=
  step_none (nextItem_none.mpr ⟨ht, hp, hk⟩)

theorem stepTrace_command {w : CmdWord} {i : Instr} (hd : decode w = .ok i) (ht : s.trace = .command w :: rest) :
    stepTrace s = exec i (setTrace rest s) := by
  rw [show stepTrace s = _ from step_cons ht]; simp only [runItem, runCommand, hd]

theorem stepTrace_start {w : CmdWord} {i : Instr} (hd : decode w = .ok i) (ht : s.trace = .start w :: rest) :
    stepTrace s = beginOp i (setTrace rest s) := by
  rw [show stepTrace s = _ from step_cons ht]; simp only [runItem, startCommand, hd]

theorem stepTrace_micro {a : Agent} (ht : s.trace = .micro a :: rest) :
    stepTrace s = microStep a (setTrace rest s) := by
  rw [show stepTrace s = _ from step_cons ht]; simp only [runItem]

theorem beginOp_push_full (b : Byte) (hr : Ready .P s) (hf : fullSeen .P s = true) :
    beginOp (.push b) s = .next (pushReject s) := by
  simp [beginOp, hr, pushBegin, hf]

/-- P1 with room. -/
theorem beginOp_push_room (b : Byte) (hr : Ready .P s) (hf : fullSeen .P s = false) :
    beginOp (.push b) s = .next (setPOp (.afterP1 b (obs .P .head s)) s) := by
  simp [beginOp, hr, pushBegin, hf]

theorem beginOp_pop_empty (hr : Ready .K s) (he : emptySeen .K s = true) :
    beginOp .pop s = .next (giveResult .K (.pop none) s) := by
  simp [beginOp, hr, popBegin, he]

/-- K1 with a byte. -/
theorem beginOp_pop_some (hr : Ready .K s) (he : emptySeen .K s = false) :
    beginOp .pop s = .next (setKOp (.pop (.afterK1 (obs .K .tail s))) s) := by
  simp [beginOp, hr, popBegin, he]

/-- P2. -/
theorem microStep_P2 {b : Byte} {h : Nat} (hc : contract s = none) (hp : s.pOp = .afterP1 b h) :
    microStep .P s = .next (setPOp (.afterP2 b h) (pushWrite b s)) := by
  have : cannotContinue .P s = none := cannotContinue_none.mpr ⟨hc, by simp [busy, hp], rfl⟩
  simp [microStep, this, pushContinue, hp]

/-- P3. -/
theorem microStep_P3 {b : Byte} {h : Nat} (hc : contract s = none) (hp : s.pOp = .afterP2 b h) :
    microStep .P s = .next (setPOp .idle (pushAdvance b s)) := by
  have : cannotContinue .P s = none := cannotContinue_none.mpr ⟨hc, by simp [busy, hp], rfl⟩
  simp [microStep, this, pushContinue, hp]

/-- The next micro-step of a `POP` in progress. -/
theorem microStep_pop {p : PopOp} (hc : contract s = none) (hi : insidePush .K s = false) (hp : s.kOp = .pop p) :
    microStep .K s = ofExcept (popContinue p s) := by
  have : cannotContinue .K s = none := cannotContinue_none.mpr ⟨hc, by simp [busy, hp], hi⟩
  simp [microStep, this, hp]

/-- The next micro-step of a `READ_INTO` in progress. -/
theorem microStep_readInto {n c : Nat} {p : Option PopOp} (hc : contract s = none) (hi : insidePush .K s = false)
    (hp : s.kOp = .readInto n c p) : microStep .K s = ofExcept (readContinue n c p s) := by
  have : cannotContinue .K s = none := cannotContinue_none.mpr ⟨hc, by simp [busy, hp], hi⟩
  simp [microStep, this, hp]

/-- The next micro-step of a drain in progress. -/
theorem microStep_drain {p : Option PopOp} (hc : contract s = none) (hi : insidePush .K s = false)
    (hp : s.kOp = .drain p) : microStep .K s = ofExcept (drainContinue p s) := by
  have : cannotContinue .K s = none := cannotContinue_none.mpr ⟨hc, by simp [busy, hp], hi⟩
  simp [microStep, this, hp]

/-- K1 of a drain that finds the ring empty: the last `POP`. -/
theorem drainK1_empty (h : emptySeen .K s = true) : drainK1 s = giveResult .K (.pop none) (setKOp .idle s) := by
  simp [drainK1, h]

/-- K1 of a drain with a byte. -/
theorem drainK1_some (h : emptySeen .K s = false) :
    drainK1 s = setKOp (.drain (some (.afterK1 (obs .K .tail s)))) s := by
  simp [drainK1, h]

/-- Everything the next micro-step of a drain can do when it does not fault. -/
theorem drainContinue_cases {p : Option PopOp} (he : drainContinue p s = .ok t) :
    (p = none ∧ t = drainK1 s) ∨
      (∃ x v, p = some (.afterK1 x) ∧ Memory.read s.storage s.head = some v ∧
        t = setKOp (.drain (some (.afterK2 x v))) s) ∨
      (∃ x v, p = some (.afterK2 x v) ∧
        t = giveResult .K (.pop (some v)) (setKOp (.drain none) (advanceHead v s))) := by
  unfold drainContinue at he
  split at he
  · cases he; exact .inl ⟨rfl, rfl⟩
  · split at he <;> cases he
    exact .inr (.inl ⟨_, _, rfl, memRead_ok.mp ‹_›, rfl⟩)
  · cases he; exact .inr (.inr ⟨_, _, rfl, rfl⟩)

/-- Everything the next micro-step of `K` can do. -/
theorem microStep_K_cases (he : microStep .K s = .next t) :
    (∃ p, s.kOp = .pop p ∧ popContinue p s = .ok t) ∨
      (∃ n c p, s.kOp = .readInto n c p ∧ readContinue n c p s = .ok t) ∨
      (∃ p, s.kOp = .drain p ∧ drainContinue p s = .ok t) := by
  unfold microStep at he
  obtain ⟨-, he⟩ := unlessRefused_next.mp he
  simp only at he
  split at he
  · cases he
  · exact .inl ⟨_, ‹_›, ofExcept_next.mp he⟩
  · exact .inr (.inl ⟨_, _, _, ‹_›, ofExcept_next.mp he⟩)
  · exact .inr (.inr ⟨_, ‹_›, ofExcept_next.mp he⟩)

/-- K2. -/
theorem microStep_K2 {x : Nat} {v : Byte} (hc : contract s = none) (hi : insidePush .K s = false)
    (hp : s.kOp = .pop (.afterK1 x)) (hv : Memory.read s.storage s.head = some v) :
    microStep .K s = .next (setKOp (.pop (.afterK2 x v)) s) := by
  rw [microStep_pop hc hi hp]
  simp [popContinue, memRead, hv]

/-- K3. -/
theorem microStep_K3 {x : Nat} {v : Byte} (hc : contract s = none) (hi : insidePush .K s = false)
    (hp : s.kOp = .pop (.afterK2 x v)) :
    microStep .K s = .next (giveResult .K (.pop (some v)) (setKOp .idle (advanceHead v s))) := by
  rw [microStep_pop hc hi hp]
  simp [popContinue]

theorem syncTail_synced {k hv tv : Nat} (hc : contract s = none) (hs : s.sync = .synced hv tv)
    (hk : k ≤ dist s.C tv s.tail) : syncTail k s = .next (moveTailView hv tv k s) := by
  simp [syncTail, hc, hs, hk]

theorem syncHead_synced {k hv tv : Nat} (hc : contract s = none) (hs : s.sync = .synced hv tv)
    (hk : k ≤ dist s.C hv s.head) : syncHead k s = .next (moveHeadView hv tv k s) := by
  simp [syncHead, hc, hs, hk]

/-- Everything `SYNC_TAIL` can do. -/
theorem syncTail_cases {k : Nat} (he : syncTail k s = .next t) :
    ∃ hv tv, s.sync = .synced hv tv ∧ k ≤ dist s.C tv s.tail ∧ t = moveTailView hv tv k s := by
  unfold syncTail at he
  obtain ⟨-, he⟩ := unlessRefused_next.mp he
  split at he
  · cases he
  · split at he
    · cases he; exact ⟨_, _, ‹_›, ‹_›, rfl⟩
    · cases he

/-- Everything `SYNC_HEAD` can do. -/
theorem syncHead_cases {k : Nat} (he : syncHead k s = .next t) :
    ∃ hv tv, s.sync = .synced hv tv ∧ k ≤ dist s.C hv s.head ∧ t = moveHeadView hv tv k s := by
  unfold syncHead at he
  obtain ⟨-, he⟩ := unlessRefused_next.mp he
  split at he
  · cases he
  · split at he
    · cases he; exact ⟨_, _, ‹_›, ‹_›, rfl⟩
    · cases he

/-! Several steps. -/

theorem steps_next {k : Nat} (h : stepTrace s = .next t) : steps (k + 1) s = steps k t := by
  simp [steps, h]

@[simp] theorem steps_zero (s : State) : steps 0 s = .next s := rfl

end Sys2Proof.Machine
end

