-- ==== Sys2Proof/Laws/Invariant.lean ====
section
/-! SUPPORT. Each operation and each micro-step keeps the invariant `Good`; what the lags, the occupied slots and the
loop of `READ_INTO` are in a good state. -/

namespace Sys2Proof.Machine

variable {s t : State}

/-- The lag of the head the producer sees is `PO - HV` (10_state.md R27). -/
theorem Good.head_lag (h : Good s) : dist s.C (obs .P .head s) s.head = s.ghost.PO - s.ghost.HV := by
  have := h.hv_le_po; have := h.po_le_tv; have := h.tv_le_pu; have := h.pu_le
  rw [h.obs_P_head, h.head_eq, dist_mod h.pos (by omega) (by omega)]

/-- The lag of the tail the consumer sees is `PU - TV`. -/
theorem Good.tail_lag (h : Good s) : dist s.C (obs .K .tail s) s.tail = s.ghost.PU - s.ghost.TV := by
  have := h.hv_le_po; have := h.po_le_tv; have := h.tv_le_pu; have := h.pu_le
  rw [h.obs_K_tail, h.tail_eq, dist_mod h.pos (by omega) (by omega)]

/-- The number of bytes the consumer sees is `TV - PO`. -/
theorem Good.seen_count (h : Good s) : dist s.C s.head (obs .K .tail s) = s.ghost.TV - s.ghost.PO := by
  have := h.hv_le_po; have := h.po_le_tv; have := h.tv_le_pu; have := h.pu_le
  rw [h.obs_K_tail, h.head_eq, dist_mod h.pos (by omega) (by omega)]


/-- The occupied slots hold the accepted bytes not yet popped, in order (10_state.md R28). -/
theorem Good.contents_eq (h : Good s) : Machine.contents s = (s.ghost.IN.drop s.ghost.PO).map some := by
  have := h.hv_le_po; have := h.po_le_tv; have := h.tv_le_pu; have := h.pu_le; have hl := h.in_length
  apply List.ext_getElem
  · simp [contents, occupiedSlots, h.occupancy, hl]
  · intro k h1 h2
    simp [contents, occupiedSlots, h.occupancy] at h1 ⊢
    rw [h.head_eq, advanceBy_mod, h.data _ (by omega) (by omega), List.getElem?_eq_getElem (by omega)]

/-- A whole `PUSH` keeps the invariant. -/
theorem good_pushWhole (h : Good s) (hp : s.pOp = .idle) (b : Byte) : Good (pushWhole b s) := by
  unfold pushWhole
  split
  · exact h.giveResult _ _
  · rename_i hf
    have hroom := h.fullSeen_P_false.mp (by simpa using hf)
    refine Good.giveResult ?_ _ _
    have h2 : Good (pushWrite b s) := by
      refine h.write_tail b rfl rfl rfl rfl rfl rfl rfl rfl ?_
      simp [pushInProgressOk, pushWrite, hp]
    refine h2.advance_tail (b := b) ?_ ?_ rfl rfl rfl rfl rfl rfl rfl rfl ?_
    · simpa [pushWrite] using hroom
    · simp [pushWrite]
    · simpa [pushWrite] using hp

/-- P1 keeps it. -/
theorem good_pushBegin (h : Good s) (b : Byte) : Good (pushBegin b s) := by
  unfold pushBegin
  split
  · exact h.giveResult _ _
  · rename_i hf
    have hroom := h.fullSeen_P_false.mp (by simpa using hf)
    obtain ⟨h1, h2, h3, h4, h5, h6, h7, h8, h9, h10, h11, h12, h13, h14, h15, h16⟩ := h
    exact ⟨h1, h2, h3, h4, h5, h6, h7, h8, h9, h10, h11, h12, h13, h14, by simpa [pushInProgressOk] using hroom, h16⟩

/-- P2 and P3 keep it. -/
theorem good_pushContinue (h : Good s) : Good (pushContinue s) := by
  unfold pushContinue
  have hp := h.push_ok
  unfold pushInProgressOk at hp
  split
  · exact h
  · rename_i b x e
    rw [e] at hp
    refine h.write_tail b rfl rfl rfl rfl rfl rfl rfl rfl ?_
    simp [pushInProgressOk, pushWrite]; exact hp
  · rename_i b x e
    rw [e] at hp
    have ht : Good (advanceTail b (setPOp .idle s)) :=
      h.advance_tail hp.1 hp.2 rfl rfl rfl rfl rfl rfl rfl rfl rfl
    exact ht.of_same rfl rfl rfl rfl rfl rfl rfl rfl rfl

/-- One pop of the byte at `head`, with nothing of `K` in progress, keeps it. -/
theorem good_take (h : Good s) (hk : s.kOp = .idle) {v : Byte} (he : emptySeen .K s = false)
    (hv : Memory.read s.storage s.head = some v) : Good (advanceHead v s) := by
  have hlt := h.emptySeen_K_false.mp he
  obtain ⟨w, hw, hi⟩ := h.read_head hlt
  rw [hv] at hw; cases hw
  exact h.advance_head hlt hi rfl rfl rfl rfl rfl rfl rfl h.out_wf (by simp [consumerInProgressOk, hk])

/-- With nothing of `K` in progress the output region may be any memory in canonical form. -/
theorem good_out (h : Good s) (hk : s.kOp = .idle) {o : Memory} (ho : Memory.wf o) : Good {s with out := o} :=
  h.set_consumer rfl rfl rfl rfl rfl rfl rfl ho (by simp [consumerInProgressOk, hk])

/-- A fresh region keeps it. -/
theorem good_freshRegion (h : Good s) (hk : s.kOp = .idle) : Good (freshRegion s) := good_out h hk List.Pairwise.nil

/-- A whole `POP` keeps it. -/
theorem good_popWhole (h : Good s) (hk : s.kOp = .idle) (he : popWhole s = .ok t) : Good t := by
  unfold popWhole at he
  split at he
  · cases he
    rcases popOnce_cases ‹_› with ⟨-, -, rfl⟩ | ⟨v, h1, h2, -, rfl⟩
    · exact h.giveResult _ _
    · exact (good_take h hk h1 h2).giveResult _ _
  · cases he

/-- The loop of a `READ_INTO` keeps it. -/
theorem good_readLoop (h : Good s) (hk : s.kOp = .idle) {l c : Nat} (he : readLoop l c s = .ok t) : Good t := by
  obtain ⟨c', u, -, -, ⟨hu, -⟩, rfl, -⟩ := readLoop_keeps (P := fun _ u => Good u ∧ u.kOp = .idle) he ⟨h, hk⟩ (by
    intro c u v ⟨hu, hk⟩ h1 h2
    exact ⟨good_out (good_take hu hk h1 h2) hk (write_wf hu.out_wf _ _), hk⟩)
  exact hu.giveResult _ _

/-- Every operation keeps it. -/
theorem good_exec (i : Instr) (h : Good s) (he : exec i s = .next t) : Good t := by
  cases i <;> simp only [exec, execNop, execIsEmpty, execIsFull, execPush, execPop, execReadInto,
    unlessRefused_next] at he
  · obtain ⟨-, he⟩ := he; cases he; exact h
  · obtain ⟨-, he⟩ := he; cases he; exact h.giveResult _ _
  · obtain ⟨-, he⟩ := he; cases he; exact h.giveResult _ _
  · obtain ⟨hr, he⟩ := he; cases he; exact good_pushWhole h (Ready.pOp_idle hr) _
  · obtain ⟨hr, he⟩ := he; exact good_popWhole h (Ready.kOp_idle hr) (ofExcept_next.mp he)
  · obtain ⟨hr, -, he⟩ := he
    exact good_readLoop (good_freshRegion h (Ready.kOp_idle hr)) (Ready.kOp_idle hr) (ofExcept_next.mp he)

/-- What `K` has in progress may be anything that is right of the state. -/
theorem good_setKOp (h : Good s) (o : KOp) (hk : consumerInProgressOk (setKOp o s)) : Good (setKOp o s) :=
  h.set_consumer rfl rfl rfl rfl rfl rfl rfl h.out_wf hk

/-- K1 keeps it. -/
theorem good_popBegin (h : Good s) : Good (popBegin s) := by
  unfold popBegin
  split
  · exact h.giveResult _ _
  · refine good_setKOp h _ ?_
    simp [consumerInProgressOk, popInProgressOk]
    exact h.emptySeen_K_false.mp (by simp_all)

/-- K2 and K3 keep it. -/
theorem good_popContinue (h : Good s) {p : PopOp} (hp : s.kOp = .pop p) (he : popContinue p s = .ok t) : Good t := by
  have hc := h.consumer_ok
  simp only [consumerInProgressOk, hp] at hc
  unfold popContinue at he
  split at he
  · simp only [popInProgressOk] at hc
    split at he
    · cases he
      obtain ⟨w, hw, hi⟩ := h.read_head hc
      rename_i hv; rw [memRead_ok] at hv; rw [hv] at hw; cases hw
      refine good_setKOp h _ ?_
      simp [consumerInProgressOk, popInProgressOk]; exact ⟨hc, hi⟩
    · cases he
  · cases he
    simp only [popInProgressOk] at hc
    refine Good.giveResult ?_ _ _
    exact h.advance_head hc.1 hc.2 rfl rfl rfl rfl rfl rfl rfl h.out_wf (by simp [consumerInProgressOk])

/-- The loop head and K1 of a `READ_INTO` keep it. -/
theorem good_readK1 (h : Good s) {n c : Nat} (hr : readInProgressOk n c s) : Good (readK1 n c s) := by
  unfold readK1
  split
  · refine good_setKOp (h.giveResult _ _) _ ?_
    simp [consumerInProgressOk]
  · refine good_setKOp h _ ?_
    simp only [consumerInProgressOk, setKOp_kOp, popInProgressOk]
    exact ⟨hr, h.emptySeen_K_false.mp (by simp_all)⟩

/-- The first micro-step of a `READ_INTO` keeps it. -/
theorem good_readBegin (h : Good s) (hk : s.kOp = .idle) (n : Nat) : Good (readBegin n s) := by
  have h2 : Good (freshRegion s) := good_freshRegion h hk
  unfold readBegin
  split
  · exact h2.giveResult _ _
  · refine good_readK1 h2 ?_
    refine ⟨by omega, by simp, ?_⟩
    have : s.ghost.popped.length ≤ s.ghost.PO := by simp [h.fifo]
    simp [List.drop_eq_nil_of_le this]

/-- The next micro-step of a `READ_INTO` keeps it. -/
theorem good_readContinue (h : Good s) {n c : Nat} {p : Option PopOp} (hp : s.kOp = .readInto n c p)
    (he : readContinue n c p s = .ok t) : Good t := by
  have hc := h.consumer_ok
  unfold readContinue at he
  split at he
  · cases he
    simp only [consumerInProgressOk, hp] at hc
    exact good_readK1 h hc
  · simp only [consumerInProgressOk, hp, popInProgressOk] at hc
    split at he
    · cases he
      obtain ⟨w, hw, hi⟩ := h.read_head hc.2
      rename_i hv; rw [memRead_ok] at hv; rw [hv] at hw; cases hw
      refine good_setKOp h _ ?_
      simp only [consumerInProgressOk, popInProgressOk, setKOp_kOp]; exact ⟨hc.1, hc.2, hi⟩
    · cases he
  · simp only [consumerInProgressOk, hp, popInProgressOk] at hc
    rename_i x v
    obtain ⟨⟨h1, h2, h3⟩, h4, h5⟩ := hc
    have hlen : s.ghost.popped.length = s.ghost.PO := by
      have := h.in_length; have := h.tv_le_pu
      simp [h.fifo]; omega
    have hout : Memory.write s.out c v = regionOf (s.ghost.popped.drop (s.ghost.PO - c) ++ [v]) := by
      
      have hl : (s.ghost.popped.drop (s.ghost.PO - c)).length = c := by simp [hlen]; omega
      rw [← regionOf_snoc, hl, h3]
    have hdrop : (s.ghost.popped ++ [v]).drop (s.ghost.PO + 1 - (c + 1)) =
        s.ghost.popped.drop (s.ghost.PO - c) ++ [v] := by
      rw [List.drop_append_of_le_length (by omega)]; congr 2; omega
    have key : ∀ o, (o = .idle ∨ (c + 1 < n ∧ o = .readInto n (c+1) none)) →
        Good (setKOp o (outWrite c v (advanceHead v s))) := by
      intro o ho
      refine h.advance_head h4 h5 rfl rfl rfl rfl rfl rfl rfl (write_wf h.out_wf _ _) ?_
      rcases ho with rfl | ⟨hn, rfl⟩
      · simp [consumerInProgressOk]
      · simp only [consumerInProgressOk, setKOp_kOp, readInProgressOk, setKOp_ghost, outWrite_ghost,
          advanceHead_ghost, Ghost_popTaken_PO, Ghost_popTaken_popped, setKOp_out, outWrite_out, advanceHead_out]
        refine ⟨hn, by omega, ?_⟩
        rw [hdrop, hout]
    simp only at he
    split at he
    · cases he; exact key _ (.inr ⟨‹_›, rfl⟩)
    · cases he; exact (key .idle (.inl rfl)).of_same rfl rfl rfl rfl rfl rfl rfl rfl rfl

/-- K1 of a drain keeps it. -/
theorem good_drainK1 (h : Good s) : Good (drainK1 s) := by
  cases he : emptySeen .K s
  · rw [drainK1_some he]
    refine good_setKOp h _ ?_
    simpa [consumerInProgressOk, popInProgressOk] using h.emptySeen_K_false.mp he
  · rw [drainK1_empty he]
    exact (good_setKOp h .idle (by simp [consumerInProgressOk])).giveResult _ _

/-- The next micro-step of a drain keeps it. -/
theorem good_drainContinue (h : Good s) {p : Option PopOp} (hp : s.kOp = .drain p)
    (he : drainContinue p s = .ok t) : Good t := by
  have hc := h.consumer_ok
  obtain ⟨-, rfl⟩ | ⟨x, v, rfl, hv, rfl⟩ | ⟨x, v, rfl, rfl⟩ := drainContinue_cases he
  · exact good_drainK1 h
  · simp only [consumerInProgressOk, hp, popInProgressOk] at hc
    obtain ⟨w, hw, hi⟩ := h.read_head hc
    rw [hv] at hw; cases hw
    exact good_setKOp h _ ⟨hc, hi⟩
  · simp only [consumerInProgressOk, hp, popInProgressOk] at hc
    refine Good.giveResult ?_ _ _
    exact h.advance_head hc.1 hc.2 rfl rfl rfl rfl rfl rfl rfl h.out_wf (by simp [consumerInProgressOk])

/-- Views and their ghosts that move forward, and not past their indices, keep it. -/
theorem good_views (h : Good s) (hC : t.C = s.C) (hhead : t.head = s.head) (htail : t.tail = s.tail)
    (hst : t.storage = s.storage) (hp : t.pOp = s.pOp) (hk : t.kOp = s.kOp) (hout : t.out = s.out)
    (a1 : t.ghost.PU = s.ghost.PU) (a2 : t.ghost.PO = s.ghost.PO) (a3 : t.ghost.IN = s.ghost.IN)
    (a4 : t.ghost.popped = s.ghost.popped)
    (hv : viewsAgree t) (h1 : s.ghost.HV ≤ t.ghost.HV) (h2 : t.ghost.HV ≤ s.ghost.PO) 
    (h3 : s.ghost.TV ≤ t.ghost.TV) (h4 : t.ghost.TV ≤ s.ghost.PU) :
    Good t where
  capacity := by rw [hC]; exact h.capacity
  tail_eq := by rw [htail, a1, hC]; exact h.tail_eq
  head_eq := by rw [hhead, a2, hC]; exact h.head_eq
  views := hv
  hv_le_po := by rw [a2]; exact h2
  po_le_tv := by have := h.po_le_tv; rw [a2]; omega
  tv_le_pu := by rw [a1]; exact h4
  pu_le := by have := h.pu_le; rw [a1, hC]; omega
  in_length := by rw [a1, a3]; exact h.in_length
  fifo := by rw [a2, a3, a4]; exact h.fifo
  data := by rw [a1, a2, a3, hC, hst]; exact h.data
  storage_wf := by rw [hst]; exact h.storage_wf
  storage_slots := by rw [hst, hC]; exact h.storage_slots
  out_wf := by rw [hout]; exact h.out_wf
  push_ok := by
    have hq := h.push_ok
    unfold pushInProgressOk at *
    rw [hp, a1, hC, hst, htail]
    split at hq
    · trivial
    · omega
    · exact ⟨by omega, hq.2⟩
  consumer_ok := by
    have hc := h.consumer_ok
    unfold consumerInProgressOk readInProgressOk popInProgressOk at *
    rw [hk]
    simp only [a2, a3, a4, hout]
    split at hc
    · trivial
    · split at hc
      · omega
      · exact ⟨by omega, hc.2⟩
    · exact hc
    · refine ⟨hc.1, ?_⟩
      have hc := hc.2
      split at hc
      · omega
      · exact ⟨by omega, hc.2⟩
    · trivial
    · split at hc
      · omega
      · exact ⟨by omega, hc.2⟩

/-- `SYNC_TAIL` keeps it. -/
theorem good_syncTail (h : Good s) {k : Nat} (he : syncTail k s = .next t) : Good t := by
  obtain ⟨hv, tv, hs, hk, rfl⟩ := syncTail_cases he
  have hva := h.views
  simp only [viewsAgree, hs] at hva
  have := h.hv_le_po; have := h.po_le_tv; have := h.tv_le_pu; have := h.pu_le
  rw [hva.2, h.tail_eq, dist_mod h.pos (by omega) (by omega)] at hk
  refine good_views h rfl rfl rfl rfl rfl rfl rfl rfl rfl rfl rfl ?_ (by simp)
    (by simpa using h.hv_le_po) (by simp) (by simp; omega)
  simp only [viewsAgree, moveTailView_sync]
  refine ⟨hva.1, ?_⟩
  rw [hva.2, advanceBy_mod]; rfl

/-- `SYNC_HEAD` keeps it. -/
theorem good_syncHead (h : Good s) {k : Nat} (he : syncHead k s = .next t) : Good t := by
  obtain ⟨hv, tv, hs, hk, rfl⟩ := syncHead_cases he
  have hva := h.views
  simp only [viewsAgree, hs] at hva
  have := h.hv_le_po; have := h.po_le_tv; have := h.tv_le_pu; have := h.pu_le
  rw [hva.1, h.head_eq, dist_mod h.pos (by omega) (by omega)] at hk
  refine good_views h rfl rfl rfl rfl rfl rfl rfl rfl rfl rfl rfl ?_ (by simp)
    (by simp; omega) (by simp) (by simpa using h.tv_le_pu)
  simp only [viewsAgree, moveHeadView_sync]
  refine ⟨?_, hva.2⟩
  rw [hva.1, advanceBy_mod]; rfl

/-- The first micro-step of every operation keeps it. -/
theorem good_beginOp (i : Instr) (h : Good s) (he : beginOp i s = .next t) : Good t := by
  cases i <;> simp only [beginOp] at he
  · exact good_exec (.nop _) h he
  · exact good_exec (.isEmpty _) h he
  · exact good_exec (.isFull _) h he
  · obtain ⟨hr, he⟩ := unlessRefused_next.mp he; cases he; exact good_pushBegin h _
  · obtain ⟨hr, he⟩ := unlessRefused_next.mp he; cases he; exact good_popBegin h
  · obtain ⟨hr, he⟩ := unlessRefused_next.mp he
    obtain ⟨-, he⟩ := unlessRefused_next.mp he; cases he; exact good_readBegin h (Ready.kOp_idle hr) _

/-- Delivering bytes changes `head`, the output region and the ghosts `PO`, `popped`, `HV` only. -/
theorem deliver_eq (vs : List Byte) (c : Nat) (s : State) :
    deliver vs c s = { s with
      head := (deliver vs c s).head
      out := (deliver vs c s).out
      ghost := { s.ghost with
        PO := s.ghost.PO + vs.length
        popped := s.ghost.popped ++ vs
        HV := (deliver vs c s).ghost.HV } } := by
  induction vs generalizing c s with
  | nil => simp [deliver]
  | cons v vs ih =>
    rw [deliver, ih]
    simp [outWrite, advanceHead, Ghost.popTaken]
    omega

/-- In a good state the loop delivers as many bytes as it may and `K` sees, those of the slots from `head` on. -/
theorem readLoop_good {l c : Nat} (h : Good s) (hk : s.kOp = .idle) :
    ∃ vs, readLoop l c s = .ok (readFinish (c + vs.length) (deliver vs c s)) ∧
      vs.length = min l (s.ghost.TV - s.ghost.PO) ∧
      ∀ k, k < vs.length → Memory.read s.storage ((s.head + k) % s.C) = vs[k]? := by
  induction l generalizing c s with
  | zero => exact ⟨[], by simp [deliver], by simp, by simp⟩
  | succ l ih =>
    by_cases he : emptySeen .K s = true
    · refine ⟨[], ?_, ?_, by simp⟩
      · rw [readLoop_empty he]; rfl
      · have := h.emptySeen_K.mp he; simp; omega
    · have he : emptySeen .K s = false := by simpa using he
      have hlt := h.emptySeen_K_false.mp he
      obtain ⟨v, hv, hi⟩ := h.read_head hlt
      have hg : Good (outWrite c v (advanceHead v s)) := good_out (good_take h hk he hv) hk (write_wf h.out_wf _ _)
      obtain ⟨vs, h1, h2, h3⟩ := ih (c := c + 1) hg hk
      refine ⟨v :: vs, ?_, ?_, ?_⟩
      · rw [readLoop_some he hv, h1]; simp [deliver, Nat.add_assoc, Nat.add_comm 1]
      · simp at h2 ⊢; omega
      · intro k hk
        cases k with
        | zero => simp [Nat.mod_eq_of_lt h.head_lt, hv]
        | succ k =>
          have := h3 k (by simpa using hk)
          simp at this ⊢
          rw [← this]; simp [inc, Nat.add_assoc, Nat.add_comm 1]

end Sys2Proof.Machine
end

