-- ==== Sys2Proof/Laws/PerInstr.lean ====
section
/-! SUPPORT. Facts about every instruction as syntax, one lemma per constructor. -/

namespace Sys2Proof.Laws.AgentBit

/-- The `ag` bit of an instruction's word names the agent that performs it (spec/30_encoding.md R54, R58). -/
def Statement (i : Instr) : Prop := fieldAg (encode i) = i.agent

theorem nop (ag : Agent) : Statement (.nop ag) := by
  rw [Statement, encode, fieldAg_packWord (by omega), Instr.agent]
theorem isEmpty (ag : Agent) : Statement (.isEmpty ag) := by
  rw [Statement, encode, fieldAg_packWord (by omega), Instr.agent]
theorem isFull (ag : Agent) : Statement (.isFull ag) := by
  rw [Statement, encode, fieldAg_packWord (by omega), Instr.agent]
theorem push (imm8 : Byte) : Statement (.push imm8) := by
  rw [Statement, encode, fieldAg_packWord (by omega), Instr.agent]
theorem pop : Statement .pop := by
  rw [Statement, encode, fieldAg_packWord (by omega), Instr.agent]
theorem readInto (n : Nat) : Statement (.readInto n) := by
  rw [Statement, encode, fieldAg_packWord (by omega), Instr.agent]

end Sys2Proof.Laws.AgentBit
end

