-- ==== Sys2Proof/Tests/Slice0.lean ====
section
/-! SUPPORT. Tests with expected results from spec/95_test_vectors.md and the worked examples, and for every statement
with hypotheses a witness that meets them. -/

namespace Sys2Proof.Tests

open Sys2Proof Sys2Proof.Machine

/-! ### Helpers -/

/-- A state at rest after these accepted pushes and pops: `IN` is what was pushed, slot `j mod C` holds its byte. -/
def at_ (C : Nat) (sync : Sync) (PU PO HV TV : Nat) (IN : List Byte) : State :=
  { State.resetWith ⟨C, .DIRECT⟩ with
    sync := sync
    head := PO % C
    tail := PU % C
    storage := IN.zipIdx.foldl (fun m x => Memory.write m (x.2 % C) x.1) []
    ghost := { PU := PU, PO := PO, HV := HV, TV := TV, IN := IN, popped := IN.take PO } }

/-- In `DIRECT` mode. -/
def direct (C PO : Nat) (IN : List Byte) : State := at_ C .direct IN.length PO PO IN.length IN

/-- In `SYNCED` mode, the views standing at `HV` and `TV`. -/
def synced (C PO HV TV : Nat) (IN : List Byte) : State :=
  at_ C (.synced (HV % C) (TV % C)) IN.length PO HV TV IN

/-- The next state, if there is one. -/
def next? (o : Host.Outcome State Fault Refusal) : Option State :=
  match o with
  | .next s => some s
  | .fault _ => none
  | .refused _ => none

/-- What a step returned last. -/
def answer (o : Host.Outcome State Fault Refusal) : Option (Agent × Result) :=
  (next? o).bind (fun s => s.results.getLast?)

/-- The fields of `Good` that are decided by evaluation. -/
def checks (s : State) : Bool :=
  decide (2 ≤ s.C ∧ s.tail = s.ghost.PU % s.C ∧ s.head = s.ghost.PO % s.C ∧ s.ghost.HV ≤ s.ghost.PO ∧
    s.ghost.PO ≤ s.ghost.TV ∧ s.ghost.TV ≤ s.ghost.PU ∧ s.ghost.PU + 1 ≤ s.ghost.HV + s.C ∧
    s.ghost.IN.length = s.ghost.PU ∧ s.ghost.popped = s.ghost.IN.take s.ghost.PO ∧
    (∀ j < s.ghost.PU, s.ghost.PO ≤ j → Memory.read s.storage (j % s.C) = s.ghost.IN[j]?) ∧
    Memory.wf s.storage ∧ (∀ c ∈ s.storage, c.1 < s.C) ∧ Memory.wf s.out)

theorem good_of_checks {s : State} (h : checks s = true) (hv : viewsAgree s) (hp : pushInProgressOk s)
    (hk : consumerInProgressOk s) : Good s := by
  obtain ⟨a, b, c, d, e, f, g, i, j, k, l, m, n⟩ := of_decide_eq_true h
  exact ⟨a, b, c, hv, d, e, f, g, i, j, k, l, m, n, hp, hk⟩

/-- `C = 4`, `head = 1`, `tail = 3`: two bytes, one free slot. -/
def sMid : State := direct 4 1 [0x41, 0x42, 0x43]
/-- `C = 4`, full, `head = 0`, `tail = 3`. -/
def sFull : State := direct 4 0 [0x41, 0x42, 0x43]
/-- `C = 4`, empty at `head = tail = 3`. -/
def sEmpty : State := direct 4 3 [0x41, 0x42, 0x43]
/-- `C = 5`, `SYNCED`, both views one step behind; `P` sees room and `K` sees a byte. -/
def sSync : State := synced 5 1 0 2 [0x01, 0x02, 0x03]
/-- The state of 95 V10 step 9: `P` sees full, `K` sees empty, one byte is stored. -/
def sStale : State := synced 4 2 0 2 [0x61, 0x62, 0x63]
/-- A `PUSH` after P1, and after P2. -/
def sP1 : State := setPOp (.afterP1 0x44 1) sMid
def sP2 : State := setPOp (.afterP2 0x44 1) (pushWrite 0x44 sMid)
/-- A `POP` after K1, and after K2. -/
def sK1 : State := setKOp (.pop (.afterK1 3)) sMid
def sK2 : State := setKOp (.pop (.afterK2 3 0x42)) sMid
/-- A `READ_INTO 2` between its two `POP`s: `0x41` delivered. -/
def sRead : State := setKOp (.readInto 2 1 none) { sMid with out := [(0, 0x41)] }

/-- A drain between two `POP`s, and after K1 of its next one. -/
def sDrain : State := setKOp (.drain none) sMid
def sDrainK1 : State := setKOp (.drain (some (.afterK1 3))) sMid
/-- A drain that has popped all. -/
def sDrainEnd : State := setKOp (.drain none) sEmpty

theorem good_sMid : Good sMid := good_of_checks (by decide) ⟨rfl, rfl⟩ trivial trivial
theorem good_sFull : Good sFull := good_of_checks (by decide) ⟨rfl, rfl⟩ trivial trivial
theorem good_sEmpty : Good sEmpty := good_of_checks (by decide) ⟨rfl, rfl⟩ trivial trivial
theorem good_sSync : Good sSync := good_of_checks (by decide) ⟨rfl, rfl⟩ trivial trivial
theorem good_sStale : Good sStale := good_of_checks (by decide) ⟨rfl, rfl⟩ trivial trivial
theorem good_sP1 : Good sP1 := good_of_checks (by decide) ⟨rfl, rfl⟩ (by decide : 3 + 2 ≤ 1 + 4) trivial
theorem good_sP2 : Good sP2 := good_of_checks (by decide) ⟨rfl, rfl⟩ ⟨(by decide : 3 + 2 ≤ 1 + 4), by decide⟩ trivial
theorem good_sK1 : Good sK1 := good_of_checks (by decide) ⟨rfl, rfl⟩ trivial (by decide : 1 < 3)
theorem good_sK2 : Good sK2 := good_of_checks (by decide) ⟨rfl, rfl⟩ trivial ⟨(by decide : 1 < 3), by decide⟩
theorem good_sRead : Good sRead :=
  good_of_checks (by decide) ⟨rfl, rfl⟩ trivial ⟨(by decide : 1 < 2), (by decide : 1 ≤ 1), by decide⟩

theorem good_sDrain : Good sDrain := good_of_checks (by decide) ⟨rfl, rfl⟩ trivial trivial
theorem good_sDrainK1 : Good sDrainK1 := good_of_checks (by decide) ⟨rfl, rfl⟩ trivial (by decide : 1 < 3)
theorem good_sDrainEnd : Good sDrainEnd := good_of_checks (by decide) ⟨rfl, rfl⟩ trivial trivial

/-! ### Well-formedness -/

/-- 30_encoding.md R57: `n12` ends at 4095. -/
theorem test_wf_refuses_read_into_4096 : (Instr.readInto 4096).wf = false := by decide
theorem test_wf_accepts_read_into_4095 : (Instr.readInto 4095).wf = true := by decide
theorem test_wf_accepts_push_FF : (Instr.push 0xFF).wf = true := by decide

/-! ### Decoding: words of 95 V11, bit by bit (`op ag arg`) -/

theorem test_decode_nop : decode 0b000_1_000000000000#16 = .ok (.nop .K) := by decide
theorem test_decode_is_empty : decode 0b001_0_000000000000#16 = .ok (.isEmpty .P) := by decide
theorem test_decode_is_full : decode 0b010_1_000000000000#16 = .ok (.isFull .K) := by decide
theorem test_decode_push : decode 0b011_0_0000_01000001#16 = .ok (.push 0x41) := by decide
theorem test_decode_push_FF : decode 0b011_0_0000_11111111#16 = .ok (.push 0xFF) := by decide
theorem test_decode_pop : decode 0b100_1_000000000000#16 = .ok .pop := by decide
theorem test_decode_read_into : decode 0b101_1_000000000101#16 = .ok (.readInto 5) := by decide
theorem test_decode_read_into_4095 : decode 0b101_1_111111111111#16 = .ok (.readInto 4095) := by decide
theorem test_decode_push_by_K : decode 0x7041 = .error .wrongRole := by decide
theorem test_decode_pop_by_P : decode 0x8000 = .error .wrongRole := by decide
theorem test_decode_read_into_by_P : decode 0xA005 = .error .wrongRole := by decide
theorem test_decode_push_pad : decode 0x6141 = .error .operandBits := by decide
theorem test_decode_pop_operand : decode 0x9001 = .error .operandBits := by decide
theorem test_decode_is_empty_operand : decode 0x2001 = .error .operandBits := by decide
theorem test_decode_reserved :
    decode 0xC000 = .error .reservedOp ∧ decode 0xE000 = .error .reservedOp ∧
      decode 0xD123 = .error .reservedOp ∧ decode 0xFFFF = .error .reservedOp := by decide

theorem test_decodeTableWord : decodeTableWord 16 0xB005 = some (.readInto 5) := by decide
theorem test_decodeTableWord_illegal : decodeTableWord 16 0x9001 = none := by decide

/-- The first step after reset runs the fetched word (95 S1 row 1). -/
theorem test_withFetchWord : answer (step (State.reset.withFetchWord 16 0x6041)) = some (.P, .push true) := by decide

/-! ### NOP, IS_EMPTY, IS_FULL -/

/-- 40_status_flags.md R70. -/
theorem test_nop_leaves_state : next? (exec (.nop .K) sMid) = some sMid := by decide

/-- R71, the example. -/
theorem test_is_empty_at_3_3 : answer (exec (.isEmpty .K) sEmpty) = some (.K, .isEmpty true) := by decide
/-- 95 V10 row 9: `P` sees three bytes where one is left. -/
theorem test_is_empty_P_stale : answer (exec (.isEmpty .P) sStale) = some (.P, .isEmpty false) := by decide

/-- R72, the example: the sentinel test wraps. -/
theorem test_is_full_wraps : answer (exec (.isFull .P) sFull) = some (.P, .isFull true) := by decide
/-- 95 V10 row 9. -/
theorem test_is_full_K_stale : answer (exec (.isFull .K) sStale) = some (.K, .isFull false) := by decide

/-! ### PUSH -/

/-- 95 V6 row 4: `head = 1`, `tail = 3`: the byte goes to slot 3 and `tail` wraps. -/
theorem test_push_wraps : (next? (exec (.push 0x55) sMid)).map
    (fun t => (t.head, t.tail, Memory.read t.storage 3)) = some (1, 0, some 0x55) := by decide
/-- 41_push.md R87: the fourth push is rejected, and only the result tells. -/
theorem test_push_rejected : next? (exec (.push 0x44) sFull) = some (giveResult .P (.push false) sFull) := by decide

/-! ### POP -/

/-- 95 V7 row 2: `head = 3`, `tail = 0`, `st[3] = 7E`. -/
theorem test_pop_wraps : (next? (exec .pop (direct 4 3 [0, 0, 0, 0x7E]))).map
    (fun t => (t.head, t.results)) = some (0, [(.K, .pop (some 0x7E))]) := by decide
/-- 42_pop_read.md R95: the fourth pop. -/
theorem test_pop_none : next? (exec .pop sEmpty) = some (giveResult .K (.pop none) sEmpty) := by decide

/-! ### READ_INTO -/

/-- 42_pop_read.md R103, the worked example. -/
theorem test_read_into_5_gets_3 : (next? (exec (.readInto 5) (direct 4 0 [0x01, 0x02, 0x03]))).map
    (fun t => (t.head, t.results, t.out)) =
      some (3, [(.K, .readInto 3 [0x01, 0x02, 0x03])], [(0, 0x01), (1, 0x02), (2, 0x03)]) := by decide
/-- 95 V8 row 4: slots 2, 3, 0. -/
theorem test_read_into_across_wrap : (next? (exec (.readInto 4) (direct 4 2 [0x10, 0x11, 0x12, 0x13, 0x14]))).map
    (fun t => (t.head, t.results)) = some (1, [(.K, .readInto 3 [0x12, 0x13, 0x14])]) := by decide

/-! ### Synchronisers and micro-steps -/

/-- 95 V10 row 14: `Between(2, 0)`, two steps, across the wrap. -/
theorem test_sync_tail_across_wrap :
    (next? (syncTail 2 (synced 4 2 1 2 [0x61, 0x62, 0x63, 0x64]))).map tailView = some (some 0) := by decide
/-- 95 V10: `Between(0, 0)` has one member, so a step of one is not admitted. -/
theorem test_sync_head_outside : next? (syncHead 1 (synced 4 0 0 2 [0x61, 0x62, 0x63])) = none := by decide
/-- 95 PR5: K2 takes the byte at `head`, and `head` has not moved. -/
theorem test_pop_k2 : (next? (microStep .K (setKOp (.pop (.afterK1 1)) (direct 4 0 [0x01, 0x02])))).map
    (fun t => (t.head, t.kOp)) = some (0, .pop (.afterK2 1 0x01)) := by decide

/-! ### The drain, taken apart (30_encoding.md R63) -/

/-- A `PUSH` falls between two `POP`s of a drain, and the drain goes on (70_reset_and_hazards.md R163). -/
theorem test_push_between_pops_of_a_drain :
    (next? (step (setTrace [.command 0x6055] sDrain))).map (fun t => (t.tail, t.kOp)) = some (0, .drain none) := by decide
/-- The `POP` that finds none is the last. -/
theorem test_drain_ends_when_empty :
    (next? (step (setTrace [.micro .K] sDrainEnd))).map (fun t => (t.results, t.kOp)) =
      some ([(.K, .pop none)], .idle) := by decide

/-! ### The assembler -/

/-- 30_encoding.md R62, R64. -/
theorem test_read_line : readLine "K: read_into 0x5 -> 3 [0x01 0x02 0x03] ; five".toList =
    some (.command 0xB005) := by decide
theorem test_read_annotation : readLine "S: sync_tail 2".toList = some (.syncTail 2) := by decide

/-- R62, the example, and 95_test_vectors.md PR3 for a count of 0. -/
theorem test_write_result : writeResult (.readInto 3 [0x01, 0x02, 0x03]) = "3 [0x01 0x02 0x03]".toList ∧
    writeResult (.readInto 0 []) = "0".toList := by decide

/-! ### Memory -/

/-- A write keeps addresses rising and replaces in place. -/
theorem test_memory_write :
    Memory.write (Memory.write (Memory.write [] 2 0x22) 0 0x00) 2 0x33 = [(0, 0x00), (2, 0x33)] := by decide

/-! ### Witnesses: for every statement with hypotheses, states and operands that meet them -/

theorem witness_ResetLeavesTheTableOfValues : 2 ≤ (⟨2, .SYNCED⟩ : Config).C := by decide

theorem witness_InvariantHoldsAtReset : 2 ≤ Config.default.C := by decide

theorem witness_StepKeepsInvariant :
    Good (setTrace [.command 0x9000] sMid) ∧ next? (step (setTrace [.command 0x9000] sMid)) ≠ none :=
  ⟨good_sMid.setTrace _, by decide⟩

/-- A reachable state: one `PUSH` after reset (for the four statements about reachable states). -/
theorem witness_reachable : ∃ s, 2 ≤ (⟨4, .SYNCED⟩ : Config).C ∧ Reachable ⟨4, .SYNCED⟩ s ∧
    s.ghost.PO ≤ 0 ∧ 0 < s.ghost.PU ∧ next? (exec (.push 0x42) s) ≠ none :=
  ⟨_, by decide, .step _ _ (.reset [.command 0x6041, .syncTail 1]) rfl, by decide, by decide, by decide⟩

/-- The same state with its byte seen: `K` sees a byte. -/
theorem witness_reachable_seen : ∃ s, Reachable ⟨4, .SYNCED⟩ s ∧ emptySeen .K s = false :=
  ⟨_, .step _ _ (.step _ _ (.reset [.command 0x6041, .syncTail 1]) rfl) rfl, by decide⟩

theorem witness_GoodStatesNeverFault : Good sK1 := good_sK1

theorem witness_DecodeUndoesEncode :
    (Instr.readInto 4095).wf = true ∧ (Instr.readInto 0).wf = true ∧ (Instr.push 0xFF).wf = true := by decide

theorem witness_EncodeUndoesDecode : decode 0x6041 = .ok (.push 0x41) := by decide

theorem witness_OpcodeMapSelectsOperations :
    ⟨"PUSH", 0x6000, 0xFF00⟩ ∈ opcodeTable ∧ decode 0x60FF = .ok (.push 0xFF) := by decide

theorem witness_IllegalWordsAreRefused :
    decode 0xC000 = .error .reservedOp ∧ decode 0x7041 = .error .wrongRole ∧
      decode 0x6141 = .error .operandBits ∧ decode 0x9001 = .error .operandBits := by decide

theorem witness_StepPerformsDecodedCommand :
    decode 0x6041 = .ok (.push 0x41) ∧ (setTrace [.command 0x6041] sMid).trace = [.command 0x6041] ∧
      (Instr.readInto 4095).wf = true ∧
      (setTrace [.command (encode (.readInto 4095))] sMid).trace = [.command (encode (.readInto 4095))] ∧
      decodeTableWord 16 0x9000 = some .pop := by decide

/-- Each clause with a premise: a `POP` that answers, faults, is refused; `K` ready; an operation in progress on either
side, and none. -/
theorem witness_StepPerformsTraceEntries : (Instr.readInto 4095).wf = true ∧
    next? (exec .pop (setTrace [] sMid)) ≠ none ∧
    (∃ f, exec .pop (setTrace [] { sMid with storage := [] }) = .fault f) ∧
    (∃ r, exec .pop (setTrace [] sK1) = .refused r) ∧
    Ready .K sMid ∧ Ready .K sEmpty ∧ sP1.pOp ≠ .idle ∧ (sDrain.pOp = .idle ∧ sDrain.kOp ≠ .idle) ∧ Idle sMid :=
  ⟨by decide, by decide, ⟨_, rfl⟩, ⟨_, rfl⟩, by decide⟩

/-- Both agents ready, with something in progress on the other side where that is allowed: for `NOP`, the queries,
`PUSH` and the frames. -/
theorem witness_ready : Ready .P sMid ∧ Ready .K sMid ∧ Ready .P sK1 ∧ Ready .P sStale ∧ Ready .K sStale := by decide

theorem witness_PushStoresOrRejects : Ready .P sFull ∧ Ready .P sMid ∧
    (sFull.tail + 1) % sFull.C = obs .P .head sFull ∧ (sMid.tail + 1) % sMid.C ≠ obs .P .head sMid := by decide

/-- Each of the three clauses; the last in a state that no run reaches. -/
theorem witness_PopReturnsOldestByteOrNone :
    (Ready .K sEmpty ∧ sEmpty.head = obs .K .tail sEmpty) ∧
      (Ready .K sMid ∧ sMid.head ≠ obs .K .tail sMid ∧ Memory.read sMid.storage sMid.head = some 0x42) ∧
      (Ready .K { sMid with storage := [] } ∧ sMid.head ≠ obs .K .tail { sMid with storage := [] } ∧
        Memory.read ([] : Memory) sMid.head = none) := by decide

theorem witness_ReadIntoDeliversWhatIsThere :
    Good sMid ∧ Ready .K sMid ∧ 4095 ≤ sMid.regionLen ∧ 0 ≤ sMid.regionLen :=
  ⟨good_sMid, by decide, by decide, by decide⟩

theorem witness_ReadIntoIsASequenceOfPops :
    (Ready .K sEmpty ∧ 4094 + 1 ≤ sEmpty.regionLen ∧ emptySeen .K sEmpty = true) ∧
      ∃ u t, Ready .K sMid ∧ 4 + 1 ≤ sMid.regionLen ∧ exec .pop sMid = .next u ∧
        u.results = sMid.results ++ [(.K, .pop (some 0x42))] ∧
        exec (.readInto 4) { u with results := sMid.results } = .next t :=
  ⟨by decide, _, _, by decide, by decide, rfl, by decide, rfl⟩

theorem witness_ReadIntoZeroTouchesNothing : Ready .K sMid := by decide

/-- Each clause: the five of a whole or begun operation, the three of a micro-step, and the drain. -/
theorem witness_ContractBreachesAreRefused :
    (direct 1 0 []).C < 2 ∧
      (2 ≤ ({ sMid with head := 4 } : State).C ∧ indicesInRange { sMid with head := 4 } = false) ∧
      (contract sK1 = none ∧ busy (Instr.agent .pop) sK1 = true) ∧
      (contract sP1 = none ∧ busy (Instr.agent .pop) sP1 = false ∧ Instr.agent .pop = .K ∧ sP1.mode = .DIRECT ∧
        busy .P sP1 = true) ∧
      (Ready .K { sMid with regionLen := 2 } ∧ ({ sMid with regionLen := 2 } : State).regionLen < 3) ∧
      contract (direct 1 0 []) = some .capacityTooSmall ∧
      (contract sMid = none ∧ busy .K sMid = false) ∧
      (contract (setPOp (.afterP1 0x44 1) sK1) = none ∧ busy .K (setPOp (.afterP1 0x44 1) sK1) = true ∧
        (setPOp (.afterP1 0x44 1) sK1).mode = .DIRECT ∧ busy .P (setPOp (.afterP1 0x44 1) sK1) = true) ∧
      cannotBegin .K sDrain = some (.operationInProgress .K) := by decide

/-- Every constructor, with both agents where there are two, and both ends of the range of `n`. -/
theorem witness_EveryOperationCompletes :
    Good sMid ∧ Ready (Instr.agent (.nop .P)) sMid ∧ Ready (Instr.agent (.nop .K)) sMid ∧
      Ready (Instr.agent (.isEmpty .P)) sMid ∧ Ready (Instr.agent (.isFull .K)) sMid ∧
      Ready (Instr.agent (.push 0)) sMid ∧ Ready (Instr.agent .pop) sMid ∧
      Ready (Instr.agent (.readInto 0)) sMid ∧ Ready (Instr.agent (.readInto 4095)) sMid ∧
      4095 ≤ sMid.regionLen :=
  ⟨good_sMid, by decide⟩

theorem witness_QueriesFrame : next? (exec (.nop .P) sMid) ≠ none ∧ next? (exec (.isEmpty .K) sMid) ≠ none ∧
    next? (exec (.isFull .P) sMid) ≠ none := by decide

theorem witness_PushFrame : (next? (exec (.push 1) sFull) ≠ none ∧ fullSeen .P sFull = true) ∧
    (next? (exec (.push 1) sMid) ≠ none ∧ fullSeen .P sMid = false) := by decide

theorem witness_ConsumerFrame : next? (exec .pop sMid) ≠ none ∧ next? (exec (.readInto 2) sMid) ≠ none ∧
    (next? (exec .pop sEmpty) ≠ none ∧ emptySeen .K sEmpty = true) := by decide

theorem witness_OnlyOwnersWriteTheirRegisters :
    (nextItem (setTrace [.command 0x6055] sMid) = some (.command 0x6055) ∧
      next? (step (setTrace [.command 0x6055] sMid)) ≠ none) ∧
    (nextItem sDrain = some (.micro .K) ∧ next? (step sDrain) ≠ none) ∧
      next? (step (setTrace [.syncTail 1] sSync)) ≠ none ∧ next? (step (setTrace [.syncHead 1] sSync)) ≠ none ∧
      next? (step (setTrace [.command 0xB002] sSync)) ≠ none := by decide

/-- The three outcomes. -/
theorem witness_GhostsDecideNothing : next? (step (setTrace [.drain] sMid)) ≠ none ∧
    (∃ f, step (setTrace [.drain] { sMid with storage := [] }) = .fault f) ∧
    (∃ r, step (setTrace [.rst] sMid) = .refused r) :=
  ⟨by decide, ⟨_, rfl⟩, ⟨_, rfl⟩⟩

/-- Two states that differ in what the consumer holds. -/
theorem witness_ProducerSeesOnlyItsView : Instr.agent (.push 1) = .P ∧ SameForProducer sMid sK2 ∧ sMid ≠ sK2 ∧
    next? (exec (.push 1) sMid) ≠ none ∧ next? (exec (.push 1) sK2) ≠ none := by decide

/-- Two states that differ in a slot that `K` may not read, and in what the producer sees. -/
theorem witness_ConsumerSeesOnlyItsView :
    Instr.agent (.readInto 2) = .K ∧ Good sSync ∧ Good (synced 5 1 1 2 [0x09, 0x02, 0x03]) ∧
      SameForConsumer sSync (synced 5 1 1 2 [0x09, 0x02, 0x03]) ∧
      next? (exec (.readInto 2) sSync) ≠ none ∧
      next? (exec (.readInto 2) (synced 5 1 1 2 [0x09, 0x02, 0x03])) ≠ none :=
  ⟨by decide, good_sSync, good_of_checks (by decide) ⟨rfl, rfl⟩ trivial trivial, by decide, by decide, by decide⟩

theorem witness_PushMicroStepsInOrder : (Ready .P sFull ∧ fullSeen .P sFull = true) ∧
    (Ready .P sMid ∧ fullSeen .P sMid = false) ∧ (contract sP1 = none ∧ sP1.pOp = .afterP1 0x44 1) ∧
    (contract sP2 = none ∧ sP2.pOp = .afterP2 0x44 1) := by decide

theorem witness_PopMicroStepsInOrder : (Ready .K sEmpty ∧ emptySeen .K sEmpty = true) ∧
    (Ready .K sMid ∧ emptySeen .K sMid = false) ∧
    (contract sK1 = none ∧ insidePush .K sK1 = false ∧ sK1.kOp = .pop (.afterK1 3) ∧
      Memory.read sK1.storage sK1.head = some 0x42) ∧
    (contract sK2 = none ∧ insidePush .K sK2 = false ∧ sK2.kOp = .pop (.afterK2 3 0x42)) := by decide

theorem witness_MicroStepsMakeTheWholeOperation : (Ready .P sFull ∧ fullSeen .P sFull = true) ∧
    (Ready .P sMid ∧ fullSeen .P sMid = false) ∧ (Ready .K sEmpty ∧ emptySeen .K sEmpty = true) ∧
    (Ready .K sMid ∧ emptySeen .K sMid = false) := by decide

theorem witness_ReadIntoMicroStepsMakeTheWhole : 4095 ≤ NMAX ∧ Good sMid ∧ Ready .K sMid ∧ 4095 ≤ sMid.regionLen :=
  ⟨by decide, good_sMid, by decide, by decide⟩

theorem witness_PushInsidePopIsSerial :
    (Good sMid ∧ Idle sMid ∧ emptySeen .K sMid = false) ∧ (Good sEmpty ∧ Idle sEmpty ∧ emptySeen .K sEmpty = true) :=
  ⟨⟨good_sMid, by decide, by decide⟩, good_sEmpty, by decide, by decide⟩

/-- `k` at its bound for both views. -/
theorem witness_PopAndViewMovesInsideAreSerial : Good sSync ∧ Idle sSync ∧ sSync.mode = .SYNCED ∧
    fullSeen .P sSync = false ∧ 1 ≤ dist sSync.C (obs .P .head sSync) sSync.head ∧
    emptySeen .K sSync = false ∧ 1 ≤ dist sSync.C (obs .K .tail sSync) sSync.tail :=
  ⟨good_sSync, by decide⟩

theorem witness_MicroStepsNeverWait :
    (Good sP1 ∧ busy .P sP1 = true ∧ insidePush .P sP1 = false) ∧
      (Good sP2 ∧ busy .P sP2 = true ∧ insidePush .P sP2 = false) ∧
      (Good sK2 ∧ busy .K sK2 = true ∧ insidePush .K sK2 = false) ∧
      (Good sRead ∧ busy .K sRead = true ∧ insidePush .K sRead = false) ∧
      (Good sDrainK1 ∧ busy .K sDrainK1 = true ∧ insidePush .K sDrainK1 = false) :=
  ⟨⟨good_sP1, by decide⟩, ⟨good_sP2, by decide⟩, ⟨good_sK2, by decide⟩, ⟨good_sRead, by decide⟩, good_sDrainK1, by decide⟩

theorem witness_OverflowIsOnlyAResult : (Ready .P sFull ∧ inc sFull.C sFull.tail = obs .P .head sFull) ∧
    ∃ t, exec (.push 0x44) sFull = .next t ∧ t.results = sFull.results ++ [(.P, .push false)] :=
  ⟨by decide, _, rfl, by decide⟩

theorem witness_UnderflowIsOnlyAResult : (Ready .K sEmpty ∧ sEmpty.head = obs .K .tail sEmpty ∧
      0 < 4095 ∧ 4095 ≤ sEmpty.regionLen) ∧
    (∃ t, exec .pop sEmpty = .next t ∧ t.results = sEmpty.results ++ [(.K, .pop none)]) ∧
    (∃ t, exec (.readInto 3) sMid = .next t ∧ t.results = sMid.results ++ [(.K, .readInto 2 [0x42, 0x43])] ∧ 2 < 3) :=
  ⟨by decide, ⟨_, rfl, by decide⟩, _, rfl, by decide, by decide⟩

theorem witness_FlagsFollowOccupancy : (2 ≤ 4 ∧ 3 < 4 ∧ 0 < 4) ∧ 2 ≤ sMid.C := by decide

theorem witness_SlotsAreOccupiedOrFree : (contract sMid = none) ∧
    (contract sFull = none ∧ fullOf sFull.C sFull.head sFull.tail = true) := by decide

/-- Really full, really empty, seen full by `K`, seen empty by `P`, and `DIRECT` mode. -/
theorem witness_StaleViewsErrSafely :
    (Good sFull ∧ occupancy sFull = sFull.C - 1 ∧ fullSeen .K sFull = true ∧ sFull.mode = .DIRECT) ∧
      (Good sEmpty ∧ occupancy sEmpty = 0 ∧ emptySeen .P sEmpty = true) ∧
      (Good sStale ∧ sStale.mode = .SYNCED) :=
  ⟨⟨good_sFull, by decide⟩, ⟨good_sEmpty, by decide⟩, good_sStale, by decide⟩

theorem witness_IndexWidthIsTheLeast : 2 ≤ 2 ∧ 1 < 2 ∧ (1 ≤ 1 ∧ ∀ i, i < 2 → i < 2 ^ 1) := by decide

theorem witness_BetweenIsTheForwardWalk : 3 < 4 ∧ 0 < 4 := by decide

theorem witness_SyncTailMovesTheViewForward :
    (Good sSync ∧ sSync.sync = .synced 0 2 ∧ 1 ≤ dist sSync.C 2 sSync.tail ∧ dist sSync.C 2 sSync.tail < 2) ∧
      (Good sMid ∧ sMid.sync = .direct) :=
  ⟨⟨good_sSync, by decide⟩, good_sMid, by decide⟩

theorem witness_SyncHeadMovesTheViewForward :
    (Good sSync ∧ sSync.sync = .synced 0 2 ∧ 1 ≤ dist sSync.C 0 sSync.head ∧ dist sSync.C 0 sSync.head < 2) ∧
      (Good sMid ∧ sMid.sync = .direct) :=
  ⟨⟨good_sSync, by decide⟩, good_sMid, by decide⟩

theorem witness_ViewsAreMonotoneAndCausal :
    Good (setTrace [.syncTail 1] sSync) ∧ next? (step (setTrace [.syncTail 1] sSync)) ≠ none :=
  ⟨good_sSync.setTrace _, by decide⟩

/-- A run whose views start behind, catch up at moments 0 and 1, and whose environment then does nothing. -/
def fairSched (n : Nat) : TraceItem := if n = 0 then .syncTail 1 else if n = 1 then .syncHead 1 else .region 4095

def fairRun (n : Nat) : State :=
  if n = 0 then sSync else if n = 1 then synced 5 1 0 3 [0x01, 0x02, 0x03] else synced 5 1 1 3 [0x01, 0x02, 0x03]

theorem fairRun_late (n : Nat) : fairRun (n + 2) = synced 5 1 1 3 [0x01, 0x02, 0x03] := by
  simp [fairRun]

theorem witness_FairViewsCatchUp : IsRun fairSched fairRun ∧ Good (fairRun 0) ∧ (fairRun 0).mode = .SYNCED ∧
    FairTail fairSched fairRun ∧ FairHead fairSched fairRun ∧
    (∃ n, ∀ m, n ≤ m → (fairRun m).ghost.PU = (fairRun n).ghost.PU) ∧
    (∃ n, ∀ m, n ≤ m → (fairRun m).ghost.PO = (fairRun n).ghost.PO) := by
  have late : ∀ m, 2 ≤ m → fairRun m = synced 5 1 1 3 [0x01, 0x02, 0x03] := by
    intro m h
    obtain ⟨k, rfl⟩ : ∃ k, m = k + 2 := ⟨m - 2, by omega⟩
    exact fairRun_late k
  refine ⟨?_, good_sSync, rfl, ?_, ?_, ⟨2, fun m h => by rw [late m h, late 2 (by omega)]⟩,
    2, fun m h => by rw [late m h, late 2 (by omega)]⟩
  · intro n
    match n with
    | 0 => rfl
    | 1 => rfl
    | k + 2 => rw [fairRun_late, late (k + 2 + 1) (by omega)]; simp [fairSched]; rfl
  · intro n h
    exact absurd (by rw [late (n + 2) (by omega)]; decide) (h (n + 2) (by omega))
  · intro n h
    exact absurd (by rw [late (n + 2) (by omega)]; decide) (h (n + 2) (by omega))

/-- The `SYNCED` twin of `sMid`, its `head_view` one step behind. -/
def sTwin : State := synced 4 1 0 3 [0x41, 0x42, 0x43]

theorem witness_DirectRunsAreSyncedRuns :
    Good sMid ∧ Good sTwin ∧ DirectAsSynced sMid sTwin ∧ next? (runItem (.command 0x6055) sMid) ≠ none :=
  ⟨good_sMid, good_of_checks (by decide) ⟨rfl, rfl⟩ trivial trivial,
    ⟨rfl, rfl, rfl, rfl, rfl, rfl, rfl, rfl, rfl, rfl, rfl, rfl, rfl, rfl, rfl, rfl⟩, by decide⟩

theorem witness_BlockRefinesABoundedQueue : Good sMid ∧ next? (exec (.nop .K) sMid) ≠ none ∧
    next? (exec (.push 0x55) sMid) ≠ none ∧ next? (exec .pop sMid) ≠ none ∧
    next? (exec (.readInto 2) sMid) ≠ none :=
  ⟨good_sMid, by decide⟩

/-- `sSync` with the same queue one slot further on. -/
def sShifted : State := synced 5 2 1 3 [0x09, 0x01, 0x02, 0x03]

theorem witness_OnlyTheQueueMatters :
    (Good (setTrace [.command 0x9000] sSync) ∧ Good (setTrace [.command 0x9000] sShifted) ∧
      SameQueue (setTrace [.command 0x9000] sSync) (setTrace [.command 0x9000] sShifted) ∧
      next? (step (setTrace [.command 0x9000] sSync)) ≠ none) ∧
    (Good sEmpty ∧ Idle sEmpty ∧ sEmpty.head = sEmpty.tail ∧ obs .P .head sEmpty = sEmpty.head ∧
      obs .K .tail sEmpty = sEmpty.tail) :=
  ⟨⟨good_sSync.setTrace _,
      (good_of_checks (s := sShifted) (by decide) ⟨rfl, rfl⟩ trivial trivial).setTrace _,
      ⟨rfl, rfl, by decide, by decide, by decide, trivial, trivial, rfl, rfl, rfl, rfl⟩, by decide⟩,
    good_sEmpty, by decide⟩

/-- Each of the three clauses: a drain alone, one that ends, and one that bytes keep arriving for. -/
theorem witness_DrainEndsOnlyWhenItSeesNone :
    (Good sSync ∧ Ready .K sSync) ∧
      (∃ t, Draining sDrainEnd ∧ step sDrainEnd = .next t ∧ ¬ Draining t) ∧
      (Good sMid ∧ Idle sMid ∧ sMid.mode = .DIRECT ∧ emptySeen .K sMid = false) :=
  ⟨⟨good_sSync, by decide⟩, ⟨_, ⟨none, rfl⟩, rfl, fun ⟨_, h⟩ => by cases h⟩, good_sMid, by decide⟩

theorem witness_PortsAgreeWithOperations :
    (Ready .P sMid ∧ next? (exec (PIn.command ⟨true, 0x55⟩) sMid) ≠ none) ∧
      (Ready .P sMid ∧ next? (exec (PIn.command ⟨false, 0x55⟩) sMid) ≠ none) ∧
      (Ready .K sMid ∧ next? (exec (KIn.command ⟨true⟩) sMid) ≠ none) ∧
      (Ready .K sMid ∧ next? (exec (KIn.command ⟨false⟩) sMid) ≠ none) ∧
      (next? (exec (.isFull .P) sMid) ≠ none ∧ next? (exec (.isEmpty .P) sMid) ≠ none) ∧
      (next? (exec (.isFull .K) sMid) ≠ none ∧ next? (exec (.isEmpty .K) sMid) ≠ none) := by decide

/-- Full, empty, and neither. -/
theorem witness_SameEdgeIsASerialOrder :
    (Good sFull ∧ Idle sFull ∧ sFull.mode = .DIRECT ∧ emptySeen .K sFull = false) ∧
      (Good sEmpty ∧ Idle sEmpty ∧ sEmpty.mode = .DIRECT ∧ fullSeen .P sEmpty = false) ∧
      (Good sMid ∧ Idle sMid ∧ sMid.mode = .DIRECT ∧ emptySeen .K sMid = false ∧ fullSeen .P sMid = false) :=
  ⟨⟨good_sFull, by decide⟩, ⟨good_sEmpty, by decide⟩, good_sMid, by decide⟩

/-- The last index of two bits, whose successor wraps; the sampled word may be either code. -/
theorem witness_GrayCodeChangesOneBit : 3 < 2 ^ 2 ∧ 0 < 2 ∧
    (∀ k, (gray 3).testBit k = (gray 3).testBit k ∨ (gray 3).testBit k = (gray ((3 + 1) % 2 ^ 2)).testBit k) :=
  ⟨by decide, by decide, fun _ => .inl rfl⟩

theorem witness_AssemblerReadsWhatItWrites : (Instr.readInto 4095).wf = true ∧ (Instr.push 0x0A).wf = true := by decide

/-- A run that is over, one with an operation still in progress, and a reachable end of a run with a byte left that `K`
has not seen. -/
theorem witness_RunIsOverWhenNothingIsLeft :
    (Good sMid ∧ sMid.trace = [] ∧ RunOver sMid) ∧ (Good sDrain ∧ sDrain.trace = [] ∧ ¬ RunOver sDrain) ∧
      ∃ s, 2 ≤ (⟨4, .SYNCED⟩ : Config).C ∧ Reachable ⟨4, .SYNCED⟩ s ∧ RunOver s ∧ s.ghost.PO < s.ghost.PU :=
  ⟨⟨good_sMid, by decide⟩, ⟨good_sDrain, by decide⟩,
    _, by decide, .step _ _ (.reset [.command 0x6041]) rfl, by decide, by decide⟩

end Sys2Proof.Tests
end

/-! # The index width, and the refusals of the environment's contract -/

section
namespace Sys2Proof

/-- `AW` is the ceiling of the binary logarithm: `w` bits are enough exactly when they hold `C` values. -/
theorem AW_le_iff {C w : Nat} (hC : 2 ≤ C) : AW C ≤ w ↔ C ≤ 2 ^ w := by
  have hAW : AW C = Nat.log2 (C - 1) + 1 := by
    rw [AW, if_neg (by omega)]
    exact Nat.max_eq_right (Nat.succ_pos _)
  have hlog : Nat.log2 (C - 1) < w ↔ C - 1 < 2 ^ w := Nat.log2_lt (by omega)
  omega

/-- Settles O46: `w` bits hold every index exactly when they hold the last one, `C - 1`. -/
theorem indexWidthIsTheLeast : Obligations.IndexWidthIsTheLeast := by
  intro C hC
  refine ⟨Nat.le_max_left _ _, fun i hi => ?_, fun w _ hw => ?_⟩
  · have hfit : C ≤ 2 ^ AW C := (AW_le_iff hC).mp le_rfl
    exact hi.trans_le hfit
  · have hlast : C - 1 < 2 ^ w := hw (C - 1) (by omega)
    exact (AW_le_iff hC).mpr (by omega)

end Sys2Proof

namespace Sys2Proof.Machine

variable {s : State} {a : Agent} {r : Refusal}

@[simp] theorem andThen_refused (r : Refusal) (f : State → Host.Outcome State Fault Refusal) :
    andThen (.refused r) f = .refused r := rfl

/-! What each breach makes of the checks. -/

theorem contract_of_capacity (h : s.C < 2) : contract s = some .capacityTooSmall := by
  simp [contract, h]

theorem contract_of_index (hC : 2 ≤ s.C) (h : indicesInRange s = false) : contract s = some .indexOutOfRange := by
  have : ¬ s.C < 2 := by omega
  simp [contract, this, h]

theorem insidePush_K (hm : s.mode = .DIRECT) (hp : busy .P s = true) : insidePush .K s = true := by
  simp [insidePush, hm, hp]

theorem cannotBegin_of_contract (h : contract s = some r) : cannotBegin a s = some r := by
  simp [cannotBegin, h]

theorem cannotBegin_of_busy (hc : contract s = none) (hb : busy a s = true) :
    cannotBegin a s = some (.operationInProgress a) := by
  simp [cannotBegin, hc, hb]

theorem cannotBegin_of_insidePush (hc : contract s = none) (hb : busy a s = false) (hi : insidePush a s = true) :
    cannotBegin a s = some .consumerInsidePush := by
  simp [cannotBegin, hc, hb, hi]

theorem cannotContinue_of_contract (h : contract s = some r) : cannotContinue a s = some r := by
  simp [cannotContinue, h]

theorem cannotContinue_of_not_busy (hc : contract s = none) (hb : busy a s = false) :
    cannotContinue a s = some (.nothingInProgress a) := by
  simp [cannotContinue, hc, hb]

theorem cannotContinue_of_insidePush (hc : contract s = none) (hb : busy a s = true) (hi : insidePush a s = true) :
    cannotContinue a s = some .consumerInsidePush := by
  simp [cannotContinue, hc, hb, hi]

theorem regionCheck_of_short {n : Nat} (h : s.regionLen < n) : regionCheck n s = some .regionTooShort := by
  have : ¬ n ≤ s.regionLen := by omega
  simp [regionCheck, this]

/-! Every operation, begun or whole, and every micro-step answers what its check answers. -/

theorem exec_of_cannotBegin {i : Instr} (h : cannotBegin i.agent s = some r) : exec i s = .refused r := by
  cases i <;> simp only [Instr.agent] at h
  case nop => simp [exec, execNop, h]
  case isEmpty => simp [exec, execIsEmpty, h]
  case isFull => simp [exec, execIsFull, h]
  case push => simp [exec, execPush, h]
  case pop => simp [exec, execPop, h]
  case readInto => simp [exec, execReadInto, h]

theorem beginOp_of_cannotBegin {i : Instr} (h : cannotBegin i.agent s = some r) : beginOp i s = .refused r := by
  cases i
  case nop | isEmpty | isFull => exact exec_of_cannotBegin h
  case push | pop | readInto => simp only [Instr.agent] at h; simp [beginOp, h]

theorem exec_readInto_of_short {n : Nat} (hr : Ready .K s) (h : s.regionLen < n) :
    exec (.readInto n) s = .refused .regionTooShort := by
  simp [exec, execReadInto, hr, regionCheck_of_short h]

theorem beginOp_readInto_of_short {n : Nat} (hr : Ready .K s) (h : s.regionLen < n) :
    beginOp (.readInto n) s = .refused .regionTooShort := by
  simp [beginOp, hr, regionCheck_of_short h]

theorem microStep_of_cannotContinue (h : cannotContinue a s = some r) : microStep a s = .refused r := by
  simp [microStep, h]

theorem drainBegin_of_cannotBegin (h : cannotBegin .K s = some r) : drainBegin s = .refused r := by
  simp [drainBegin, h]

theorem runDrain_of_cannotBegin (h : cannotBegin .K s = some r) : runDrain s = .refused r := by
  rw [runDrain, exec_of_cannotBegin (i := .pop) h, andThen_refused]

/-- Settles O24: each breach gives its check a name, and the operation, micro-step or drain answers that name. -/
theorem contractBreachesAreRefused : Obligations.ContractBreachesAreRefused := by
  refine ⟨fun i s run hrun => ?_, fun a s => ⟨?_, ?_, ?_⟩, fun s r h => ?_⟩
  · have refuses {r : Refusal} (h : cannotBegin i.agent s = some r) : run s = .refused r := by
      rcases hrun with rfl | rfl
      · exact exec_of_cannotBegin h
      · exact beginOp_of_cannotBegin h
    refine ⟨fun hC => ?_, fun hC hx => ?_, fun hc hb => ?_, fun hc hb ha hm hp => ?_, fun n hn hr hlen => ?_⟩
    · exact refuses (cannotBegin_of_contract (contract_of_capacity hC))
    · exact refuses (cannotBegin_of_contract (contract_of_index hC hx))
    · exact refuses (cannotBegin_of_busy hc hb)
    · exact refuses (cannotBegin_of_insidePush hc hb (ha ▸ insidePush_K hm hp))
    · subst hn
      rcases hrun with rfl | rfl
      · exact exec_readInto_of_short hr hlen
      · exact beginOp_readInto_of_short hr hlen
  · exact fun r h => microStep_of_cannotContinue (cannotContinue_of_contract h)
  · exact fun hc hb => microStep_of_cannotContinue (cannotContinue_of_not_busy hc hb)
  · exact fun hc hb hm hp => microStep_of_cannotContinue (cannotContinue_of_insidePush hc hb (insidePush_K hm hp))
  · exact ⟨drainBegin_of_cannotBegin h, runDrain_of_cannotBegin h⟩

end Sys2Proof.Machine
end

/-! # The invariant: reset, every step, and what every reachable state keeps -/

section
namespace Sys2Proof.Machine

variable {s t : State} {w : CmdWord} {i : Instr}

/-! What the entries of the trace can do. -/

theorem runCommand_of_decode (hd : decode w = .ok i) : runCommand w s = exec i s := by simp only [runCommand, hd]

theorem startCommand_of_decode (hd : decode w = .ok i) : startCommand w s = beginOp i s := by
  simp only [startCommand, hd]

/-- A whole command that completes is the operation its word decodes to. -/
theorem runCommand_cases (he : runCommand w s = .next t) : ∃ i, decode w = .ok i ∧ exec i s = .next t := by
  cases hd : decode w with
  | ok i => exact ⟨i, rfl, runCommand_of_decode hd ▸ he⟩
  | error why => simp [runCommand, hd] at he

/-- A command that is begun is the operation its word decodes to. -/
theorem startCommand_cases (he : startCommand w s = .next t) : ∃ i, decode w = .ok i ∧ beginOp i s = .next t := by
  cases hd : decode w with
  | ok i => exact ⟨i, rfl, startCommand_of_decode hd ▸ he⟩
  | error why => simp [startCommand, hd] at he

/-- The next micro-step of `P` is P2 or P3 of the `PUSH` in progress. -/
theorem microStep_P_cases (he : microStep .P s = .next t) : t = pushContinue s := by
  obtain ⟨-, he⟩ := unlessRefused_next.mp he
  cases he; rfl

/-- One step of a drain is one `POP`, after which the entry is gone or stands in front of the trace again. -/
theorem runDrain_cases (he : runDrain s = .next t) :
    ∃ u, exec .pop s = .next u ∧ (t = u ∨ t = setTrace (.drain :: u.trace) u) := by
  obtain ⟨u, hu, ht⟩ := andThen_next_iff.mp he
  refine ⟨u, hu, ?_⟩
  split at ht <;> cases ht
  · exact .inl rfl
  · exact .inr rfl

theorem drainBegin_cases (he : drainBegin s = .next t) : Ready .K s ∧ t = drainK1 s := by
  obtain ⟨hr, he⟩ := unlessRefused_next.mp he
  cases he; exact ⟨hr, rfl⟩

/-! The invariant holds at reset, every step keeps it, so every reachable state has it. -/

/-- The reset state satisfies the invariant. -/
theorem good_reset {cfg : Config} (hC : 2 ≤ cfg.C) : Good (State.resetWith cfg) where
  capacity := hC
  tail_eq := (Nat.zero_mod _).symm
  head_eq := (Nat.zero_mod _).symm
  views := by
    cases hm : cfg.mode <;> simp [viewsAgree, State.resetWith, Ghost.reset, hm]
  hv_le_po := le_rfl
  po_le_tv := le_rfl
  tv_le_pu := le_rfl
  pu_le := show 0 + 1 ≤ 0 + cfg.C by omega
  in_length := rfl
  fifo := rfl
  data := fun _ hj => absurd hj (Nat.not_lt_zero _)
  storage_wf := .nil
  storage_slots := fun _ hc => absurd hc List.not_mem_nil
  out_wf := .nil
  push_ok := trivial
  consumer_ok := trivial

/-- Settles O2: the ghosts are 0 and no byte is stored, so the counters are chained and no slot is claimed. -/
theorem invariantHoldsAtReset : Obligations.InvariantHoldsAtReset :=
  fun _ trace hC => (good_reset hC).setTrace trace

theorem good_microStep {a : Agent} (h : Good s) (he : microStep a s = .next t) : Good t := by
  cases a with
  | P => exact microStep_P_cases he ▸ good_pushContinue h
  | K =>
    obtain ⟨p, hk, he⟩ | ⟨n, c, p, hk, he⟩ | ⟨p, hk, he⟩ := microStep_K_cases he
    · exact good_popContinue h hk he
    · exact good_readContinue h hk he
    · exact good_drainContinue h hk he

theorem good_runDrain (h : Good s) (he : runDrain s = .next t) : Good t := by
  obtain ⟨u, hu, rfl | rfl⟩ := runDrain_cases he
  · exact good_exec _ h hu
  · exact (good_exec _ h hu).setTrace _

/-- Every entry of the trace keeps the invariant. -/
theorem good_runItem {x : TraceItem} (h : Good s) (he : runItem x s = .next t) : Good t := by
  cases x with
  | command w => obtain ⟨i, -, he⟩ := runCommand_cases he; exact good_exec i h he
  | start w => obtain ⟨i, -, he⟩ := startCommand_cases he; exact good_beginOp i h he
  | micro a => exact good_microStep h he
  | syncHead k => exact good_syncHead h he
  | syncTail k => exact good_syncTail h he
  | drain => exact good_runDrain h he
  | startDrain => obtain ⟨-, rfl⟩ := drainBegin_cases he; exact good_drainK1 h
  | region len => cases he; exact h.of_same rfl rfl rfl rfl rfl rfl rfl rfl rfl
  | rst => cases he

/-- Settles O3: a step performs one entry of the trace or changes nothing, and every entry keeps the invariant. -/
theorem stepKeepsInvariant : Obligations.StepKeepsInvariant := by
  intro s t h he
  obtain ⟨-, rfl⟩ | ⟨x, -, he⟩ := step_cases he
  · exact h
  · exact good_runItem (h.setTrace _) he

theorem Reachable.good {cfg : Config} (hC : 2 ≤ cfg.C) (hr : Reachable cfg s) : Good s := by
  induction hr with
  | reset trace => exact invariantHoldsAtReset cfg trace hC
  | step s t _ he ih => exact stepKeepsInvariant s t ih he

/-- Settles O4: in a good state each index is a count modulo `C`. -/
theorem indicesStayInRange : Obligations.IndicesStayInRange := by
  intro cfg s hC hr
  have h := hr.good hC
  exact ⟨Nat.zero_le _, h.head_lt, Nat.zero_le _, h.tail_lt⟩

/-- The chain of the ghost counters (10_state.md R27). -/
theorem Good.chain (h : Good s) : s.ghost.HV ≤ s.ghost.PO ∧ s.ghost.PO ≤ s.ghost.TV ∧ s.ghost.TV ≤ s.ghost.PU ∧
    s.ghost.PU + 1 ≤ s.ghost.HV + s.C :=
  ⟨h.hv_le_po, h.po_le_tv, h.tv_le_pu, h.pu_le⟩

/-- Settles O5: the chain is part of the invariant, and the distances of wrapped indices are the differences of their
counters because none of these exceeds `C - 1`. -/
theorem ghostCountersAreChained : Obligations.GhostCountersAreChained := by
  intro cfg s hC hr
  have h := hr.good hC
  have hcap := h.capacity
  obtain ⟨hHV, hPO, hTV, hPU⟩ := h.chain
  rw [h.occupancy, h.head_lag, h.tail_lag]
  refine ⟨hHV, hPO, hTV, ?_, rfl, ?_, rfl, ?_, rfl, ?_⟩ <;> omega

/-! The occupied slots. -/

theorem Good.in_isSome (h : Good s) {j : Nat} (hj : j < s.ghost.PU) : (s.ghost.IN[j]?).isSome = true := by
  have : j < s.ghost.IN.length := h.in_length ▸ hj
  simp [this]

/-- Two counts from `PO` up to `PU`, both included, that fall on one slot are equal. -/
theorem Good.eq_of_same_slot (h : Good s) {j k : Nat} (hj : s.ghost.PO ≤ j) (hj' : j ≤ s.ghost.PU)
    (hk : s.ghost.PO ≤ k) (hk' : k ≤ s.ghost.PU) (e : j % s.C = k % s.C) : j = k := by
  have := h.chain
  rcases Nat.le_total j k with hle | hle
  · exact eq_of_mod_eq hle (by omega) e
  · exact (eq_of_mod_eq hle (by omega) e.symm).symm

/-- The slot that the next `PUSH` writes is not occupied. -/
theorem Good.slot_ne_tail (h : Good s) {j : Nat} (hj : s.ghost.PO ≤ j) (hj' : j < s.ghost.PU) : j % s.C ≠ s.tail := by
  intro e
  have := h.chain
  have := h.eq_of_same_slot hj hj'.le (by omega) le_rfl (h.tail_eq ▸ e)
  omega

/-- A whole `PUSH` writes no slot but the one `tail` names. -/
theorem exec_push_read_other {b : Byte} (he : exec (.push b) s = .next t) {a : Nat} (ha : a ≠ s.tail) :
    Memory.read t.storage a = Memory.read s.storage a := by
  obtain ⟨-, ⟨-, rfl⟩ | ⟨-, rfl⟩⟩ := exec_push_cases he
  · rfl
  · exact read_write_other _ _ ha

/-- Settles O6: the counts from `PO` to `PU` span fewer than `C` slots, so no two of them meet, and `tail`, the slot of
`PU`, is met by none of the others. -/
theorem occupiedSlotsHoldUnpoppedBytes : Obligations.OccupiedSlotsHoldUnpoppedBytes := by
  intro cfg s hC hr
  have h := hr.good hC
  refine ⟨fun j hj hj' => ⟨h.data j hj' hj, h.in_isSome hj', h.slot_ne_tail hj hj'⟩, ?_,
    fun j k hj hj' hk hk' => h.eq_of_same_slot hj hj'.le hk hk'.le, h.tail_eq, fun he => ?_,
    fun b t he j hj hj' => exec_push_read_other he (h.slot_ne_tail hj hj')⟩
  · have := h.chain
    omega
  · obtain ⟨v, hv, -⟩ := h.read_head (h.emptySeen_K_false.mp he)
    simp [hv]

/-! No step of a good state faults. -/

/-- Where `K` has seen a byte that it has not popped, the read of `storage[head]` succeeds. -/
theorem Good.memRead_head (h : Good s) (hlt : s.ghost.PO < s.ghost.TV) : ∃ v, memRead s s.head = .ok v := by
  obtain ⟨v, hv, -⟩ := h.read_head hlt
  exact ⟨v, memRead_ok.mpr hv⟩

theorem Good.popOnce_ok (h : Good s) : ∃ r, popOnce s = .ok r := by
  cases hp : popOnce s with
  | ok r => exact ⟨r, rfl⟩
  | error f =>
    obtain ⟨he, hv, -⟩ := popOnce_error hp
    obtain ⟨v, hv', -⟩ := h.read_head (h.emptySeen_K_false.mp he)
    rw [hv] at hv'; cases hv'

/-- No operation faults in a good state. -/
theorem Good.exec_ne_fault (h : Good s) (i : Instr) (f : Fault) : exec i s ≠ .fault f := by
  intro he
  cases i <;> simp only [exec, execNop, execIsEmpty, execIsFull, execPush, execPop, execReadInto,
    unlessRefused_fault, ofExcept_fault] at he
  case nop | isEmpty | isFull | push => simp at he
  case pop =>
    obtain ⟨r, hr⟩ := h.popOnce_ok
    simp [popWhole, hr] at he
  case readInto n =>
    obtain ⟨hready, -, he⟩ := he
    have hk := Ready.kOp_idle hready
    obtain ⟨vs, hvs, -⟩ := readLoop_good (l := n) (c := 0) (good_freshRegion h hk) hk
    rw [hvs] at he; cases he

/-- No operation faults when it is begun: the first micro-step reads no slot. -/
theorem Good.beginOp_ne_fault (h : Good s) (i : Instr) (f : Fault) : beginOp i s ≠ .fault f := by
  intro he
  cases i
  case nop a => exact h.exec_ne_fault (.nop a) f he
  case isEmpty a => exact h.exec_ne_fault (.isEmpty a) f he
  case isFull a => exact h.exec_ne_fault (.isFull a) f he
  case push | pop | readInto => simp [beginOp, unlessRefused_fault] at he

/-- What `K` has in progress goes on without a fault: K2 reads a slot only after a K1 that saw a byte. -/
theorem Good.microStep_ne_fault (h : Good s) (a : Agent) (f : Fault) : microStep a s ≠ .fault f := by
  intro he
  obtain ⟨-, he⟩ := unlessRefused_fault.mp he
  have hc := h.consumer_ok
  unfold consumerInProgressOk at hc
  cases a with
  | P => cases he
  | K =>
    cases hk : s.kOp with
    | idle => simp [hk] at he
    | pop p =>
      cases p with
      | afterK1 x =>
        obtain ⟨v, hv⟩ := h.memRead_head (by simpa [hk] using hc)
        simp [hk, popContinue, hv] at he
      | afterK2 x v => simp [hk, popContinue] at he
    | readInto n c p =>
      rcases p with - | (x | ⟨x, v⟩)
      · simp [hk, readContinue] at he
      · simp only [hk] at hc
        obtain ⟨v, hv⟩ := h.memRead_head hc.2
        simp [hk, readContinue, hv] at he
      · simp only [hk, readContinue, ofExcept_fault] at he
        split at he <;> cases he
    | drain p =>
      rcases p with - | (x | ⟨x, v⟩)
      · simp [hk, drainContinue] at he
      · obtain ⟨v, hv⟩ := h.memRead_head (by simpa [hk] using hc)
        simp [hk, drainContinue, hv] at he
      · simp [hk, drainContinue] at he

/-- No entry of the trace faults in a good state. -/
theorem Good.runItem_ne_fault (h : Good s) (x : TraceItem) (f : Fault) : runItem x s ≠ .fault f := by
  intro he
  cases x with
  | command w =>
    simp only [runItem, runCommand] at he
    split at he
    · exact h.exec_ne_fault _ f he
    · cases he
  | start w =>
    simp only [runItem, startCommand] at he
    split at he
    · exact h.beginOp_ne_fault _ f he
    · cases he
  | micro a => exact h.microStep_ne_fault a f he
  | syncHead k =>
    obtain ⟨-, he⟩ := unlessRefused_fault.mp he
    split at he
    · cases he
    · split at he <;> cases he
  | syncTail k =>
    obtain ⟨-, he⟩ := unlessRefused_fault.mp he
    split at he
    · cases he
    · split at he <;> cases he
  | drain =>
    obtain he | ⟨u, -, he⟩ := andThen_fault_iff.mp he
    · exact h.exec_ne_fault .pop f he
    · cases he
  | startDrain => simp [runItem, drainBegin, unlessRefused_fault] at he
  | region len => cases he
  | rst => cases he

/-- Settles O8: the only read that can fault is that of `storage[head]`, and it comes after `K` saw a byte. -/
theorem goodStatesNeverFault : Obligations.GoodStatesNeverFault := by
  intro s f h he
  cases hx : nextItem s with
  | none => rw [step_none hx] at he; cases he
  | some x => exact (h.setTrace _).runItem_ne_fault x f (step_some hx ▸ he)

end Sys2Proof.Machine
end

/-! # The flags, the reset table, and the micro-steps one by one -/

section
namespace Sys2Proof.Machine

/-! The flags. -/

theorem emptyOf_iff {h t : Nat} : emptyOf h t = true ↔ h = t := by simp [emptyOf]

theorem fullOf_iff {C h t : Nat} : fullOf C h t = true ↔ inc C t = h := by simp [fullOf]

theorem dist_le {C : Nat} (hC : 0 < C) (a b : Nat) : dist C a b ≤ C - 1 :=
  Nat.le_sub_one_of_lt (Nat.mod_lt _ hC)

theorem dist_eq_zero {C h t : Nat} (hh : h < C) (ht : t < C) : dist C h t = 0 ↔ h = t := by
  rw [dist_of_lt hh ht]
  split <;> omega

/-- The distance is greatest when the second index stands just behind the first. -/
theorem dist_eq_pred {C h t : Nat} (hh : h < C) (ht : t < C) : dist C h t = C - 1 ↔ inc C t = h := by
  rw [dist_of_lt hh ht, inc_of_lt ht]
  split <;> split <;> omega

/-- Where there is more than one slot, no index is its own successor. -/
theorem inc_ne_self {C : Nat} (hC : 2 ≤ C) (i : Nat) : inc C i ≠ i := by
  intro e
  have hi : i < C := e ▸ inc_lt hC i
  rw [inc_of_lt hi] at e
  split at e <;> omega

/-- One pair of indices is never both empty and full. -/
theorem not_empty_and_full {C : Nat} (hC : 2 ≤ C) (h t : Nat) : ¬ (emptyOf h t = true ∧ fullOf C h t = true) := by
  rintro ⟨he, hf⟩
  rw [emptyOf_iff] at he
  rw [fullOf_iff, he] at hf
  exact inc_ne_self hC t hf

/-- Settles O42: each flag is one distance, and both would make an index its own successor. -/
theorem flagsFollowOccupancy : Obligations.FlagsFollowOccupancy := by
  refine ⟨fun C h t hC hh ht => ⟨dist_le (by omega) h t, ?_, ?_, not_empty_and_full hC h t⟩,
    fun a s hC => not_empty_and_full hC (obs a .head s) (obs a .tail s)⟩
  · rw [emptyOf_iff, dist_eq_zero hh ht]
  · rw [fullOf_iff, dist_eq_pred hh ht]

/-! The reset table. -/

@[simp] theorem resetWith_mode (cfg : Config) : (State.resetWith cfg).mode = cfg.mode := by
  cases h : cfg.mode <;> simp [State.mode, State.resetWith, h]

/-- At reset each agent sees both indices at 0. -/
@[simp] theorem resetWith_obs (cfg : Config) (a : Agent) (r : IndexReg) : obs a r (State.resetWith cfg) = 0 := by
  cases a <;> cases r <;> cases h : cfg.mode <;> simp [obs, State.resetWith, h]

theorem resetWith_headView (cfg : Config) :
    headView (State.resetWith cfg) = if cfg.mode = .SYNCED then some 0 else none := by
  cases h : cfg.mode <;> simp [headView, State.resetWith, h]

theorem resetWith_tailView (cfg : Config) :
    tailView (State.resetWith cfg) = if cfg.mode = .SYNCED then some 0 else none := by
  cases h : cfg.mode <;> simp [tailView, State.resetWith, h]

/-- At reset the buffer is empty for both agents. -/
theorem resetWith_emptySeen (cfg : Config) (a : Agent) : emptySeen a (State.resetWith cfg) = true := by
  simp [emptySeen_iff]

/-- At reset the buffer is full for neither agent. -/
theorem resetWith_fullSeen {cfg : Config} (hC : 2 ≤ cfg.C) (a : Agent) : fullSeen a (State.resetWith cfg) = false := by
  rw [← Bool.not_eq_true, fullSeen_iff, resetWith_obs, resetWith_obs]
  exact inc_ne_self hC 0

/-- Settles O1: the table row by row. -/
theorem resetLeavesTheTableOfValues : Obligations.ResetLeavesTheTableOfValues :=
  ⟨fun cfg hC => ⟨rfl, resetWith_mode cfg, rfl, rfl, fun _ => rfl, resetWith_headView cfg, resetWith_tailView cfg,
    fun a => ⟨resetWith_emptySeen cfg a, resetWith_fullSeen hC a⟩, ⟨rfl, rfl⟩, rfl, rfl, rfl, rfl, rfl⟩, rfl⟩

/-! The micro-steps. -/

/-- Settles O33: P1 in its two cases, P2, and P3. -/
theorem pushMicroStepsInOrder : Obligations.PushMicroStepsInOrder := fun s b _ =>
  ⟨fun hr hf => beginOp_push_full b hr hf, fun hr hf => beginOp_push_room b hr hf,
    fun hc hp => microStep_P2 hc hp,
    fun hc hp => ⟨s.ghost.pushed s.mode b, microStep_P3 hc hp, Ghost_pushed_PU _ _ _, Ghost_pushed_IN _ _ _⟩⟩

/-- Settles O34: K1 in its two cases, K2, and K3. -/
theorem popMicroStepsInOrder : Obligations.PopMicroStepsInOrder := fun s _ v =>
  ⟨fun hr he => beginOp_pop_empty hr he, fun hr he => beginOp_pop_some hr he,
    fun hc hi hk hv => microStep_K2 hc hi hk hv,
    fun hc hi hk => ⟨s.ghost.popTaken s.mode v, microStep_K3 hc hi hk, Ghost_popTaken_PO _ _ _,
      Ghost_popTaken_popped _ _ _⟩⟩

end Sys2Proof.Machine
end

/-! # The ghosts decide nothing -/

section
namespace Sys2Proof.Machine

/-! Outcomes that agree, up to a relation of the next states. -/

/-- The same fault, the same refusal, or next states that `R` relates. -/
def SameOutcome (R : State → State → Prop) : (o o' : Host.Outcome State Fault Refusal) → Prop
  | .next s, .next t => R s t
  | .fault f, .fault f' => f = f'
  | .refused r, .refused r' => r = r'
  | _, _ => False

section combinators
variable {R : State → State → Prop} {s t : State} {o o' : Host.Outcome State Fault Refusal}

@[simp] theorem sameOutcome_refused {r r' : Refusal} : SameOutcome R (.refused r) (.refused r') ↔ r = r' := Iff.rfl

theorem SameOutcome.next_left (h : SameOutcome R (.next s) o') : ∃ t, o' = .next t ∧ R s t := by
  cases o' with
  | next t => exact ⟨t, rfl, h⟩
  | fault f => exact h.elim
  | refused r => exact h.elim

theorem SameOutcome.fault_left {f : Fault} (h : SameOutcome R (.fault f) o') : o' = .fault f := by
  cases o' with
  | next t => exact h.elim
  | fault f' => exact congrArg _ (Eq.symm h)
  | refused r => exact h.elim

theorem SameOutcome.refused_left {r : Refusal} (h : SameOutcome R (.refused r) o') : o' = .refused r := by
  cases o' with
  | next t => exact h.elim
  | fault f => exact h.elim
  | refused r' => exact congrArg _ (Eq.symm h)

/-- A check that answers the same on both sides may be taken to find nothing wrong. -/
theorem SameOutcome.unlessRefused {c c' : Option Refusal} (hc : c' = c) (h : c = none → SameOutcome R o o') :
    SameOutcome R (Machine.unlessRefused c o) (Machine.unlessRefused c' o') := by
  subst hc
  cases c' with
  | none => exact h rfl
  | some r => exact rfl

theorem SameOutcome.andThen {f f' : State → Host.Outcome State Fault Refusal} (h : SameOutcome R o o')
    (hf : ∀ s t, R s t → SameOutcome R (f s) (f' t)) :
    SameOutcome R (Machine.andThen o f) (Machine.andThen o' f') := by
  cases o with
  | next s =>
    obtain ⟨t, rfl, hR⟩ := h.next_left
    exact hf s t hR
  | fault r => rw [h.fault_left]; rfl
  | refused r => rw [h.refused_left]; rfl

theorem SameOutcome.ite {c : Prop} [Decidable c] {p p' : Host.Outcome State Fault Refusal} (h : SameOutcome R o o')
    (h' : SameOutcome R p p') : SameOutcome R (if c then o else p) (if c then o' else p') := by
  split
  · exact h
  · exact h'

end combinators

/-! States that differ in the ghosts only. -/

/-- `s` with other ghosts. -/
def withGhost (g : Ghost) (s : State) : State := { s with ghost := g }

/-- The two states agree on everything but the ghosts. -/
def SameButGhost (s t : State) : Prop := ∃ g, t = withGhost g s

theorem SameButGhost.ite {c : Prop} [Decidable c] {s t s' t' : State} (h : SameButGhost s s') (h' : SameButGhost t t') :
    SameButGhost (if c then s else t) (if c then s' else t') := by
  split
  · exact h
  · exact h'

section
variable (g : Ghost) (s : State)

/-! What `POP` decides from reads no ghost. -/

@[simp] theorem withGhost_emptySeen (a : Agent) : emptySeen a (withGhost g s) = emptySeen a s := rfl
@[simp] theorem withGhost_memRead (i : Nat) : memRead (withGhost g s) i = memRead s i := rfl
@[simp] theorem withGhost_head : (withGhost g s).head = s.head := rfl

theorem pushWhole_ghost (b : Byte) : SameButGhost (pushWhole b s) (pushWhole b (withGhost g s)) :=
  .ite ⟨_, rfl⟩ ⟨_, rfl⟩

theorem pushBegin_ghost (b : Byte) : SameButGhost (pushBegin b s) (pushBegin b (withGhost g s)) :=
  .ite ⟨_, rfl⟩ ⟨_, rfl⟩

theorem pushContinue_ghost : SameButGhost (pushContinue s) (pushContinue (withGhost g s)) := by
  have e : (withGhost g s).pOp = s.pOp := rfl
  unfold pushContinue
  rw [e]
  cases s.pOp <;> exact ⟨_, rfl⟩

theorem popBegin_ghost : SameButGhost (popBegin s) (popBegin (withGhost g s)) :=
  .ite ⟨_, rfl⟩ ⟨_, rfl⟩

theorem drainK1_ghost : SameButGhost (drainK1 s) (drainK1 (withGhost g s)) :=
  .ite ⟨_, rfl⟩ ⟨_, rfl⟩

theorem readK1_ghost (n count : Nat) : SameButGhost (readK1 n count s) (readK1 n count (withGhost g s)) :=
  .ite ⟨_, rfl⟩ ⟨_, rfl⟩

theorem readBegin_ghost (n : Nat) : SameButGhost (readBegin n s) (readBegin n (withGhost g s)) :=
  .ite ⟨_, rfl⟩ (readK1_ghost g (freshRegion s) n 0)

/-- One `POP` finds the ring empty, takes the same byte, or faults on the same slot, whatever the ghosts. -/
theorem popOnce_ghost :
    (popOnce s = .ok (none, s) ∧ popOnce (withGhost g s) = .ok (none, withGhost g s)) ∨
      (∃ v, popOnce s = .ok (some v, advanceHead v s) ∧
        popOnce (withGhost g s) = .ok (some v, advanceHead v (withGhost g s))) ∨
      ∃ f, popOnce s = .error f ∧ popOnce (withGhost g s) = .error f := by
  cases he : emptySeen .K s with
  | true => exact .inl ⟨popOnce_empty he, popOnce_empty he⟩
  | false =>
    cases hv : Memory.read s.storage s.head with
    | some v => exact .inr (.inl ⟨v, popOnce_some he hv, popOnce_some he hv⟩)
    | none =>
      have hf : memRead s s.head = .error (.unwrittenSlot s.head) := memRead_error.mpr ⟨hv, rfl⟩
      exact .inr (.inr ⟨.unwrittenSlot s.head, by simp [popOnce, he, hf], by simp [popOnce, he, hf]⟩)

theorem popWhole_ghost : SameOutcome SameButGhost (ofExcept (popWhole s)) (ofExcept (popWhole (withGhost g s))) := by
  obtain ⟨h, h'⟩ | ⟨v, h, h'⟩ | ⟨f, h, h'⟩ := popOnce_ghost g s <;> simp only [popWhole, h, h']
  · exact ⟨g, rfl⟩
  · exact ⟨_, rfl⟩
  · exact rfl

theorem readLoop_ghost (left count : Nat) :
    SameOutcome SameButGhost (ofExcept (readLoop left count s)) (ofExcept (readLoop left count (withGhost g s))) := by
  induction left generalizing count s g with
  | zero => exact ⟨g, rfl⟩
  | succ left ih =>
    obtain ⟨h, h'⟩ | ⟨v, h, h'⟩ | ⟨f, h, h'⟩ := popOnce_ghost g s <;> simp only [readLoop, h, h']
    · exact ⟨g, rfl⟩
    · exact ih (advanceHead v (withGhost g s)).ghost (outWrite count v (advanceHead v s)) (count + 1)
    · exact rfl

theorem popContinue_ghost (p : PopOp) :
    SameOutcome SameButGhost (ofExcept (popContinue p s)) (ofExcept (popContinue p (withGhost g s))) := by
  cases p with
  | afterK1 t =>
    simp only [popContinue, withGhost_memRead, withGhost_head]
    cases memRead s s.head with
    | ok v => exact ⟨g, rfl⟩
    | error f => exact rfl
  | afterK2 t v => exact ⟨_, rfl⟩

theorem readContinue_ghost (n count : Nat) (p : Option PopOp) :
    SameOutcome SameButGhost (ofExcept (readContinue n count p s)) (ofExcept (readContinue n count p (withGhost g s))) := by
  rcases p with - | (t | ⟨t, v⟩)
  · exact readK1_ghost g s n count
  · simp only [readContinue, withGhost_memRead, withGhost_head]
    cases memRead s s.head with
    | ok v => exact ⟨g, rfl⟩
    | error f => exact rfl
  · simp only [readContinue]
    split <;> exact ⟨_, rfl⟩

theorem drainContinue_ghost (p : Option PopOp) :
    SameOutcome SameButGhost (ofExcept (drainContinue p s)) (ofExcept (drainContinue p (withGhost g s))) := by
  rcases p with - | (t | ⟨t, v⟩)
  · exact drainK1_ghost g s
  · simp only [drainContinue, withGhost_memRead, withGhost_head]
    cases memRead s s.head with
    | ok v => exact ⟨g, rfl⟩
    | error f => exact rfl
  · exact ⟨_, rfl⟩

/-! The operations, their first and next micro-steps, and the other entries of the trace. -/

theorem exec_ghost (i : Instr) : SameOutcome SameButGhost (exec i s) (exec i (withGhost g s)) := by
  cases i with
  | nop a => exact .unlessRefused rfl fun _ => ⟨g, rfl⟩
  | isEmpty a => exact .unlessRefused rfl fun _ => ⟨g, rfl⟩
  | isFull a => exact .unlessRefused rfl fun _ => ⟨g, rfl⟩
  | push b => exact .unlessRefused rfl fun _ => pushWhole_ghost g s b
  | pop => exact .unlessRefused rfl fun _ => popWhole_ghost g s
  | readInto n => exact .unlessRefused rfl fun _ => .unlessRefused rfl fun _ => readLoop_ghost g (freshRegion s) n 0

theorem beginOp_ghost (i : Instr) : SameOutcome SameButGhost (beginOp i s) (beginOp i (withGhost g s)) := by
  cases i with
  | nop a => exact exec_ghost g s (.nop a)
  | isEmpty a => exact exec_ghost g s (.isEmpty a)
  | isFull a => exact exec_ghost g s (.isFull a)
  | push b => exact .unlessRefused rfl fun _ => pushBegin_ghost g s b
  | pop => exact .unlessRefused rfl fun _ => popBegin_ghost g s
  | readInto n => exact .unlessRefused rfl fun _ => .unlessRefused rfl fun _ => readBegin_ghost g s n

theorem microStep_ghost (a : Agent) : SameOutcome SameButGhost (microStep a s) (microStep a (withGhost g s)) := by
  refine .unlessRefused rfl fun _ => ?_
  have e : (withGhost g s).kOp = s.kOp := rfl
  cases a with
  | P => exact pushContinue_ghost g s
  | K =>
    simp only [e]
    cases s.kOp with
    | idle => exact rfl
    | pop p => exact popContinue_ghost g s p
    | readInto n c p => exact readContinue_ghost g s n c p
    | drain p => exact drainContinue_ghost g s p

theorem syncHead_ghost (k : Nat) : SameOutcome SameButGhost (syncHead k s) (syncHead k (withGhost g s)) := by
  refine .unlessRefused rfl fun _ => ?_
  obtain ⟨C, sync, _⟩ := s
  cases sync with
  | direct => exact rfl
  | synced hv tv => exact .ite ⟨_, rfl⟩ rfl

theorem syncTail_ghost (k : Nat) : SameOutcome SameButGhost (syncTail k s) (syncTail k (withGhost g s)) := by
  refine .unlessRefused rfl fun _ => ?_
  obtain ⟨C, sync, _⟩ := s
  cases sync with
  | direct => exact rfl
  | synced hv tv => exact .ite ⟨_, rfl⟩ rfl

theorem runDrain_ghost : SameOutcome SameButGhost (runDrain s) (runDrain (withGhost g s)) := by
  refine (exec_ghost g s .pop).andThen ?_
  rintro u _ ⟨g', rfl⟩
  exact SameButGhost.ite (c := emptySeen .K s = true) ⟨g', rfl⟩ ⟨g', rfl⟩

theorem runItem_ghost (x : TraceItem) : SameOutcome SameButGhost (runItem x s) (runItem x (withGhost g s)) := by
  cases x with
  | command w =>
    simp only [runItem, runCommand]
    split
    · exact exec_ghost g s _
    · exact rfl
  | start w =>
    simp only [runItem, startCommand]
    split
    · exact beginOp_ghost g s _
    · exact rfl
  | micro a => exact microStep_ghost g s a
  | syncHead k => exact syncHead_ghost g s k
  | syncTail k => exact syncTail_ghost g s k
  | drain => exact runDrain_ghost g s
  | startDrain => exact .unlessRefused rfl fun _ => drainK1_ghost g s
  | region len => exact ⟨g, rfl⟩
  | rst => exact rfl

theorem step_ghost : SameOutcome SameButGhost (step s) (step (withGhost g s)) := by
  have hnext : nextItem (withGhost g s) = nextItem s := rfl
  cases hx : nextItem s with
  | none =>
    rw [step_none hx, step_none (hnext.trans hx)]
    exact ⟨g, rfl⟩
  | some x =>
    rw [step_some hx, step_some (hnext.trans hx)]
    exact runItem_ghost g (setTrace s.trace.tail s) x

end

/-- Settles O30: every piece that a step is made of decides the same with other ghosts in place. -/
theorem ghostsDecideNothing : Obligations.GhostsDecideNothing := by
  intro s g
  have h : SameOutcome SameButGhost (step s) (step { s with ghost := g }) := step_ghost g s
  refine ⟨fun t ht => ?_, fun f hf => ?_, fun r hr => ?_⟩
  · rw [ht] at h
    obtain ⟨_, ht', g', rfl⟩ := h.next_left
    exact ⟨g', ht'⟩
  · rw [hf] at h
    exact h.fault_left
  · rw [hr] at h
    exact h.refused_left

end Sys2Proof.Machine
end

/-! # Each register is changed by its owner only -/

section
namespace Sys2Proof.Machine

variable {s t u : State}

/-- What a step of `P` may do (60_exceptions.md R139): `tail` stays or takes one `inc`, with `PU` counting one, and no
slot changes but the one `tail` names. -/
structure ProducerStep (s t : State) : Prop where
  C : t.C = s.C
  sync : t.sync = s.sync
  head : t.head = s.head
  out : t.out = s.out
  kOp : t.kOp = s.kOp
  PO : t.ghost.PO = s.ghost.PO
  popped : t.ghost.popped = s.ghost.popped
  tail : (t.tail = s.tail ∧ t.ghost.PU = s.ghost.PU) ∨ (t.tail = inc s.C s.tail ∧ t.ghost.PU = s.ghost.PU + 1)
  storage : ∀ a, a ≠ s.tail → Memory.read t.storage a = Memory.read s.storage a

/-- What a step of `K` that pops `bytes` may do (60_exceptions.md R139): `head` takes one `inc` for each of them. -/
structure ConsumerStep (bytes : List Byte) (s t : State) : Prop where
  C : t.C = s.C
  sync : t.sync = s.sync
  tail : t.tail = s.tail
  storage : t.storage = s.storage
  pOp : t.pOp = s.pOp
  PU : t.ghost.PU = s.ghost.PU
  head : t.head = (inc s.C)^[bytes.length] s.head
  PO : t.ghost.PO = s.ghost.PO + bytes.length
  popped : t.ghost.popped = s.ghost.popped ++ bytes

/-! The steps of `P`. -/

/-- A step that leaves the registers of the block alone is one that `P` may do. -/
theorem ProducerStep.giveResult (a : Agent) (r : Result) : ProducerStep s (giveResult a r s) :=
  ⟨rfl, rfl, rfl, rfl, rfl, rfl, rfl, .inl ⟨rfl, rfl⟩, fun _ _ => rfl⟩

theorem ProducerStep.refl : ProducerStep s s :=
  ⟨rfl, rfl, rfl, rfl, rfl, rfl, rfl, .inl ⟨rfl, rfl⟩, fun _ _ => rfl⟩

theorem pushWhole_producerStep (b : Byte) : ProducerStep s (pushWhole b s) := by
  unfold pushWhole
  split
  · exact .giveResult _ _
  · exact ⟨rfl, rfl, rfl, rfl, rfl, rfl, rfl, .inr ⟨rfl, rfl⟩, fun _ ha => read_write_other _ _ ha⟩

theorem pushBegin_producerStep (b : Byte) : ProducerStep s (pushBegin b s) := by
  unfold pushBegin
  split
  · exact .giveResult _ _
  · exact ⟨rfl, rfl, rfl, rfl, rfl, rfl, rfl, .inl ⟨rfl, rfl⟩, fun _ _ => rfl⟩

theorem pushContinue_producerStep : ProducerStep s (pushContinue s) := by
  unfold pushContinue
  cases s.pOp with
  | idle => exact .refl
  | afterP1 b h => exact ⟨rfl, rfl, rfl, rfl, rfl, rfl, rfl, .inl ⟨rfl, rfl⟩, fun _ ha => read_write_other _ _ ha⟩
  | afterP2 b h => exact ⟨rfl, rfl, rfl, rfl, rfl, rfl, rfl, .inr ⟨rfl, rfl⟩, fun _ _ => rfl⟩

/-! The steps of `K`: pieces that pop nothing, and K3, put one after the other. -/

theorem ConsumerStep.refl : ConsumerStep [] s s :=
  ⟨rfl, rfl, rfl, rfl, rfl, rfl, rfl, rfl, (List.append_nil _).symm⟩

theorem ConsumerStep.trans {bs bs' : List Byte} (h : ConsumerStep bs s t) (h' : ConsumerStep bs' t u) :
    ConsumerStep (bs ++ bs') s u where
  C := h'.C.trans h.C
  sync := h'.sync.trans h.sync
  tail := h'.tail.trans h.tail
  storage := h'.storage.trans h.storage
  pOp := h'.pOp.trans h.pOp
  PU := h'.PU.trans h.PU
  head := by
    rw [h'.head, h.C, h.head, ← Function.iterate_add_apply, List.length_append, Nat.add_comm]
  PO := by rw [h'.PO, h.PO, List.length_append, Nat.add_assoc]
  popped := by rw [h'.popped, h.popped, List.append_assoc]

theorem ConsumerStep.giveResult {bs : List Byte} (h : ConsumerStep bs s t) (a : Agent) (r : Result) :
    ConsumerStep bs s (giveResult a r t) := ⟨h.C, h.sync, h.tail, h.storage, h.pOp, h.PU, h.head, h.PO, h.popped⟩

theorem ConsumerStep.setKOp {bs : List Byte} (h : ConsumerStep bs s t) (o : KOp) :
    ConsumerStep bs s (setKOp o t) := ⟨h.C, h.sync, h.tail, h.storage, h.pOp, h.PU, h.head, h.PO, h.popped⟩

theorem ConsumerStep.setTrace {bs : List Byte} (h : ConsumerStep bs s t) (l : List TraceItem) :
    ConsumerStep bs s (setTrace l t) := ⟨h.C, h.sync, h.tail, h.storage, h.pOp, h.PU, h.head, h.PO, h.popped⟩

theorem ConsumerStep.outWrite {bs : List Byte} (h : ConsumerStep bs s t) (k : Nat) (v : Byte) :
    ConsumerStep bs s (outWrite k v t) := ⟨h.C, h.sync, h.tail, h.storage, h.pOp, h.PU, h.head, h.PO, h.popped⟩

theorem ConsumerStep.freshRegion : ConsumerStep [] s (freshRegion s) :=
  ⟨rfl, rfl, rfl, rfl, rfl, rfl, rfl, rfl, (List.append_nil _).symm⟩

/-- K3 pops one byte. -/
theorem ConsumerStep.advanceHead (v : Byte) : ConsumerStep [v] s (advanceHead v s) :=
  ⟨rfl, rfl, rfl, rfl, rfl, rfl, rfl, rfl, rfl⟩

/-- Delivering pops the bytes delivered. -/
theorem deliver_consumerStep (vs : List Byte) (count : Nat) : ConsumerStep vs s (deliver vs count s) := by
  induction vs generalizing count s with
  | nil => exact .refl
  | cons v vs ih => exact ((ConsumerStep.advanceHead v).outWrite count v).trans (ih (count + 1))

theorem readK1_consumerStep (n count : Nat) : ConsumerStep [] s (readK1 n count s) := by
  unfold readK1
  split
  · exact (ConsumerStep.refl.giveResult _ _).setKOp _
  · exact ConsumerStep.refl.setKOp _

theorem drainK1_consumerStep : ConsumerStep [] s (drainK1 s) := by
  unfold drainK1
  split
  · exact (ConsumerStep.refl.setKOp _).giveResult _ _
  · exact ConsumerStep.refl.setKOp _

theorem popBegin_consumerStep : ConsumerStep [] s (popBegin s) := by
  unfold popBegin
  split
  · exact ConsumerStep.refl.giveResult _ _
  · exact ConsumerStep.refl.setKOp _

theorem readBegin_consumerStep (n : Nat) : ConsumerStep [] s (readBegin n s) := by
  unfold readBegin
  split
  · exact ConsumerStep.freshRegion.giveResult _ _
  · exact ConsumerStep.freshRegion.trans (readK1_consumerStep n 0)

/-- A `POP` pops at most one byte. -/
theorem exec_pop_consumerStep (he : exec .pop s = .next t) : ∃ bs, bs.length ≤ 1 ∧ ConsumerStep bs s t := by
  obtain ⟨-, ⟨-, rfl⟩ | ⟨v, -, -, rfl⟩⟩ := exec_pop_cases he
  · exact ⟨[], by simp, ConsumerStep.refl.giveResult _ _⟩
  · exact ⟨[v], by simp, (ConsumerStep.advanceHead v).giveResult _ _⟩

/-- A `READ_INTO n` pops at most `n` bytes, and returns them. -/
theorem exec_readInto_consumerStep {n : Nat} (he : exec (.readInto n) s = .next t) :
    ∃ bs, bs.length ≤ n ∧ ConsumerStep bs s t ∧ newResults s t = [(.K, .readInto bs.length bs)] := by
  obtain ⟨-, -, vs, hle, rfl, -⟩ := exec_readInto_cases he
  exact ⟨vs, hle, (ConsumerStep.freshRegion.trans (deliver_consumerStep vs 0)).giveResult _ _,
    by simp [newResults, readFinish]⟩

/-- The next micro-step of `K` pops at most one byte. -/
theorem microStep_K_consumerStep (he : microStep .K s = .next t) : ∃ bs, bs.length ≤ 1 ∧ ConsumerStep bs s t := by
  obtain ⟨p, -, he⟩ | ⟨n, c, p, -, he⟩ | ⟨p, -, he⟩ := microStep_K_cases he
  · cases p with
    | afterK1 x =>
      simp only [popContinue] at he
      split at he <;> cases he
      exact ⟨[], by simp, ConsumerStep.refl.setKOp _⟩
    | afterK2 x v =>
      cases he
      exact ⟨[v], by simp, ((ConsumerStep.advanceHead v).setKOp _).giveResult _ _⟩
  · rcases p with - | (x | ⟨x, v⟩)
    · cases he
      exact ⟨[], by simp, readK1_consumerStep n c⟩
    · simp only [readContinue] at he
      split at he <;> cases he
      exact ⟨[], by simp, ConsumerStep.refl.setKOp _⟩
    · refine ⟨[v], by simp, ?_⟩
      have taken : ConsumerStep [v] s (outWrite c v (advanceHead v s)) := (ConsumerStep.advanceHead v).outWrite c v
      simp only [readContinue] at he
      split at he <;> cases he
      · exact taken.setKOp _
      · exact (taken.giveResult _ _).setKOp _
  · obtain ⟨-, rfl⟩ | ⟨x, v, -, -, rfl⟩ | ⟨x, v, -, rfl⟩ := drainContinue_cases he
    · exact ⟨[], by simp, drainK1_consumerStep⟩
    · exact ⟨[], by simp, ConsumerStep.refl.setKOp _⟩
    · exact ⟨[v], by simp, ((ConsumerStep.advanceHead v).setKOp _).giveResult _ _⟩

/-! Who owns what, over every entry of the trace. -/

/-- A step of `who` in which `bytes` are popped changes only what `who` owns (10_state.md R13; 60_exceptions.md
R139). -/
structure OwnedStep (who : Option Actor) (bytes : List Byte) (s t : State) : Prop where
  C : t.C = s.C
  mode : t.mode = s.mode
  producer : t.tail ≠ s.tail ∨ t.storage ≠ s.storage ∨ t.pOp ≠ s.pOp → who = some .P
  consumer : t.head ≠ s.head ∨ t.out ≠ s.out ∨ t.kOp ≠ s.kOp → who = some .K
  headView : headView t ≠ headView s → who = some .SH
  tailView : tailView t ≠ tailView s → who = some .ST
  tail : (t.tail = s.tail ∧ t.ghost.PU = s.ghost.PU) ∨ (t.tail = inc s.C s.tail ∧ t.ghost.PU = s.ghost.PU + 1)
  head : t.head = (inc s.C)^[bytes.length] s.head
  PO : t.ghost.PO = s.ghost.PO + bytes.length
  popped : t.ghost.popped = s.ghost.popped ++ bytes
  storage : ∀ a, a ≠ s.tail → Memory.read t.storage a = Memory.read s.storage a

theorem mode_of_sync (h : t.sync = s.sync) : t.mode = s.mode := by simp only [State.mode, h]

theorem headView_of_sync (h : t.sync = s.sync) : headView t = headView s := by simp only [headView, h]

theorem tailView_of_sync (h : t.sync = s.sync) : tailView t = tailView s := by simp only [tailView, h]

theorem ProducerStep.owned (h : ProducerStep s t) : OwnedStep (some .P) [] s t where
  C := h.C
  mode := mode_of_sync h.sync
  producer _ := rfl
  consumer hne := by simp [h.head, h.out, h.kOp] at hne
  headView hne := absurd (headView_of_sync h.sync) hne
  tailView hne := absurd (tailView_of_sync h.sync) hne
  tail := h.tail
  head := h.head
  PO := h.PO
  popped := by simp [h.popped]
  storage := h.storage

theorem ConsumerStep.owned {bytes : List Byte} (h : ConsumerStep bytes s t) : OwnedStep (some .K) bytes s t where
  C := h.C
  mode := mode_of_sync h.sync
  producer hne := by simp [h.tail, h.storage, h.pOp] at hne
  consumer _ := rfl
  headView hne := absurd (headView_of_sync h.sync) hne
  tailView hne := absurd (tailView_of_sync h.sync) hne
  tail := .inl ⟨h.tail, h.PU⟩
  head := h.head
  PO := h.PO
  popped := h.popped
  storage _ _ := by rw [h.storage]

/-- A query leaves all alone but the results, so it is a step that either agent may do. -/
theorem giveResult_owned (a b : Agent) (r : Result) : OwnedStep (some (Agent.actor a)) [] s (giveResult b r s) := by
  cases a with
  | P => exact (ProducerStep.giveResult b r).owned
  | K => exact (ConsumerStep.refl.giveResult b r).owned

theorem refl_owned (a : Agent) : OwnedStep (some (Agent.actor a)) [] s s := by
  cases a with
  | P => exact ProducerStep.refl.owned
  | K => exact ConsumerStep.refl.owned

theorem syncHead_owned {k : Nat} (he : syncHead k s = .next t) : OwnedStep (some .SH) [] s t := by
  obtain ⟨hv, tv, hs, -, rfl⟩ := syncHead_cases he
  exact
  { C := rfl
    mode := by simp [State.mode, hs]
    producer := by simp
    consumer := by simp
    headView := fun _ => rfl
    tailView := by simp [Machine.tailView, hs]
    tail := .inl ⟨rfl, rfl⟩
    head := rfl
    PO := rfl
    popped := by simp
    storage := fun _ _ => rfl }

theorem syncTail_owned {k : Nat} (he : syncTail k s = .next t) : OwnedStep (some .ST) [] s t := by
  obtain ⟨hv, tv, hs, -, rfl⟩ := syncTail_cases he
  exact
  { C := rfl
    mode := by simp [State.mode, hs]
    producer := by simp
    consumer := by simp
    headView := by simp [Machine.headView, hs]
    tailView := fun _ => rfl
    tail := .inl ⟨rfl, rfl⟩
    head := rfl
    PO := rfl
    popped := by simp
    storage := fun _ _ => rfl }

/-- The environment sets the length of the output regions and changes nothing of the block. -/
theorem regionLen_owned (len : Nat) : OwnedStep none [] s { s with regionLen := len } where
  C := rfl
  mode := rfl
  producer := by simp
  consumer := by simp
  headView := by simp [Machine.headView]
  tailView := by simp [Machine.tailView]
  tail := .inl ⟨rfl, rfl⟩
  head := rfl
  PO := rfl
  popped := by simp
  storage _ _ := rfl

/-- Every operation changes only what its agent owns, and pops at most one byte or the bytes a `READ_INTO` returns. -/
theorem exec_owned (i : Instr) (he : exec i s = .next t) :
    ∃ bytes, OwnedStep (some (Agent.actor i.agent)) bytes s t ∧
      (bytes.length ≤ 1 ∨ ∃ n, i = .readInto n ∧ bytes.length ≤ n ∧
        newResults s t = [(.K, .readInto bytes.length bytes)]) := by
  cases i with
  | nop a =>
    obtain ⟨-, he⟩ := unlessRefused_next.mp he
    cases he
    exact ⟨[], refl_owned a, by simp⟩
  | isEmpty a =>
    obtain ⟨-, he⟩ := unlessRefused_next.mp he
    cases he
    exact ⟨[], giveResult_owned a _ _, by simp⟩
  | isFull a =>
    obtain ⟨-, he⟩ := unlessRefused_next.mp he
    cases he
    exact ⟨[], giveResult_owned a _ _, by simp⟩
  | push b =>
    obtain ⟨-, he⟩ := unlessRefused_next.mp he
    cases he
    exact ⟨[], (pushWhole_producerStep b).owned, by simp⟩
  | pop =>
    obtain ⟨bs, hle, h⟩ := exec_pop_consumerStep he
    exact ⟨bs, h.owned, .inl hle⟩
  | readInto n =>
    obtain ⟨bs, hle, h, hres⟩ := exec_readInto_consumerStep he
    exact ⟨bs, h.owned, .inr ⟨n, rfl, hle, hres⟩⟩

/-- The first micro-step of an operation changes only what its agent owns, and pops nothing. -/
theorem beginOp_owned (i : Instr) (he : beginOp i s = .next t) : OwnedStep (some (Agent.actor i.agent)) [] s t := by
  cases i <;> obtain ⟨-, he⟩ := unlessRefused_next.mp he
  case nop => cases he; exact refl_owned _
  case isEmpty => cases he; exact giveResult_owned _ _ _
  case isFull => cases he; exact giveResult_owned _ _ _
  case push => cases he; exact (pushBegin_producerStep _).owned
  case pop => cases he; exact popBegin_consumerStep.owned
  case readInto =>
    obtain ⟨-, he⟩ := unlessRefused_next.mp he
    cases he
    exact (readBegin_consumerStep _).owned

/-- Every entry of the trace changes only what its actor owns. -/
theorem runItem_owned (x : TraceItem) (he : runItem x s = .next t) :
    ∃ bytes, OwnedStep x.actor bytes s t ∧
      (bytes.length ≤ 1 ∨ ∃ w n, x = .command w ∧ decode w = .ok (.readInto n) ∧ bytes.length ≤ n ∧
        newResults s t = [(.K, .readInto bytes.length bytes)]) := by
  cases x with
  | command w =>
    obtain ⟨i, hd, he⟩ := runCommand_cases he
    have hactor : TraceItem.actor (.command w) = some (Agent.actor i.agent) := by simp only [TraceItem.actor, hd]
    obtain ⟨bytes, h, hle | ⟨n, rfl, hle, hres⟩⟩ := exec_owned i he
    · exact ⟨bytes, hactor ▸ h, .inl hle⟩
    · exact ⟨bytes, hactor ▸ h, .inr ⟨w, n, rfl, hd, hle, hres⟩⟩
  | start w =>
    obtain ⟨i, hd, he⟩ := startCommand_cases he
    have hactor : TraceItem.actor (.start w) = some (Agent.actor i.agent) := by simp only [TraceItem.actor, hd]
    exact ⟨[], hactor ▸ beginOp_owned i he, by simp⟩
  | micro a =>
    cases a with
    | P => exact ⟨[], microStep_P_cases he ▸ pushContinue_producerStep.owned, by simp⟩
    | K =>
      obtain ⟨bs, hle, h⟩ := microStep_K_consumerStep he
      exact ⟨bs, h.owned, .inl hle⟩
  | syncHead k => exact ⟨[], syncHead_owned he, by simp⟩
  | syncTail k => exact ⟨[], syncTail_owned he, by simp⟩
  | drain =>
    obtain ⟨u, hu, ht⟩ := runDrain_cases he
    obtain ⟨bs, hle, h⟩ := exec_pop_consumerStep hu
    obtain rfl | rfl := ht
    · exact ⟨bs, h.owned, .inl hle⟩
    · exact ⟨bs, (h.setTrace _).owned, .inl hle⟩
  | startDrain =>
    obtain ⟨-, rfl⟩ := drainBegin_cases he
    exact ⟨[], drainK1_consumerStep.owned, by simp⟩
  | region len => cases he; exact ⟨[], regionLen_owned len, by simp⟩
  | rst => cases he

/-- Settles O29: a step performs one entry of the trace, and each entry changes only what its actor owns. -/
theorem onlyOwnersWriteTheirRegisters : Obligations.OnlyOwnersWriteTheirRegisters := by
  intro s t x hx he
  obtain ⟨bytes, h, hbytes⟩ := runItem_owned x (step_some hx ▸ he)
  exact ⟨h.C, h.mode, h.producer, h.consumer, h.headView, h.tailView, h.tail,
    ⟨bytes, h.head, h.PO, h.popped, hbytes⟩, h.storage⟩

end Sys2Proof.Machine
end

/-! # Only the queue matters -/

section
namespace Sys2Proof.Machine

variable {s t : State}

/-! The queue in terms of the ghosts. -/

/-- The same bytes not yet popped, and views that lag by the same numbers of steps. -/
structure SameBytes (g g' : Ghost) : Prop where
  unpopped : g.IN.drop g.PO = g'.IN.drop g'.PO
  headLag : g.PO - g.HV = g'.PO - g'.HV
  tailLag : g.PU - g.TV = g'.PU - g'.TV

/-- The same parameters, operations in progress and environment. -/
structure SameAround (s t : State) : Prop where
  C : s.C = t.C
  mode : s.mode = t.mode
  pOp : samePushStep s.pOp t.pOp
  kOp : sameConsumerStep s.kOp t.kOp
  out : s.out = t.out
  regionLen : s.regionLen = t.regionLen
  results : s.results = t.results
  trace : s.trace = t.trace

/-- Two good states that hold the same queue, whichever slots they use. -/
structure Alike (s t : State) : Prop where
  left : Good s
  right : Good t
  around : SameAround s t
  bytes : SameBytes s.ghost t.ghost

theorem Alike.of_sameQueue (hs : Good s) (ht : Good t) (h : SameQueue s t) : Alike s t where
  left := hs
  right := ht
  around := ⟨h.C, h.mode, h.pOp, h.kOp, h.out, h.regionLen, h.results, h.trace⟩
  bytes :=
    { unpopped := by
        have hq := h.contents
        rw [hs.contents_eq, ht.contents_eq] at hq
        exact List.map_injective_iff.mpr (Option.some_injective _) hq
      headLag := by rw [← hs.head_lag, ← ht.head_lag, h.headLag]
      tailLag := by rw [← hs.tail_lag, ← ht.tail_lag, h.tailLag] }

theorem Alike.sameQueue (h : Alike s t) : SameQueue s t where
  C := h.around.C
  mode := h.around.mode
  contents := by rw [h.left.contents_eq, h.right.contents_eq, h.bytes.unpopped]
  headLag := by rw [h.left.head_lag, h.right.head_lag, h.bytes.headLag]
  tailLag := by rw [h.left.tail_lag, h.right.tail_lag, h.bytes.tailLag]
  pOp := h.around.pOp
  kOp := h.around.kOp
  out := h.around.out
  regionLen := h.around.regionLen
  results := h.around.results
  trace := h.around.trace

/-! The same micro-step in progress. -/

theorem samePushStep_idle {o o' : POp} (h : samePushStep o o') : o = .idle ↔ o' = .idle := by
  cases o <;> cases o' <;> simp_all

theorem samePushStep_afterP1 {b : Byte} {x : Nat} {o' : POp} (h : samePushStep (.afterP1 b x) o') :
    ∃ x', o' = .afterP1 b x' := by
  cases o' with
  | idle => exact h.elim
  | afterP1 b' x' => cases h; exact ⟨x', rfl⟩
  | afterP2 b' x' => exact h.elim

theorem samePushStep_afterP2 {b : Byte} {x : Nat} {o' : POp} (h : samePushStep (.afterP2 b x) o') :
    ∃ x', o' = .afterP2 b x' := by
  cases o' with
  | idle => exact h.elim
  | afterP1 b' x' => exact h.elim
  | afterP2 b' x' => cases h; exact ⟨x', rfl⟩

theorem samePopStep_afterK1 {x : Nat} {p' : PopOp} (h : samePopStep (.afterK1 x) p') : ∃ x', p' = .afterK1 x' := by
  cases p' with
  | afterK1 x' => exact ⟨x', rfl⟩
  | afterK2 x' v' => exact h.elim

theorem samePopStep_afterK2 {x : Nat} {v : Byte} {p' : PopOp} (h : samePopStep (.afterK2 x v) p') :
    ∃ x', p' = .afterK2 x' v := by
  cases p' with
  | afterK1 x' => exact h.elim
  | afterK2 x' v' => cases h; exact ⟨x', rfl⟩

theorem sameConsumerStep_idle {o o' : KOp} (h : sameConsumerStep o o') : o = .idle ↔ o' = .idle := by
  unfold sameConsumerStep at h
  split at h <;> simp_all

theorem sameConsumerStep_pop {p : PopOp} {o' : KOp} (h : sameConsumerStep (.pop p) o') :
    ∃ p', o' = .pop p' ∧ samePopStep p p' := by
  cases o' with
  | pop p' => exact ⟨p', rfl, h⟩
  | _ => exact h.elim

theorem sameConsumerStep_readInto {n c : Nat} {p : Option PopOp} {o' : KOp}
    (h : sameConsumerStep (.readInto n c p) o') : ∃ p', o' = .readInto n c p' ∧ Option.Rel samePopStep p p' := by
  cases p with
  | none =>
    match o', h with
    | .readInto _ _ none, ⟨rfl, rfl⟩ => exact ⟨none, rfl, .none⟩
  | some p =>
    match o', h with
    | .readInto _ _ (some p'), ⟨rfl, rfl, hp⟩ => exact ⟨some p', rfl, .some hp⟩

theorem sameConsumerStep_drain {p : Option PopOp} {o' : KOp}
    (h : sameConsumerStep (.drain p) o') : ∃ p', o' = .drain p' ∧ Option.Rel samePopStep p p' := by
  cases p with
  | none =>
    match o', h with
    | .drain none, _ => exact ⟨none, rfl, .none⟩
  | some p =>
    match o', h with
    | .drain (some p'), hp => exact ⟨some p', rfl, .some hp⟩

/-! What two alike states agree on: every check, every flag, and the byte at `head`. -/

theorem mode_direct : s.mode = .DIRECT ↔ s.sync = .direct := by
  cases h : s.sync <;> simp [State.mode, h]

theorem mode_synced : s.mode = .SYNCED ↔ ∃ hv tv, s.sync = .synced hv tv := by
  cases h : s.sync <;> simp [State.mode, h]

theorem Alike.unpopped_count (h : Alike s t) : s.ghost.PU - s.ghost.PO = t.ghost.PU - t.ghost.PO := by
  have := congrArg List.length h.bytes.unpopped
  simpa [h.left.in_length, h.right.in_length] using this

theorem Alike.emptySeen (h : Alike s t) (a : Agent) : emptySeen a t = emptySeen a s := by
  have hn := h.unpopped_count
  have hh := h.bytes.headLag
  have ht := h.bytes.tailLag
  have hs := h.left.chain
  have hs' := h.right.chain
  rw [Bool.eq_iff_iff]
  cases a with
  | P => rw [h.left.emptySeen_P, h.right.emptySeen_P]; omega
  | K => rw [h.left.emptySeen_K, h.right.emptySeen_K]; omega

theorem Alike.fullSeen (h : Alike s t) (a : Agent) : fullSeen a t = fullSeen a s := by
  have hn := h.unpopped_count
  have hh := h.bytes.headLag
  have ht := h.bytes.tailLag
  have hs := h.left.chain
  have hs' := h.right.chain
  have hC := h.around.C
  rw [Bool.eq_iff_iff]
  cases a with
  | P => rw [h.left.fullSeen_P, h.right.fullSeen_P]; omega
  | K => rw [h.left.fullSeen_K, h.right.fullSeen_K]; omega

theorem Alike.contract (h : Alike s t) : contract t = contract s := by rw [h.left.contract, h.right.contract]

theorem SameAround.busy (h : SameAround s t) (a : Agent) : busy a t = busy a s := by
  cases a with
  | P => simp [Machine.busy, samePushStep_idle h.pOp]
  | K => simp [Machine.busy, sameConsumerStep_idle h.kOp]

theorem SameAround.insidePush (h : SameAround s t) (a : Agent) : insidePush a t = insidePush a s := by
  simp [Machine.insidePush, h.mode, h.busy]

theorem Alike.cannotBegin (h : Alike s t) (a : Agent) : cannotBegin a t = cannotBegin a s := by
  simp [Machine.cannotBegin, h.contract, h.around.busy, h.around.insidePush]

theorem Alike.cannotContinue (h : Alike s t) (a : Agent) : cannotContinue a t = cannotContinue a s := by
  simp [Machine.cannotContinue, h.contract, h.around.busy, h.around.insidePush]

theorem SameAround.regionCheck (h : SameAround s t) (n : Nat) : regionCheck n t = regionCheck n s := by
  simp [Machine.regionCheck, h.regionLen]

theorem SameAround.nextItem (h : SameAround s t) : nextItem t = nextItem s := by
  simp only [Machine.nextItem, h.trace, h.busy]

theorem Alike.kOp_idle (h : Alike s t) (hk : s.kOp = .idle) : t.kOp = .idle :=
  (sameConsumerStep_idle h.around.kOp).mp hk

/-- The slots at the two heads hold the same byte. -/
theorem Alike.read_head (h : Alike s t) (hlt : s.ghost.PO < s.ghost.TV) :
    ∃ v, Memory.read s.storage s.head = some v ∧ Memory.read t.storage t.head = some v := by
  have hlt' : t.ghost.PO < t.ghost.TV := by
    have := h.unpopped_count
    have := h.bytes.tailLag
    have := h.left.chain
    have := h.right.chain
    omega
  obtain ⟨v, hv, hi⟩ := h.left.read_head hlt
  obtain ⟨v', hv', hi'⟩ := h.right.read_head hlt'
  have hfirst : s.ghost.IN[s.ghost.PO]? = t.ghost.IN[t.ghost.PO]? := by
    rw [← List.head?_drop, ← List.head?_drop, h.bytes.unpopped]
  rw [hi, hi'] at hfirst
  cases hfirst
  exact ⟨v, hv, hv'⟩

/-! The pieces that the micro-steps are made of keep what is around the queue the same. -/

theorem SameAround.giveResult (h : SameAround s t) (a : Agent) (r : Result) :
    SameAround (giveResult a r s) (giveResult a r t) :=
  ⟨h.C, h.mode, h.pOp, h.kOp, h.out, h.regionLen, by simp [h.results], h.trace⟩

theorem SameAround.setPOp (h : SameAround s t) {o o' : POp} (ho : samePushStep o o') :
    SameAround (setPOp o s) (setPOp o' t) := ⟨h.C, h.mode, ho, h.kOp, h.out, h.regionLen, h.results, h.trace⟩

theorem SameAround.setKOp (h : SameAround s t) {o o' : KOp} (ho : sameConsumerStep o o') :
    SameAround (setKOp o s) (setKOp o' t) := ⟨h.C, h.mode, h.pOp, ho, h.out, h.regionLen, h.results, h.trace⟩

theorem SameAround.setTrace (h : SameAround s t) (l : List TraceItem) : SameAround (setTrace l s) (setTrace l t) :=
  ⟨h.C, h.mode, h.pOp, h.kOp, h.out, h.regionLen, h.results, rfl⟩

theorem SameAround.outWrite (h : SameAround s t) (k : Nat) (v : Byte) : SameAround (outWrite k v s) (outWrite k v t) :=
  ⟨h.C, h.mode, h.pOp, h.kOp, by simp [h.out], h.regionLen, h.results, h.trace⟩

theorem SameAround.freshRegion (h : SameAround s t) : SameAround (freshRegion s) (freshRegion t) :=
  ⟨h.C, h.mode, h.pOp, h.kOp, rfl, h.regionLen, h.results, h.trace⟩

theorem SameAround.readFinish (h : SameAround s t) (count : Nat) : SameAround (readFinish count s) (readFinish count t) := by
  unfold Machine.readFinish
  rw [h.out]
  exact h.giveResult _ _

theorem SameAround.pushWrite (h : SameAround s t) (b : Byte) : SameAround (pushWrite b s) (pushWrite b t) :=
  ⟨h.C, h.mode, h.pOp, h.kOp, h.out, h.regionLen, h.results, h.trace⟩

theorem SameAround.advanceTail (h : SameAround s t) (b : Byte) : SameAround (advanceTail b s) (advanceTail b t) :=
  ⟨h.C, h.mode, h.pOp, h.kOp, h.out, h.regionLen, h.results, h.trace⟩

theorem SameAround.pushAdvance (h : SameAround s t) (b : Byte) : SameAround (pushAdvance b s) (pushAdvance b t) :=
  (h.advanceTail b).giveResult .P (.push true)

theorem SameAround.advanceHead (h : SameAround s t) (v : Byte) : SameAround (advanceHead v s) (advanceHead v t) :=
  ⟨h.C, h.mode, h.pOp, h.kOp, h.out, h.regionLen, h.results, h.trace⟩

/-! An accepted push and a successful pop keep the queues the same. -/

theorem Alike.pushed (h : Alike s t) (b : Byte) :
    SameBytes (s.ghost.pushed s.mode b) (t.ghost.pushed t.mode b) where
  unpopped := by
    have hle : s.ghost.PO ≤ s.ghost.IN.length := by have := h.left.chain; rw [h.left.in_length]; omega
    have hle' : t.ghost.PO ≤ t.ghost.IN.length := by have := h.right.chain; rw [h.right.in_length]; omega
    simp [List.drop_append_of_le_length hle, List.drop_append_of_le_length hle', h.bytes.unpopped]
  headLag := h.bytes.headLag
  tailLag := by
    have := h.bytes.tailLag
    have := h.left.chain
    have := h.right.chain
    rw [h.around.mode]
    cases t.mode with
    | DIRECT => simp
    | SYNCED => simp; omega

theorem Alike.popTaken (h : Alike s t) (v : Byte) :
    SameBytes (s.ghost.popTaken s.mode v) (t.ghost.popTaken t.mode v) where
  unpopped := by
    have := congrArg (List.drop 1) h.bytes.unpopped
    simpa [List.drop_drop] using this
  headLag := by
    have := h.bytes.headLag
    have := h.left.chain
    have := h.right.chain
    rw [h.around.mode]
    cases t.mode with
    | DIRECT => simp
    | SYNCED => simp; omega
  tailLag := h.bytes.tailLag

/-! The steps of `P`. -/

theorem giveResult_alike (h : Alike s t) (a : Agent) (r : Result) : Alike (giveResult a r s) (giveResult a r t) :=
  ⟨h.left.giveResult a r, h.right.giveResult a r, h.around.giveResult a r, h.bytes⟩

theorem setTrace_alike (h : Alike s t) (l : List TraceItem) : Alike (setTrace l s) (setTrace l t) :=
  ⟨h.left.setTrace l, h.right.setTrace l, h.around.setTrace l, h.bytes⟩

theorem pushWhole_alike (h : Alike s t) (hp : s.pOp = .idle) (b : Byte) : Alike (pushWhole b s) (pushWhole b t) := by
  have hp' : t.pOp = .idle := (samePushStep_idle h.around.pOp).mp hp
  have hs := good_pushWhole h.left hp b
  have ht := good_pushWhole h.right hp' b
  cases hf : fullSeen .P s with
  | true =>
    rw [pushWhole_full hf, pushWhole_full (h.fullSeen .P ▸ hf)]
    exact giveResult_alike h _ _
  | false =>
    rw [pushWhole_room hf] at hs ⊢
    rw [pushWhole_room (h.fullSeen .P ▸ hf)] at ht ⊢
    exact ⟨hs, ht, (h.around.pushWrite b).pushAdvance b, h.pushed b⟩

theorem pushBegin_alike (h : Alike s t) (b : Byte) : Alike (pushBegin b s) (pushBegin b t) := by
  have hs := good_pushBegin h.left b
  have ht := good_pushBegin h.right b
  simp only [pushBegin, h.fullSeen] at hs ht ⊢
  split
  · exact giveResult_alike h _ _
  · rename_i hf
    rw [if_neg hf] at hs ht
    exact ⟨hs, ht, h.around.setPOp rfl, h.bytes⟩

theorem pushContinue_alike (h : Alike s t) : Alike (pushContinue s) (pushContinue t) := by
  have hs := good_pushContinue h.left
  have ht := good_pushContinue h.right
  have hp := h.around.pOp
  cases e : s.pOp with
  | idle =>
    have e' := (samePushStep_idle hp).mp e
    simp only [pushContinue, e, e']
    exact h
  | afterP1 b x =>
    obtain ⟨x', e'⟩ := samePushStep_afterP1 (e ▸ hp)
    simp only [pushContinue, e, e'] at hs ht ⊢
    exact ⟨hs, ht, (h.around.pushWrite b).setPOp rfl, h.bytes⟩
  | afterP2 b x =>
    obtain ⟨x', e'⟩ := samePushStep_afterP2 (e ▸ hp)
    simp only [pushContinue, e, e'] at hs ht ⊢
    exact ⟨hs, ht, (h.around.pushAdvance b).setPOp trivial, h.pushed b⟩

/-! The steps of `K`. -/

/-- One `POP` finds both rings empty or takes the same byte from both. -/
theorem popOnce_alike (h : Alike s t) (hk : s.kOp = .idle) :
    (popOnce s = .ok (none, s) ∧ popOnce t = .ok (none, t)) ∨
      ∃ v, popOnce s = .ok (some v, advanceHead v s) ∧ popOnce t = .ok (some v, advanceHead v t) ∧
        Alike (advanceHead v s) (advanceHead v t) := by
  cases he : emptySeen .K s with
  | true => exact .inl ⟨popOnce_empty he, popOnce_empty (h.emptySeen .K ▸ he)⟩
  | false =>
    have he' : emptySeen .K t = false := h.emptySeen .K ▸ he
    obtain ⟨v, hv, hv'⟩ := h.read_head (h.left.emptySeen_K_false.mp he)
    exact .inr ⟨v, popOnce_some he hv, popOnce_some he' hv', good_take h.left hk he hv,
      good_take h.right (h.kOp_idle hk) he' hv', h.around.advanceHead v, h.popTaken v⟩

theorem popWhole_alike (h : Alike s t) (hk : s.kOp = .idle) :
    SameOutcome Alike (ofExcept (popWhole s)) (ofExcept (popWhole t)) := by
  obtain ⟨hs, ht⟩ | ⟨v, hs, ht, h⟩ := popOnce_alike h hk <;> simp only [popWhole, hs, ht]
  · exact giveResult_alike h _ _
  · exact giveResult_alike h _ _

theorem outWrite_alike (h : Alike s t) (hk : s.kOp = .idle) (k : Nat) (v : Byte) :
    Alike (outWrite k v s) (outWrite k v t) :=
  ⟨good_out h.left hk (write_wf h.left.out_wf k v), good_out h.right (h.kOp_idle hk) (write_wf h.right.out_wf k v),
    h.around.outWrite k v, h.bytes⟩

theorem freshRegion_alike (h : Alike s t) (hk : s.kOp = .idle) : Alike (freshRegion s) (freshRegion t) :=
  ⟨good_freshRegion h.left hk, good_freshRegion h.right (h.kOp_idle hk), h.around.freshRegion, h.bytes⟩

theorem readFinish_alike (h : Alike s t) (count : Nat) : Alike (readFinish count s) (readFinish count t) :=
  ⟨h.left.giveResult _ _, h.right.giveResult _ _, h.around.readFinish count, h.bytes⟩

theorem readLoop_alike (h : Alike s t) (hk : s.kOp = .idle) (left count : Nat) :
    SameOutcome Alike (ofExcept (readLoop left count s)) (ofExcept (readLoop left count t)) := by
  induction left generalizing count s t with
  | zero => exact readFinish_alike h count
  | succ left ih =>
    obtain ⟨hs, ht⟩ | ⟨v, hs, ht, h⟩ := popOnce_alike h hk <;> simp only [readLoop, hs, ht]
    · exact readFinish_alike h count
    · exact ih (outWrite_alike h hk count v) hk (count + 1)

/-- Putting the same operation of `K` in progress, where that leaves both states good. -/
theorem setKOp_alike (h : Alike s t) {o o' : KOp} (hs : Good (setKOp o s)) (ht : Good (setKOp o' t))
    (ho : sameConsumerStep o o') : Alike (setKOp o s) (setKOp o' t) :=
  ⟨hs, ht, h.around.setKOp ho, h.bytes⟩

theorem popBegin_alike (h : Alike s t) : Alike (popBegin s) (popBegin t) := by
  have hs := good_popBegin h.left
  have ht := good_popBegin h.right
  simp only [popBegin, h.emptySeen] at hs ht ⊢
  split
  · exact giveResult_alike h _ _
  · rename_i he
    rw [if_neg he] at hs ht
    exact setKOp_alike h hs ht trivial

theorem drainK1_alike (h : Alike s t) : Alike (drainK1 s) (drainK1 t) := by
  have hs := good_drainK1 h.left
  have ht := good_drainK1 h.right
  simp only [drainK1, h.emptySeen] at hs ht ⊢
  split <;> rename_i he
  · rw [if_pos he] at hs ht
    exact ⟨hs, ht, (h.around.setKOp trivial).giveResult _ _, h.bytes⟩
  · rw [if_neg he] at hs ht
    exact setKOp_alike h hs ht trivial

theorem readK1_alike (h : Alike s t) {n c : Nat} (hs : Good (readK1 n c s)) (ht : Good (readK1 n c t)) :
    Alike (readK1 n c s) (readK1 n c t) := by
  simp only [readK1, h.emptySeen] at hs ht ⊢
  split <;> rename_i he
  · rw [if_pos he] at hs ht
    exact ⟨hs, ht, (h.around.readFinish c).setKOp trivial, h.bytes⟩
  · rw [if_neg he] at hs ht
    exact setKOp_alike h hs ht ⟨rfl, rfl, trivial⟩

theorem readBegin_alike (h : Alike s t) (hk : s.kOp = .idle) (n : Nat) : Alike (readBegin n s) (readBegin n t) := by
  have hs := good_readBegin h.left hk n
  have ht := good_readBegin h.right (h.kOp_idle hk) n
  have hf := freshRegion_alike h hk
  unfold readBegin at hs ht ⊢
  split
  · exact readFinish_alike hf 0
  · rename_i hn
    rw [if_neg hn] at hs ht
    exact readK1_alike hf hs ht

/-- Where `K` is between K1 and K2 of a `POP`, the two reads give the same byte. -/
theorem Alike.memRead_head (h : Alike s t) (hlt : s.ghost.PO < s.ghost.TV) :
    ∃ v, memRead s s.head = .ok v ∧ memRead t t.head = .ok v := by
  obtain ⟨v, hv, hv'⟩ := h.read_head hlt
  exact ⟨v, memRead_ok.mpr hv, memRead_ok.mpr hv'⟩

theorem popContinue_alike (h : Alike s t) {p p' : PopOp} (hk : s.kOp = .pop p) (hk' : t.kOp = .pop p')
    (hp : samePopStep p p') : SameOutcome Alike (ofExcept (popContinue p s)) (ofExcept (popContinue p' t)) := by
  have hc := h.left.consumer_ok
  cases p with
  | afterK1 x =>
    obtain ⟨x', rfl⟩ := samePopStep_afterK1 hp
    obtain ⟨v, hv, hv'⟩ := h.memRead_head (by simpa [consumerInProgressOk, hk] using hc)
    have es : popContinue (.afterK1 x) s = .ok (setKOp (.pop (.afterK2 x v)) s) := by simp [popContinue, hv]
    have et : popContinue (.afterK1 x') t = .ok (setKOp (.pop (.afterK2 x' v)) t) := by simp [popContinue, hv']
    rw [es, et]
    exact setKOp_alike h (good_popContinue h.left hk es) (good_popContinue h.right hk' et) rfl
  | afterK2 x v =>
    obtain ⟨x', rfl⟩ := samePopStep_afterK2 hp
    exact ⟨good_popContinue h.left hk rfl, good_popContinue h.right hk' rfl,
      ((h.around.advanceHead v).setKOp trivial).giveResult _ _, h.popTaken v⟩

theorem readContinue_alike (h : Alike s t) {n c : Nat} {p p' : Option PopOp} (hk : s.kOp = .readInto n c p)
    (hk' : t.kOp = .readInto n c p') (hp : Option.Rel samePopStep p p') :
    SameOutcome Alike (ofExcept (readContinue n c p s)) (ofExcept (readContinue n c p' t)) := by
  have hc := h.left.consumer_ok
  rcases hp with ⟨hp⟩ | -
  · rename_i p p'
    cases p with
    | afterK1 x =>
      obtain ⟨x', rfl⟩ := samePopStep_afterK1 hp
      simp only [consumerInProgressOk, hk] at hc
      obtain ⟨v, hv, hv'⟩ := h.memRead_head hc.2
      have es : readContinue n c (some (.afterK1 x)) s = .ok (setKOp (.readInto n c (some (.afterK2 x v))) s) := by
        simp [readContinue, hv]
      have et : readContinue n c (some (.afterK1 x')) t = .ok (setKOp (.readInto n c (some (.afterK2 x' v))) t) := by
        simp [readContinue, hv']
      rw [es, et]
      exact setKOp_alike h (good_readContinue h.left hk es) (good_readContinue h.right hk' et) ⟨rfl, rfl, rfl⟩
    | afterK2 x v =>
      obtain ⟨x', rfl⟩ := samePopStep_afterK2 hp
      have taken := (h.around.advanceHead v).outWrite c v
      have hs := fun u => good_readContinue (t := u) h.left hk
      have ht := fun u => good_readContinue (t := u) h.right hk'
      simp only [readContinue] at hs ht ⊢
      split <;> rename_i hn
      · simp only [if_pos hn] at hs ht
        exact ⟨hs _ rfl, ht _ rfl, taken.setKOp ⟨rfl, rfl⟩, h.popTaken v⟩
      · simp only [if_neg hn] at hs ht
        exact ⟨hs _ rfl, ht _ rfl, (taken.readFinish (c + 1)).setKOp trivial, h.popTaken v⟩
  · exact readK1_alike h (good_readContinue h.left hk rfl) (good_readContinue h.right hk' rfl)

theorem drainContinue_alike (h : Alike s t) {p p' : Option PopOp} (hk : s.kOp = .drain p)
    (hk' : t.kOp = .drain p') (hp : Option.Rel samePopStep p p') :
    SameOutcome Alike (ofExcept (drainContinue p s)) (ofExcept (drainContinue p' t)) := by
  have hc := h.left.consumer_ok
  rcases hp with ⟨hp⟩ | -
  · rename_i p p'
    cases p with
    | afterK1 x =>
      obtain ⟨x', rfl⟩ := samePopStep_afterK1 hp
      obtain ⟨v, hv, hv'⟩ := h.memRead_head (by simpa [consumerInProgressOk, hk] using hc)
      have es : drainContinue (some (.afterK1 x)) s = .ok (setKOp (.drain (some (.afterK2 x v))) s) := by
        simp [drainContinue, hv]
      have et : drainContinue (some (.afterK1 x')) t = .ok (setKOp (.drain (some (.afterK2 x' v))) t) := by
        simp [drainContinue, hv']
      rw [es, et]
      exact setKOp_alike h (good_drainContinue h.left hk es) (good_drainContinue h.right hk' et) rfl
    | afterK2 x v =>
      obtain ⟨x', rfl⟩ := samePopStep_afterK2 hp
      exact ⟨good_drainContinue h.left hk rfl, good_drainContinue h.right hk' rfl,
        ((h.around.advanceHead v).setKOp trivial).giveResult _ _, h.popTaken v⟩
  · exact drainK1_alike h

/-! The moves of the views. -/

theorem syncHead_alike (h : Alike s t) (k : Nat) : SameOutcome Alike (syncHead k s) (syncHead k t) := by
  refine .unlessRefused h.contract fun _ => ?_
  cases hm : s.mode with
  | DIRECT =>
    have es := mode_direct.mp hm
    have et := mode_direct.mp (h.around.mode ▸ hm)
    simp only [es, et, sameOutcome_refused]
  | SYNCED =>
    obtain ⟨hv, tv, es⟩ := mode_synced.mp hm
    obtain ⟨hv', tv', et⟩ := mode_synced.mp (h.around.mode ▸ hm)
    have hdist : dist t.C hv' t.head = dist s.C hv s.head := by
      simpa [obs, es, et] using h.sameQueue.headLag.symm
    simp only [es, et, hdist]
    split
    · rename_i hk
      refine ⟨good_syncHead h.left (syncHead_synced h.left.contract es hk),
        good_syncHead h.right (syncHead_synced h.right.contract et (hdist ▸ hk)),
        ⟨h.around.C, rfl, h.around.pOp, h.around.kOp, h.around.out, h.around.regionLen, h.around.results,
          h.around.trace⟩, h.bytes.unpopped, ?_, h.bytes.tailLag⟩
      have := h.bytes.headLag
      simp only [moveHeadView_PO, moveHeadView_HV]
      omega
    · rfl

theorem syncTail_alike (h : Alike s t) (k : Nat) : SameOutcome Alike (syncTail k s) (syncTail k t) := by
  refine .unlessRefused h.contract fun _ => ?_
  cases hm : s.mode with
  | DIRECT =>
    have es := mode_direct.mp hm
    have et := mode_direct.mp (h.around.mode ▸ hm)
    simp only [es, et, sameOutcome_refused]
  | SYNCED =>
    obtain ⟨hv, tv, es⟩ := mode_synced.mp hm
    obtain ⟨hv', tv', et⟩ := mode_synced.mp (h.around.mode ▸ hm)
    have hdist : dist t.C tv' t.tail = dist s.C tv s.tail := by
      simpa [obs, es, et] using h.sameQueue.tailLag.symm
    simp only [es, et, hdist]
    split
    · rename_i hk
      refine ⟨good_syncTail h.left (syncTail_synced h.left.contract es hk),
        good_syncTail h.right (syncTail_synced h.right.contract et (hdist ▸ hk)),
        ⟨h.around.C, rfl, h.around.pOp, h.around.kOp, h.around.out, h.around.regionLen, h.around.results,
          h.around.trace⟩, h.bytes.unpopped, h.bytes.headLag, ?_⟩
      have := h.bytes.tailLag
      simp only [moveTailView_PU, moveTailView_TV]
      omega
    · rfl

/-! The operations, their first and next micro-steps, and the other entries of the trace. -/

theorem exec_alike (h : Alike s t) (i : Instr) : SameOutcome Alike (exec i s) (exec i t) := by
  cases i with
  | nop a => exact .unlessRefused (h.cannotBegin a) fun _ => h
  | isEmpty a => exact .unlessRefused (h.cannotBegin a) fun _ => h.emptySeen a ▸ giveResult_alike h a _
  | isFull a => exact .unlessRefused (h.cannotBegin a) fun _ => h.fullSeen a ▸ giveResult_alike h a _
  | push b => exact .unlessRefused (h.cannotBegin .P) fun hr => pushWhole_alike h (Ready.pOp_idle hr) b
  | pop => exact .unlessRefused (h.cannotBegin .K) fun hr => popWhole_alike h (Ready.kOp_idle hr)
  | readInto n =>
    exact .unlessRefused (h.cannotBegin .K) fun hr => .unlessRefused (h.around.regionCheck n) fun _ =>
      readLoop_alike (freshRegion_alike h (Ready.kOp_idle hr)) (Ready.kOp_idle hr) n 0

theorem beginOp_alike (h : Alike s t) (i : Instr) : SameOutcome Alike (beginOp i s) (beginOp i t) := by
  cases i with
  | nop a => exact exec_alike h (.nop a)
  | isEmpty a => exact exec_alike h (.isEmpty a)
  | isFull a => exact exec_alike h (.isFull a)
  | push b => exact .unlessRefused (h.cannotBegin .P) fun _ => pushBegin_alike h b
  | pop => exact .unlessRefused (h.cannotBegin .K) fun _ => popBegin_alike h
  | readInto n =>
    exact .unlessRefused (h.cannotBegin .K) fun hr => .unlessRefused (h.around.regionCheck n) fun _ =>
      readBegin_alike h (Ready.kOp_idle hr) n

theorem microStep_alike (h : Alike s t) (a : Agent) : SameOutcome Alike (microStep a s) (microStep a t) := by
  refine .unlessRefused (h.cannotContinue a) fun _ => ?_
  have hk := h.around.kOp
  cases a with
  | P => exact pushContinue_alike h
  | K =>
    cases e : s.kOp with
    | idle => simp only [h.kOp_idle e, sameOutcome_refused]
    | pop p =>
      obtain ⟨p', e', hp⟩ := sameConsumerStep_pop (e ▸ hk)
      simp only [e']
      exact popContinue_alike h e e' hp
    | readInto n c p =>
      obtain ⟨p', e', hp⟩ := sameConsumerStep_readInto (e ▸ hk)
      simp only [e']
      exact readContinue_alike h e e' hp
    | drain p =>
      obtain ⟨p', e', hp⟩ := sameConsumerStep_drain (e ▸ hk)
      simp only [e']
      exact drainContinue_alike h e e' hp

theorem runDrain_alike (h : Alike s t) : SameOutcome Alike (runDrain s) (runDrain t) := by
  refine (exec_alike h .pop).andThen fun u u' hu => ?_
  rw [h.emptySeen .K, ← hu.around.trace]
  split
  · exact hu
  · exact setTrace_alike hu _

theorem runItem_alike (h : Alike s t) (x : TraceItem) : SameOutcome Alike (runItem x s) (runItem x t) := by
  cases x with
  | command w =>
    simp only [runItem, runCommand]
    split
    · exact exec_alike h _
    · exact rfl
  | start w =>
    simp only [runItem, startCommand]
    split
    · exact beginOp_alike h _
    · exact rfl
  | micro a => exact microStep_alike h a
  | syncHead k => exact syncHead_alike h k
  | syncTail k => exact syncTail_alike h k
  | drain => exact runDrain_alike h
  | startDrain => exact .unlessRefused (h.cannotBegin .K) fun _ => drainK1_alike h
  | region len =>
    exact ⟨h.left.of_same rfl rfl rfl rfl rfl rfl rfl rfl rfl, h.right.of_same rfl rfl rfl rfl rfl rfl rfl rfl rfl,
      ⟨h.around.C, h.around.mode, h.around.pOp, h.around.kOp, h.around.out, rfl, h.around.results, h.around.trace⟩,
      h.bytes⟩
  | rst => exact rfl

theorem step_alike (h : Alike s t) : SameOutcome Alike (step s) (step t) := by
  have hnext := h.around.nextItem
  cases hx : nextItem s with
  | none =>
    rw [step_none hx, step_none (hnext.trans hx)]
    exact h
  | some x =>
    rw [step_some hx, step_some (hnext.trans hx), ← h.around.trace]
    exact runItem_alike (setTrace_alike h _) x

/-! A state at rest with nothing in the buffer. -/

theorem dist_self {C a : Nat} (ha : a < C) : dist C a a = 0 := (dist_eq_zero ha ha).mpr rfl

theorem contents_of_head_eq_tail (hlt : s.head < s.C) (h : s.head = s.tail) : contents s = [] := by
  have : occupancy s = 0 := by rw [occupancy, ← h, dist_self hlt]
  simp [contents, occupiedSlots, this]

/-- The state after reset of the block that `s` is, in the environment of `s`. -/
def resetIn (s : State) : State :=
  { State.resetWith ⟨s.C, s.mode⟩ with
    out := s.out, regionLen := s.regionLen, results := s.results, trace := s.trace }

/-- At rest with `head == tail`, and each agent seeing it, a state holds the same queue as the reset state. -/
theorem Good.sameQueue_resetIn (h : Good s) (hi : Idle s) (hht : s.head = s.tail)
    (hh : obs .P .head s = s.head) (ht : obs .K .tail s = s.tail) : SameQueue s (resetIn s) := by
  obtain ⟨hp, hk⟩ := hi
  have hobs (a : Agent) (r : IndexReg) : obs a r (resetIn s) = 0 := resetWith_obs ⟨s.C, s.mode⟩ a r
  have hpos : (resetIn s).head < (resetIn s).C := h.pos
  exact
  { C := rfl
    mode := (resetWith_mode ⟨s.C, s.mode⟩).symm
    contents := by rw [contents_of_head_eq_tail h.head_lt hht, contents_of_head_eq_tail hpos rfl]
    headLag := by rw [hh, hobs, dist_self h.head_lt]; exact (dist_self hpos).symm
    tailLag := by rw [ht, hobs, dist_self h.tail_lt]; exact (dist_self hpos).symm
    pOp := by rw [hp]; trivial
    kOp := by rw [hk]; trivial
    out := rfl
    regionLen := rfl
    results := rfl
    trace := rfl }

/-- Settles O54: in good states the queue and the lags determine every flag and every byte popped, so alike states have
alike steps. -/
theorem onlyTheQueueMatters : Obligations.OnlyTheQueueMatters := by
  refine ⟨fun s t s' hs ht h he => ?_, fun s h hi hht hh ht => h.sameQueue_resetIn hi hht hh ht⟩
  have hstep := step_alike (Alike.of_sameQueue hs ht h)
  rw [he] at hstep
  obtain ⟨t', he', h'⟩ := hstep.next_left
  exact ⟨t', he', h'.sameQueue⟩

end Sys2Proof.Machine
end

/-! # The entries of a trace, and several steps -/

section
namespace Sys2Proof

/-- A word made from an instruction decodes to it (30_encoding.md R54 to R57). -/
theorem decode_encode {i : Instr} (hi : i.wf = true) : decode (encode i) = .ok i := by
  cases i with
  | nop a | isEmpty a | isFull a | pop =>
    simp [decode, encode, onlyBy, noOperand, fieldOp_packWord, fieldAg_packWord, fieldArg_packWord]
  | push b =>
    have hb : b.toNat < 256 := b.isLt
    have hpad : b.toNat / 256 = 0 := by omega
    simp [decode, encode, onlyBy, fieldImmPad, fieldImm8, bitField, fieldOp_packWord, fieldAg_packWord,
      fieldArg_packWord, Nat.mod_eq_of_lt (show b.toNat < 4096 by omega), Nat.mod_eq_of_lt hb, hpad]
  | readInto n =>
    have hn : n < 4096 := Nat.lt_succ_of_le (of_decide_eq_true hi)
    simp [decode, encode, onlyBy, fieldOp_packWord, fieldAg_packWord, fieldArg_packWord, Nat.mod_eq_of_lt hn]

end Sys2Proof

namespace Sys2Proof.Machine

variable {s t : State} {x : TraceItem} {rest : List TraceItem} {i : Instr} {k : Nat}

theorem runItem_command (hi : i.wf = true) : runItem (.command (encode i)) s = exec i s :=
  runCommand_of_decode (decode_encode hi)

theorem runItem_start (hi : i.wf = true) : runItem (.start (encode i)) s = beginOp i s :=
  startCommand_of_decode (decode_encode hi)

/-- A step of a state whose trace is given performs the first entry of that trace. -/
theorem step_setTrace_cons : step (setTrace (x :: rest) s) = runItem x (setTrace rest s) := step_cons rfl

/-- The first of several steps. -/
theorem steps_cons (ht : s.trace = x :: rest) (h : runItem x (setTrace rest s) = .next t) :
    steps (k + 1) s = steps k t := steps_next ((step_cons ht).trans h)

theorem exec_pop_trace (he : exec .pop s = .next t) : t.trace = s.trace := by
  obtain ⟨-, ⟨-, rfl⟩ | ⟨v, -, -, rfl⟩⟩ := exec_pop_cases he <;> rfl

/-- Putting back what was there changes nothing. -/
theorem setKOp_idle (h : s.kOp = .idle) : setKOp .idle s = s := by rw [← h]; rfl
theorem setPOp_idle (h : s.pOp = .idle) : setPOp .idle s = s := by rw [← h]; rfl

/-- Settles O15: a step performs the first entry, a drain goes on with the trace its `POP` left, and past the end of the
trace there is the rest of what is in progress, or nothing. -/
theorem stepPerformsTraceEntries : Obligations.StepPerformsTraceEntries := by
  intro s rest
  refine ⟨fun i hi => ?_, fun a => step_setTrace_cons, fun k => step_setTrace_cons, fun k => step_setTrace_cons,
    fun t ht => ?_, fun f hf => ?_, fun r hr => ?_, fun hr => ?_, fun n => step_setTrace_cons, step_setTrace_cons,
    fun hp => step_nil_P rfl hp, fun hp hk => step_nil_K rfl hp hk, fun ⟨hp, hk⟩ => step_over rfl hp hk⟩
  · rw [step_setTrace_cons, runItem_start hi]
  · have htrace : t.trace = rest := exec_pop_trace ht
    rw [step_setTrace_cons, runItem, runDrain, ht, andThen_next, htrace, setTrace_emptySeen]
  · rw [step_setTrace_cons, runItem, runDrain, hf]; rfl
  · rw [step_setTrace_cons, runItem, runDrain, hr, andThen_refused]
  · have hr' : Ready .K (setTrace rest s) := hr
    rw [step_setTrace_cons, runItem, drainBegin, hr', unlessRefused_none, drainK1, setTrace_emptySeen,
      setKOp_idle (s := setTrace rest s) hr.kOp_idle, setTrace_obs]
    rfl

/-- What a state reaches by steps is reachable. -/
theorem Reachable.steps {cfg : Config} (h : Reachable cfg s) (he : steps k s = .next t) : Reachable cfg t := by
  induction k generalizing s with
  | zero => cases he; exact h
  | succ k ih =>
    obtain ⟨u, hu, he⟩ := andThen_next_iff.mp he
    exact ih (h.step s u hu) he

/-- Two bytes pushed, seen and popped, and a third pushed that `K` has not seen while `P` has seen no `POP` (the run of
95_test_vectors.md V10). -/
def staleRun : List TraceItem :=
  [.command (encode (.push 0x61)), .command (encode (.push 0x62)), .syncTail 2, .command (encode .pop),
   .command (encode .pop), .command (encode (.push 0x63))]

/-- Settles O45: `staleRun` ends with `HV = 0`, `PO = TV = 2` and `PU = 3`. -/
theorem spuriousFullAndLateEmptyHappen : Obligations.SpuriousFullAndLateEmptyHappen :=
  ⟨_, (Reachable.reset staleRun).steps (k := 6) rfl, by decide, by decide, by decide, by decide, by decide⟩

end Sys2Proof.Machine
end

/-! # The queue, the slots, and the flags that stale views give -/

section
namespace Sys2Proof.Machine

variable {s t : State}

/-! The queue. -/

/-- An operation that leaves the results alone up to its end returns one result. -/
theorem newResults_giveResult (a : Agent) (r : Result) (h : t.results = s.results) :
    newResults s (giveResult a r t) = [(a, r)] := by
  simp [newResults, h]

theorem contents_length (s : State) : (contents s).length = occupancy s := by
  simp [contents, occupiedSlots]

theorem Good.occupancy_le (h : Good s) : Machine.occupancy s ≤ s.C - 1 := dist_le h.pos _ _

/-- Bytes popped are taken from the front of the queue: in both states the popped bytes are the first `PO` accepted
ones (20_memory.md R42). -/
theorem Good.contents_of_popped (hs : Good s) (ht : Good t) {bytes : List Byte} (hIN : t.ghost.IN = s.ghost.IN)
    (hPO : t.ghost.PO = s.ghost.PO + bytes.length) (hpopped : t.ghost.popped = s.ghost.popped ++ bytes) :
    contents s = bytes.map some ++ contents t := by
  have hfront : (s.ghost.IN.drop s.ghost.PO).take bytes.length = bytes := by
    have hfifo := ht.fifo
    rw [hpopped, hs.fifo, hIN, hPO, List.take_add] at hfifo
    exact (List.append_cancel_left hfifo).symm
  have hsplit : s.ghost.IN.drop s.ghost.PO = bytes ++ t.ghost.IN.drop t.ghost.PO := by
    rw [hIN, hPO, ← List.drop_drop]
    conv_lhs => rw [← List.take_append_drop bytes.length (s.ghost.IN.drop s.ghost.PO), hfront]
  rw [hs.contents_eq, ht.contents_eq, hsplit, List.map_append]

/-- The queue is read from the ghosts `IN` and `PO`. -/
theorem Good.contents_of_ghost (hs : Good s) (ht : Good t) (hIN : t.ghost.IN = s.ghost.IN)
    (hPO : t.ghost.PO = s.ghost.PO) : contents t = contents s := by
  rw [hs.contents_eq, ht.contents_eq, hIN, hPO]

/-- An accepted `PUSH` adds its byte at the end of the queue. -/
theorem Good.contents_of_pushed (hs : Good s) (ht : Good t) {b : Byte} (hIN : t.ghost.IN = s.ghost.IN ++ [b])
    (hPO : t.ghost.PO = s.ghost.PO) : contents t = contents s ++ [some b] := by
  have hle : s.ghost.PO ≤ s.ghost.IN.length := by
    have := hs.chain
    rw [hs.in_length]; omega
  rw [hs.contents_eq, ht.contents_eq, hIN, hPO, List.drop_append_of_le_length hle, List.map_append]
  rfl

theorem exec_query_ghost {i : Instr} {a : Agent} (hi : i = .nop a ∨ i = .isEmpty a ∨ i = .isFull a)
    (he : exec i s = .next t) : t.ghost = s.ghost := by
  obtain rfl | rfl | rfl := hi <;> obtain ⟨-, he⟩ := unlessRefused_next.mp he <;> cases he <;> rfl

/-- Settles O53: an operation that ends in a good state moves the two ends of the queue by the bytes it accepts and the
bytes it pops. -/
theorem blockRefinesABoundedQueue : Obligations.BlockRefinesABoundedQueue := by
  intro s h
  refine ⟨contents_length s, contents_length s ▸ h.occupancy_le, ?_, fun i t a he hi => ?_, fun b t he => ?_,
    fun t he => ?_, fun n t he => ?_⟩
  · rw [h.contents_eq]
    exact List.forall_mem_map.mpr fun _ _ => rfl
  · have hg := exec_query_ghost hi he
    exact h.contents_of_ghost (good_exec i h he) (hg ▸ rfl) (hg ▸ rfl)
  · have ht := good_exec _ h he
    obtain ⟨-, ⟨-, rfl⟩ | ⟨-, rfl⟩⟩ := exec_push_cases he
    · exact .inr ⟨newResults_giveResult _ _ rfl, h.contents_of_ghost ht rfl rfl⟩
    · exact .inl ⟨newResults_giveResult _ _ rfl, h.contents_of_pushed ht rfl rfl⟩
  · have ht := good_exec _ h he
    obtain ⟨-, ⟨-, rfl⟩ | ⟨v, -, -, rfl⟩⟩ := exec_pop_cases he
    · exact .inl ⟨newResults_giveResult _ _ rfl, h.contents_of_ghost ht rfl rfl⟩
    · exact .inr ⟨v, newResults_giveResult _ _ rfl, h.contents_of_popped ht (bytes := [v]) rfl rfl rfl⟩
  · have ht := good_exec _ h he
    obtain ⟨-, -, vs, hle, rfl, -⟩ := exec_readInto_cases he
    refine ⟨vs, ?_, hle, h.contents_of_popped ht (bytes := vs) ?_ ?_ ?_⟩ <;> simp [newResults, readFinish]

/-! The flags. -/

/-- In `DIRECT` mode the counters of the views are those of the indices. -/
theorem Good.views_direct (h : Good s) (hm : s.mode = .DIRECT) :
    s.ghost.HV = s.ghost.PO ∧ s.ghost.TV = s.ghost.PU := by
  have hv := h.views
  simpa only [viewsAgree, mode_direct.mp hm] using hv

/-- Settles O44: each flag compares two counters of the chain `HV <= PO <= TV <= PU <= HV + C - 1`; in `DIRECT` mode
`HV = PO` and `TV = PU`. -/
theorem staleViewsErrSafely : Obligations.StaleViewsErrSafely := by
  intro s h
  have hcap := h.capacity
  have hchain := h.chain
  rw [h.occupancy]
  refine ⟨fun hfull => ?_, fun hempty => ?_, fun hfull => ?_, fun hempty => ?_, fun hm a => ?_⟩
  · exact h.fullSeen_P.mpr (by omega)
  · exact h.emptySeen_K.mpr (by omega)
  · have := h.fullSeen_K.mp hfull
    omega
  · have := h.emptySeen_P.mp hempty
    omega
  · have hviews := h.views_direct hm
    cases a with
    | P => rw [h.fullSeen_P, h.emptySeen_P]; omega
    | K => rw [h.fullSeen_K, h.emptySeen_K]; omega

/-! The slots. -/

/-- Every index is met once on the way round. -/
theorem advanceBy_range_perm (C a : Nat) : ((List.range C).map (advanceBy C a)).Perm (List.range C) := by
  have : (List.range C).map (advanceBy C a) = (List.range C).rotate a := by
    apply List.ext_getElem
    · simp
    · intro k h1 h2
      simp [List.getElem_rotate, advanceBy, Nat.add_comm]
  rw [this]
  exact List.rotate_perm _ _

/-- The free slots go on from where the occupied ones end. -/
theorem advanceBy_dist {C h t : Nat} (hh : h < C) (ht : t < C) (j : Nat) :
    advanceBy C h (dist C h t + j) = advanceBy C t j := by
  unfold advanceBy
  rw [dist_of_lt hh ht]
  split
  · congr 1; omega
  · rw [show h + (t + C - h + j) = t + j + C by omega, Nat.add_mod_right]

/-- Settles O43: the occupied slots and then the free ones are one walk round all slots from `head`. -/
theorem slotsAreOccupiedOrFree : Obligations.SlotsAreOccupiedOrFree := by
  intro s hc
  obtain ⟨hC, hrange⟩ := contract_none.mp hc
  obtain ⟨hh, ht, -⟩ := indicesInRange_iff.mp hrange
  have hocc : occupancy s ≤ s.C - 1 := dist_le (by omega) _ _
  have hfree : freeSlots s = (List.range (s.C - occupancy s)).map (fun j => advanceBy s.C s.head (occupancy s + j)) :=
    List.map_congr_left fun j _ => (advanceBy_dist hh ht j).symm
  refine ⟨?_, ?_, fun hfull => ?_⟩
  · have hsplit : List.range s.C =
        List.range (occupancy s) ++ (List.range (s.C - occupancy s)).map (occupancy s + ·) := by
      rw [← List.range_add, Nat.add_sub_cancel' (by omega)]
    have hround : occupiedSlots s ++ freeSlots s = (List.range s.C).map (advanceBy s.C s.head) := by
      rw [hfree, occupiedSlots, hsplit, List.map_append, List.map_map]
      rfl
    rw [hround]
    exact advanceBy_range_perm _ _
  · have hlast : s.C - occupancy s = (s.C - 1 - occupancy s) + 1 := by omega
    rw [hfree, hlast, List.range_succ, List.map_append, List.map_singleton, List.getLast?_concat,
      Nat.add_sub_cancel' hocc]
    rfl
  · have hone : occupancy s = s.C - 1 := (dist_eq_pred hh ht).mpr (fullOf_iff.mp hfull)
    rw [freeSlots, hone, Nat.sub_sub_self (by omega)]
    simp [advanceBy_zero ht]

end Sys2Proof.Machine
end

/-! # What each agent's answers depend on, the moves of the views, and delivery in order -/

section
namespace Sys2Proof.Machine

variable {s t s' t' : State}

/-! The queries and the `PUSH` in terms of the flags. -/

theorem exec_nop_eq {a : Agent} (he : exec (.nop a) s = .next t) : t = s := by
  obtain ⟨-, he⟩ := unlessRefused_next.mp he
  cases he; rfl

theorem exec_isEmpty_eq {a : Agent} (he : exec (.isEmpty a) s = .next t) :
    t = giveResult a (.isEmpty (emptySeen a s)) s := by
  obtain ⟨-, he⟩ := unlessRefused_next.mp he
  cases he; rfl

theorem exec_isFull_eq {a : Agent} (he : exec (.isFull a) s = .next t) :
    t = giveResult a (.isFull (fullSeen a s)) s := by
  obtain ⟨-, he⟩ := unlessRefused_next.mp he
  cases he; rfl

theorem exec_push_eq {b : Byte} (he : exec (.push b) s = .next t) : t = pushWhole b s := by
  obtain ⟨-, he⟩ := unlessRefused_next.mp he
  cases he; rfl

theorem newResults_self (s : State) : newResults s s = [] := by simp [newResults]

theorem newResults_query (a : Agent) (r : Result) (s : State) : newResults s (giveResult a r s) = [(a, r)] :=
  newResults_giveResult a r rfl

theorem newResults_pushWhole (b : Byte) (s : State) :
    newResults s (pushWhole b s) = [(.P, .push (!fullSeen .P s))] := by
  cases hf : fullSeen .P s
  · rw [pushWhole_room hf]; exact newResults_giveResult _ _ rfl
  · rw [pushWhole_full hf]; exact newResults_giveResult _ _ rfl

theorem pushWhole_tail (b : Byte) (s : State) :
    (pushWhole b s).tail = if fullSeen .P s then s.tail else inc s.C s.tail := by
  cases hf : fullSeen .P s
  · rw [pushWhole_room hf]; rfl
  · rw [pushWhole_full hf]; rfl

/-! What `P` sees. -/

theorem SameForProducer.fullSeen (h : SameForProducer s s') : fullSeen .P s = fullSeen .P s' := by
  obtain ⟨hC, htail, hhead⟩ := h
  simp [Machine.fullSeen, hC, htail, hhead]

theorem SameForProducer.emptySeen (h : SameForProducer s s') : emptySeen .P s = emptySeen .P s' := by
  obtain ⟨-, htail, hhead⟩ := h
  simp [Machine.emptySeen, htail, hhead]

/-- Settles O31: `P` decides from its two flags, which its view determines, and moves `tail` by one or not at all. -/
theorem producerSeesOnlyItsView : Obligations.ProducerSeesOnlyItsView := by
  intro i s s' t t' hi h he he'
  have ⟨hC, htail, _⟩ := h
  cases i with
  | nop a =>
    rw [exec_nop_eq he, exec_nop_eq he', newResults_self, newResults_self]
    exact ⟨rfl, htail⟩
  | isEmpty a =>
    obtain rfl : a = .P := hi
    rw [exec_isEmpty_eq he, exec_isEmpty_eq he', newResults_query, newResults_query, h.emptySeen]
    exact ⟨rfl, htail⟩
  | isFull a =>
    obtain rfl : a = .P := hi
    rw [exec_isFull_eq he, exec_isFull_eq he', newResults_query, newResults_query, h.fullSeen]
    exact ⟨rfl, htail⟩
  | push b =>
    rw [exec_push_eq he, exec_push_eq he', newResults_pushWhole, newResults_pushWhole, pushWhole_tail, pushWhole_tail,
      h.fullSeen, hC, htail]
    exact ⟨rfl, rfl⟩
  | pop => cases hi
  | readInto n => cases hi

/-! What `K` sees. -/

theorem SameForConsumer.emptySeen (h : SameForConsumer s s') : emptySeen .K s = emptySeen .K s' := by
  obtain ⟨-, hhead, htail, -⟩ := h
  simp [Machine.emptySeen, hhead, htail]

theorem SameForConsumer.fullSeen (h : SameForConsumer s s') : fullSeen .K s = fullSeen .K s' := by
  obtain ⟨hC, hhead, htail, -⟩ := h
  simp [Machine.fullSeen, hC, hhead, htail]

/-- Where `K` sees a byte, the slot at `head` is one of those it may read. -/
theorem SameForConsumer.read_head (h : SameForConsumer s s') (hs : Good s) (he : Machine.emptySeen .K s = false) :
    Memory.read s.storage s.head = Memory.read s'.storage s'.head := by
  obtain ⟨-, hhead, -, hslots⟩ := h
  have hseen : 0 < dist s.C s.head (obs .K .tail s) := by
    have := hs.emptySeen_K_false.mp he
    rw [hs.seen_count]; omega
  have hfirst := hslots 0 hseen
  rw [← hhead]
  rwa [advanceBy_zero hs.head_lt] at hfirst

/-- A `READ_INTO` in a good state returns the bytes of the slots from `head` on, as many as it may and `K` sees. -/
theorem Good.exec_readInto_cases (h : Good s) {n : Nat} (he : exec (.readInto n) s = .next t) :
    ∃ vs, t = readFinish vs.length (deliver vs 0 (freshRegion s)) ∧
      vs.length = min n (dist s.C s.head (obs .K .tail s)) ∧
      ∀ k, k < vs.length → vs[k]? = Memory.read s.storage (advanceBy s.C s.head k) := by
  obtain ⟨hr, hn, -⟩ := Machine.exec_readInto_cases he
  have hk := Ready.kOp_idle hr
  obtain ⟨vs, hloop, hlen, hread⟩ := readLoop_good (l := n) (c := 0) (good_freshRegion h hk) hk
  rw [exec_readInto hr hn, hloop, Nat.zero_add] at he
  cases he
  exact ⟨vs, rfl, h.seen_count ▸ hlen, fun k hk => (hread k hk).symm⟩

/-- Settles O32: what `K` pops stands in the slots it may read, and how much it pops depends on its two indices. -/
theorem consumerSeesOnlyItsView : Obligations.ConsumerSeesOnlyItsView := by
  intro i s s' t t' hi hs hs' h he he'
  have ⟨hC, hhead, htail, hslots⟩ := h
  cases i with
  | nop a =>
    rw [exec_nop_eq he, exec_nop_eq he', newResults_self, newResults_self]
    exact ⟨rfl, hhead, fun _ hn => nomatch hn⟩
  | isEmpty a =>
    obtain rfl : a = .K := hi
    rw [exec_isEmpty_eq he, exec_isEmpty_eq he', newResults_query, newResults_query, h.emptySeen]
    exact ⟨rfl, hhead, fun _ hn => nomatch hn⟩
  | isFull a =>
    obtain rfl : a = .K := hi
    rw [exec_isFull_eq he, exec_isFull_eq he', newResults_query, newResults_query, h.fullSeen]
    exact ⟨rfl, hhead, fun _ hn => nomatch hn⟩
  | push b => cases hi
  | pop =>
    obtain ⟨hr, -⟩ := exec_pop_cases he
    obtain ⟨hr', -⟩ := exec_pop_cases he'
    cases hE : emptySeen .K s with
    | true =>
      rw [exec_pop_empty hr hE] at he
      rw [exec_pop_empty hr' (h.emptySeen ▸ hE)] at he'
      cases he; cases he'
      exact ⟨by simp [newResults], hhead, fun _ hn => nomatch hn⟩
    | false =>
      obtain ⟨v, hv, -⟩ := hs.read_head (hs.emptySeen_K_false.mp hE)
      have hv' : Memory.read s'.storage s'.head = some v := h.read_head hs hE ▸ hv
      rw [exec_pop_some hr hE hv] at he
      rw [exec_pop_some hr' (h.emptySeen ▸ hE) hv'] at he'
      cases he; cases he'
      exact ⟨by simp [newResults], by simp [hC, hhead], fun _ hn => nomatch hn⟩
  | readInto n =>
    obtain ⟨vs, rfl, hlen, hread⟩ := hs.exec_readInto_cases he
    obtain ⟨vs', rfl, hlen', hread'⟩ := hs'.exec_readInto_cases he'
    have hsame : vs.length = vs'.length := by rw [hlen, hlen', hC, hhead, htail]
    obtain rfl : vs = vs' := by
      refine List.ext_getElem? fun k => ?_
      by_cases hk : k < vs.length
      · rw [hread k hk, hread' k (hsame ▸ hk), ← hC, ← hhead]
        exact hslots k (by omega)
      · rw [List.getElem?_eq_none (by omega), List.getElem?_eq_none (by omega)]
    refine ⟨by simp [newResults, readFinish], ?_, fun _ _ => by simp [readFinish]⟩
    have hmoved := deliver_head vs 0 (freshRegion s) hs.head_lt
    have hmoved' := deliver_head vs 0 (freshRegion s') hs'.head_lt
    simp [readFinish, hmoved, hmoved', hC, hhead]

/-! The views move forward only. -/

/-- Of two counts on one slot, one that is less than `C` ahead is not ahead. -/
theorem le_of_mod_eq {C a b : Nat} (hlt : a < b + C) (h : a % C = b % C) : a ≤ b := by
  by_contra hab
  have := eq_of_mod_eq (by omega) hlt h.symm
  omega

theorem Good.headView_synced (h : Good s) (hm : s.mode = .SYNCED) : headView s = some (s.ghost.HV % s.C) := by
  obtain ⟨hv, tv, hs⟩ := mode_synced.mp hm
  have hviews := h.views
  simp only [viewsAgree, hs] at hviews
  simp [headView, hs, hviews.1]

theorem Good.tailView_synced (h : Good s) (hm : s.mode = .SYNCED) : tailView s = some (s.ghost.TV % s.C) := by
  obtain ⟨hv, tv, hs⟩ := mode_synced.mp hm
  have hviews := h.views
  simp only [viewsAgree, hs] at hviews
  simp [tailView, hs, hviews.2]

theorem OwnedStep.PO_le {who : Option Actor} {bytes : List Byte} (o : OwnedStep who bytes s t) :
    s.ghost.PO ≤ t.ghost.PO := by
  rw [o.PO]; omega

theorem OwnedStep.PU_le {who : Option Actor} {bytes : List Byte} (o : OwnedStep who bytes s t) :
    s.ghost.PU ≤ t.ghost.PU := by
  obtain ⟨-, h⟩ | ⟨-, h⟩ := o.tail <;> omega

/-- Where `head_view` is left alone `HV` does not go back: it follows `PO`, or it stays on its slot and within `C - 1`
steps of `PU`. -/
theorem Good.HV_mono {who : Option Actor} {bytes : List Byte} (h : Good s) (ht : Good t)
    (o : OwnedStep who bytes s t) (hview : headView t = headView s) : s.ghost.HV ≤ t.ghost.HV := by
  have hPO := o.PO_le
  have hPU := o.PU_le
  cases hm : s.mode with
  | DIRECT =>
    have := h.views_direct hm
    have := ht.views_direct (o.mode.trans hm)
    omega
  | SYNCED =>
    rw [h.headView_synced hm, ht.headView_synced (o.mode.trans hm), o.C] at hview
    have := h.chain
    have := ht.chain
    have hC := o.C
    exact le_of_mod_eq (by omega) (Option.some.inj hview).symm

/-- Where `tail_view` is left alone `TV` does not go back: it follows `PU`, or it stays on its slot and is at least
`PO`. -/
theorem Good.TV_mono {who : Option Actor} {bytes : List Byte} (h : Good s) (ht : Good t)
    (o : OwnedStep who bytes s t) (hview : tailView t = tailView s) : s.ghost.TV ≤ t.ghost.TV := by
  have hPO := o.PO_le
  have hPU := o.PU_le
  cases hm : s.mode with
  | DIRECT =>
    have := h.views_direct hm
    have := ht.views_direct (o.mode.trans hm)
    omega
  | SYNCED =>
    rw [h.tailView_synced hm, ht.tailView_synced (o.mode.trans hm), o.C] at hview
    have := h.chain
    have := ht.chain
    exact le_of_mod_eq (by omega) (Option.some.inj hview).symm

/-- The synchronisers issue no command. -/
theorem agent_actor_ne (a : Agent) : Agent.actor a ≠ .SH ∧ Agent.actor a ≠ .ST := by cases a <;> decide

/-- The entry of a synchroniser is its move of its view. -/
theorem actor_synchroniser {x : TraceItem} :
    (x.actor = some .SH → ∃ k, x = .syncHead k) ∧ (x.actor = some .ST → ∃ k, x = .syncTail k) := by
  cases x with
  | command w | start w => simp only [TraceItem.actor]; split <;> simp [agent_actor_ne]
  | micro a => simp [TraceItem.actor, agent_actor_ne]
  | syncHead k | syncTail k | drain | startDrain | region len | rst => simp [TraceItem.actor]

/-- Every entry of the trace leaves the counters where they are or moves them forward. -/
theorem Good.runItem_mono (h : Good s) {x : TraceItem} (he : runItem x s = .next t) :
    s.ghost.HV ≤ t.ghost.HV ∧ s.ghost.TV ≤ t.ghost.TV ∧ s.ghost.PO ≤ t.ghost.PO ∧ s.ghost.PU ≤ t.ghost.PU := by
  have ht := good_runItem h he
  obtain ⟨bytes, o, -⟩ := runItem_owned x he
  refine ⟨?_, ?_, o.PO_le, o.PU_le⟩
  · by_cases hview : headView t = headView s
    · exact h.HV_mono ht o hview
    · obtain ⟨k, rfl⟩ := actor_synchroniser.1 (o.headView hview)
      obtain ⟨hv, tv, -, -, rfl⟩ := syncHead_cases he
      simp
  · by_cases hview : tailView t = tailView s
    · exact h.TV_mono ht o hview
    · obtain ⟨k, rfl⟩ := actor_synchroniser.2 (o.tailView hview)
      obtain ⟨hv, tv, -, -, rfl⟩ := syncTail_cases he
      simp

/-- Settles O50: a step performs one entry, which moves no counter back, and ends in a good state. -/
theorem viewsAreMonotoneAndCausal : Obligations.ViewsAreMonotoneAndCausal := by
  intro s t h he
  have ht := stepKeepsInvariant s t h he
  have hmono : s.ghost.HV ≤ t.ghost.HV ∧ s.ghost.TV ≤ t.ghost.TV ∧ s.ghost.PO ≤ t.ghost.PO ∧
      s.ghost.PU ≤ t.ghost.PU := by
    obtain ⟨-, rfl⟩ | ⟨x, -, he⟩ := step_cases he
    · exact ⟨le_rfl, le_rfl, le_rfl, le_rfl⟩
    · exact (h.setTrace s.trace.tail).runItem_mono he
  obtain ⟨hHV, hTV, hPO, hPU⟩ := hmono
  exact ⟨hHV, hTV, hPO, hPU, ht.hv_le_po, ht.tv_le_pu, ht.obs_P_head, ht.obs_K_tail⟩

/-! Delivery in order. -/

@[simp] theorem returnedBytes_giveResult (a : Agent) (r : Result) (s : State) :
    returnedBytes (giveResult a r s) = returnedBytes s ++ r.bytes := by
  simp [returnedBytes]

theorem returnedBytes_of_results (h : t.results = s.results) : returnedBytes t = returnedBytes s := by
  rw [returnedBytes, returnedBytes, h]

theorem pendingBytes_idle (h : s.kOp = .idle) : pendingBytes s = [] := by simp [pendingBytes, h]

theorem pendingBytes_pop {p : PopOp} (h : s.kOp = .pop p) : pendingBytes s = [] := by simp [pendingBytes, h]

theorem pendingBytes_drain {p : Option PopOp} (h : s.kOp = .drain p) : pendingBytes s = [] := by
  simp [pendingBytes, h]

theorem pendingBytes_readInto {n c : Nat} {p : Option PopOp} (h : s.kOp = .readInto n c p) :
    pendingBytes s = s.out.map Prod.snd := by
  simp [pendingBytes, h]

/-- A result that carries no byte returns none. -/
theorem returnedBytes_giveResult_nil (a : Agent) {r : Result} (hr : r.bytes = []) (h : t.results = s.results) :
    returnedBytes (giveResult a r t) = returnedBytes s := by
  rw [returnedBytes_giveResult, hr, List.append_nil, returnedBytes_of_results h]

theorem delivered_of_returned (hp : pendingBytes s = []) (h : s.ghost.popped = returnedBytes s) : Delivered s := by
  rw [Delivered, hp, List.append_nil]; exact h

theorem Delivered.returned (h : Delivered s) (hp : pendingBytes s = []) : s.ghost.popped = returnedBytes s := by
  rw [h, hp, List.append_nil]

/-- What is delivered is read from the popped bytes, the results, what `K` has in progress and the region. -/
theorem Delivered.of_same (h : Delivered s) (hg : t.ghost.popped = s.ghost.popped)
    (hret : returnedBytes t = returnedBytes s) (hk : t.kOp = s.kOp) (ho : t.out = s.out) : Delivered t := by
  have hpend : pendingBytes t = pendingBytes s := by simp only [pendingBytes, hk, ho]
  rw [Delivered, hg, hret, hpend, h]

/-- A step of `P` pops no byte and returns none. -/
theorem Delivered.of_producer (h : Delivered s) (o : ProducerStep s t) (hret : returnedBytes t = returnedBytes s) :
    Delivered t := h.of_same o.popped hret o.kOp o.out

theorem returnedBytes_pushWhole (b : Byte) (s : State) : returnedBytes (pushWhole b s) = returnedBytes s := by
  unfold pushWhole
  split <;> exact returnedBytes_giveResult_nil _ rfl rfl

theorem returnedBytes_pushBegin (b : Byte) (s : State) : returnedBytes (pushBegin b s) = returnedBytes s := by
  unfold pushBegin
  split
  · exact returnedBytes_giveResult_nil _ rfl rfl
  · rfl

theorem returnedBytes_pushContinue (s : State) : returnedBytes (pushContinue s) = returnedBytes s := by
  unfold pushContinue
  cases s.pOp with
  | idle | afterP1 b h => rfl
  | afterP2 b h => exact returnedBytes_giveResult_nil _ rfl rfl

/-- A `POP` that took a byte returns it. -/
theorem delivered_pop_some (h : s.ghost.popped = returnedBytes s) {o : KOp} (ho : o = .idle ∨ ∃ p, o = .drain p)
    (v : Byte) :
    Delivered (giveResult .K (.pop (some v)) (setKOp o (advanceHead v s))) := by
  refine delivered_of_returned ?_ ?_
  · obtain rfl | ⟨p, rfl⟩ := ho
    · exact pendingBytes_idle rfl
    · exact pendingBytes_drain rfl
  · rw [returnedBytes_giveResult]
    exact congrArg (· ++ [v]) h

/-- The end of a `READ_INTO` returns what stands in the region. -/
theorem delivered_readFinish (hk : s.kOp = .idle) (h : s.ghost.popped = returnedBytes s ++ s.out.map Prod.snd)
    (count : Nat) : Delivered (readFinish count s) :=
  delivered_of_returned (pendingBytes_idle hk)
    (h.trans (returnedBytes_giveResult .K (.readInto count (s.out.map Prod.snd)) s).symm)

/-- K1 of a `READ_INTO` goes on with the region or returns it. -/
theorem delivered_readK1 (h : s.ghost.popped = returnedBytes s ++ s.out.map Prod.snd) (n count : Nat) :
    Delivered (readK1 n count s) := by
  unfold readK1
  split
  · exact delivered_readFinish (s := setKOp .idle s) rfl h count
  · exact h

theorem delivered_readBegin (h : s.ghost.popped = returnedBytes s) (hk : s.kOp = .idle) (n : Nat) :
    Delivered (readBegin n s) := by
  have hfresh : (freshRegion s).ghost.popped = returnedBytes (freshRegion s) ++ (freshRegion s).out.map Prod.snd :=
    h.trans (List.append_nil _).symm
  unfold readBegin
  split
  · exact delivered_readFinish (s := freshRegion s) hk hfresh 0
  · exact delivered_readK1 hfresh n 0

theorem delivered_popBegin (h : Delivered s) (hk : s.kOp = .idle) : Delivered (popBegin s) := by
  unfold popBegin
  split
  · exact h.of_same rfl (returnedBytes_giveResult_nil _ rfl rfl) rfl rfl
  · exact delivered_of_returned (pendingBytes_pop rfl) (h.returned (pendingBytes_idle hk))

theorem delivered_drainK1 (h : s.ghost.popped = returnedBytes s) : Delivered (drainK1 s) := by
  unfold drainK1
  split
  · exact delivered_of_returned (pendingBytes_idle rfl)
      (h.trans (returnedBytes_giveResult_nil (s := s) .K rfl rfl).symm)
  · exact delivered_of_returned (pendingBytes_drain rfl) h

/-- K3 of a `READ_INTO` puts its byte behind those that the region holds. -/
theorem Good.out_write (h : Good s) {n c : Nat} (hr : readInProgressOk n c s) (v : Byte) :
    (Memory.write s.out c v).map Prod.snd = s.out.map Prod.snd ++ [v] := by
  obtain ⟨-, hc, hout⟩ := hr
  have hlen : (s.ghost.popped.drop (s.ghost.PO - c)).length = c := by
    have := h.chain
    rw [List.length_drop, h.fifo, List.length_take, h.in_length]; omega
  have hwrite := regionOf_snoc (s.ghost.popped.drop (s.ghost.PO - c)) v
  rw [hlen] at hwrite
  rw [hout, hwrite, regionOf_bytes, regionOf_bytes]

theorem delivered_readContinue (h : Good s) (hd : Delivered s) {n c : Nat} {p : Option PopOp}
    (hk : s.kOp = .readInto n c p) (he : readContinue n c p s = .ok t) : Delivered t := by
  have hall : s.ghost.popped = returnedBytes s ++ s.out.map Prod.snd := pendingBytes_readInto hk ▸ hd
  have hc := h.consumer_ok
  rcases p with - | (x | ⟨x, v⟩)
  · cases he
    exact delivered_readK1 hall n c
  · simp only [readContinue] at he
    split at he <;> cases he
    exact hall
  · simp only [consumerInProgressOk, hk] at hc
    have htaken : (outWrite c v (advanceHead v s)).ghost.popped =
        returnedBytes s ++ (outWrite c v (advanceHead v s)).out.map Prod.snd := by
      simp [h.out_write hc.1, hall]
    simp only [readContinue] at he
    split at he <;> cases he
    · exact htaken
    · exact delivered_readFinish (s := setKOp .idle (outWrite c v (advanceHead v s))) rfl htaken (c + 1)

theorem delivered_popContinue (hd : Delivered s) {p : PopOp} (hk : s.kOp = .pop p) (he : popContinue p s = .ok t) :
    Delivered t := by
  have hall := hd.returned (pendingBytes_pop hk)
  cases p with
  | afterK1 x =>
    simp only [popContinue] at he
    split at he <;> cases he
    exact delivered_of_returned (pendingBytes_pop rfl) hall
  | afterK2 x v =>
    cases he
    exact delivered_pop_some hall (.inl rfl) v

theorem delivered_drainContinue (hd : Delivered s) {p : Option PopOp} (hk : s.kOp = .drain p)
    (he : drainContinue p s = .ok t) : Delivered t := by
  have hall := hd.returned (pendingBytes_drain hk)
  obtain ⟨-, rfl⟩ | ⟨x, v, -, -, rfl⟩ | ⟨x, v, -, rfl⟩ := drainContinue_cases he
  · exact delivered_drainK1 hall
  · exact delivered_of_returned (pendingBytes_drain rfl) hall
  · exact delivered_pop_some hall (.inr ⟨_, rfl⟩) v

theorem delivered_exec (i : Instr) (hd : Delivered s) (he : exec i s = .next t) : Delivered t := by
  cases i with
  | nop a => exact exec_nop_eq he ▸ hd
  | isEmpty a =>
    exact exec_isEmpty_eq he ▸ hd.of_same rfl (returnedBytes_giveResult_nil _ rfl rfl) rfl rfl
  | isFull a =>
    exact exec_isFull_eq he ▸ hd.of_same rfl (returnedBytes_giveResult_nil _ rfl rfl) rfl rfl
  | push b =>
    exact exec_push_eq he ▸ hd.of_producer (pushWhole_producerStep b) (returnedBytes_pushWhole b s)
  | pop =>
    obtain ⟨hr, ⟨-, rfl⟩ | ⟨v, -, -, rfl⟩⟩ := exec_pop_cases he
    · exact hd.of_same rfl (returnedBytes_giveResult_nil _ rfl rfl) rfl rfl
    · have hk := Ready.kOp_idle hr
      have := delivered_pop_some (hd.returned (pendingBytes_idle hk)) (.inl rfl) v
      rwa [setKOp_idle (s := advanceHead v s) hk] at this
  | readInto n =>
    obtain ⟨hr, -, vs, -, rfl, -⟩ := exec_readInto_cases he
    have hk := Ready.kOp_idle hr
    refine delivered_readFinish (by simp [hk]) ?_ _
    rw [returnedBytes_of_results (s := s) (by simp)]
    simp [hd.returned (pendingBytes_idle hk)]

theorem delivered_beginOp (i : Instr) (hd : Delivered s) (he : beginOp i s = .next t) : Delivered t := by
  cases i with
  | nop a => exact delivered_exec (.nop a) hd he
  | isEmpty a => exact delivered_exec (.isEmpty a) hd he
  | isFull a => exact delivered_exec (.isFull a) hd he
  | push b =>
    obtain ⟨-, he⟩ := unlessRefused_next.mp he
    cases he
    exact hd.of_producer (pushBegin_producerStep b) (returnedBytes_pushBegin b s)
  | pop =>
    obtain ⟨hr, he⟩ := unlessRefused_next.mp he
    cases he
    exact delivered_popBegin hd (Ready.kOp_idle hr)
  | readInto n =>
    obtain ⟨hr, he⟩ := unlessRefused_next.mp he
    obtain ⟨-, he⟩ := unlessRefused_next.mp he
    cases he
    have hk := Ready.kOp_idle hr
    exact delivered_readBegin (hd.returned (pendingBytes_idle hk)) hk n

theorem delivered_microStep (h : Good s) {a : Agent} (hd : Delivered s) (he : microStep a s = .next t) :
    Delivered t := by
  cases a with
  | P => exact microStep_P_cases he ▸ hd.of_producer pushContinue_producerStep (returnedBytes_pushContinue s)
  | K =>
    obtain ⟨p, hk, he⟩ | ⟨n, c, p, hk, he⟩ | ⟨p, hk, he⟩ := microStep_K_cases he
    · exact delivered_popContinue hd hk he
    · exact delivered_readContinue h hd hk he
    · exact delivered_drainContinue hd hk he

/-- Every entry of the trace returns the bytes it pops or holds them in the region of a `READ_INTO` in progress. -/
theorem delivered_runItem (h : Good s) {x : TraceItem} (hd : Delivered s) (he : runItem x s = .next t) :
    Delivered t := by
  cases x with
  | command w => obtain ⟨i, -, he⟩ := runCommand_cases he; exact delivered_exec i hd he
  | start w => obtain ⟨i, -, he⟩ := startCommand_cases he; exact delivered_beginOp i hd he
  | micro a => exact delivered_microStep h hd he
  | syncHead k => obtain ⟨hv, tv, -, -, rfl⟩ := syncHead_cases he; exact hd.of_same rfl rfl rfl rfl
  | syncTail k => obtain ⟨hv, tv, -, -, rfl⟩ := syncTail_cases he; exact hd.of_same rfl rfl rfl rfl
  | drain =>
    obtain ⟨u, hu, ht⟩ := runDrain_cases he
    have hdu := delivered_exec .pop hd hu
    obtain rfl | rfl := ht
    · exact hdu
    · exact hdu.of_same rfl rfl rfl rfl
  | startDrain =>
    obtain ⟨hr, rfl⟩ := drainBegin_cases he
    exact delivered_drainK1 (hd.returned (pendingBytes_idle (Ready.kOp_idle hr)))
  | region len => cases he; exact hd.of_same rfl rfl rfl rfl
  | rst => cases he

theorem Reachable.delivered {cfg : Config} (hC : 2 ≤ cfg.C) (hr : Reachable cfg s) : Delivered s := by
  induction hr with
  | reset trace => rfl
  | step s t hs he ih =>
    obtain ⟨-, rfl⟩ | ⟨x, -, he⟩ := step_cases he
    · exact ih
    · exact delivered_runItem ((hs.good hC).setTrace s.trace.tail) ih he

/-- Settles O7: the bytes delivered are the popped ones, which the invariant says are the first `PO` accepted; the rest
stand in the occupied slots. -/
theorem bytesArriveInPushOrder : Obligations.BytesArriveInPushOrder := by
  intro cfg s hC hr
  have h := hr.good hC
  exact ⟨(hr.delivered hC).symm.trans h.fifo, h.contents_eq⟩

end Sys2Proof.Machine
end

/-! # Micro-steps: in a row, and with a step of another agent between -/

section
namespace Sys2Proof.Machine

variable {s t u : State} {x : TraceItem} {rest : List TraceItem} {b v : Byte} {k : Nat}

/-! A `PUSH` and a `POP` beside what `K` has in progress and the rest of the trace. -/

@[simp] theorem pushWhole_pOp (b : Byte) (s : State) : (pushWhole b s).pOp = s.pOp := by unfold pushWhole; split <;> rfl

@[simp] theorem pushWhole_kOp (b : Byte) (s : State) : (pushWhole b s).kOp = s.kOp := by unfold pushWhole; split <;> rfl

theorem pushWhole_setTrace (b : Byte) (l : List TraceItem) (s : State) :
    pushWhole b (setTrace l s) = setTrace l (pushWhole b s) := by
  unfold pushWhole
  rw [setTrace_fullSeen]
  split <;> rfl

theorem pushWhole_setKOp (b : Byte) (o : KOp) (s : State) : pushWhole b (setKOp o s) = setKOp o (pushWhole b s) := by
  unfold pushWhole
  rw [setKOp_fullSeen]
  split <;> rfl

/-- K3 as it ends a whole `POP`: `head` advances and the byte is returned (42_pop_read.md R91). -/
def popAdvance (v : Byte) (s : State) : State := giveResult .K (.pop (some v)) (advanceHead v s)

theorem popWhole_empty (he : emptySeen .K s = true) : popWhole s = .ok (giveResult .K (.pop none) s) := by
  simp [popWhole, popOnce_empty he]

theorem popWhole_some (he : emptySeen .K s = false) (hv : Memory.read s.storage s.head = some v) :
    popWhole s = .ok (popAdvance v s) := by
  simp [popWhole, popOnce_some he hv, popAdvance]

theorem popWhole_error (he : emptySeen .K s = false) (hv : Memory.read s.storage s.head = none) :
    popWhole s = .error (.unwrittenSlot s.head) := by
  simp [popWhole, popOnce, he, memRead, hv]

/-- Everything a whole `POP` can do when it does not fault. -/
theorem popWhole_cases (hp : popWhole s = .ok t) :
    (emptySeen .K s = true ∧ t = giveResult .K (.pop none) s) ∨
      ∃ v, emptySeen .K s = false ∧ Memory.read s.storage s.head = some v ∧ t = popAdvance v s := by
  unfold popWhole at hp
  split at hp <;> cases hp
  obtain ⟨he, rfl, rfl⟩ | ⟨v, he, hv, rfl, rfl⟩ := popOnce_cases ‹_›
  · exact .inl ⟨he, rfl⟩
  · exact .inr ⟨v, he, hv, rfl⟩

theorem exec_pop (hr : Ready .K s) : exec .pop s = ofExcept (popWhole s) := by simp [exec, execPop, hr]

/-! The micro-steps, each in front of the rest of a trace. -/

theorem steps_P1 (b : Byte) (hr : Ready .P s) (hf : fullSeen .P s = false) (l : List TraceItem) :
    steps (k + 1) (setTrace (.start (encode (.push b)) :: l) s) =
      steps k (setTrace l (setPOp (.afterP1 b (obs .P .head s)) s)) := by
  refine steps_cons rfl ?_
  rw [runItem_start rfl]
  exact beginOp_push_room b hr hf

theorem steps_P2 {h : Nat} (hc : contract s = none) (l : List TraceItem) :
    steps (k + 1) (setTrace (.micro .P :: l) (setPOp (.afterP1 b h) s)) =
      steps k (setTrace l (setPOp (.afterP2 b h) (pushWrite b s))) :=
  steps_cons rfl (microStep_P2 hc rfl)

theorem steps_P3 {h : Nat} (hc : contract s = none) (hp : s.pOp = .idle) (l : List TraceItem) :
    steps (k + 1) (setTrace (.micro .P :: l) (setPOp (.afterP2 b h) s)) = steps k (setTrace l (pushAdvance b s)) := by
  rw [← setPOp_idle (s := pushAdvance b s) hp]
  exact steps_cons rfl (microStep_P3 hc rfl)

theorem steps_K1 (hr : Ready .K s) (he : emptySeen .K s = false) (l : List TraceItem) :
    steps (k + 1) (setTrace (.start (encode .pop) :: l) s) =
      steps k (setTrace l (setKOp (.pop (.afterK1 (obs .K .tail s))) s)) := by
  refine steps_cons rfl ?_
  rw [runItem_start rfl]
  exact beginOp_pop_some hr he

theorem steps_K2 {y : Nat} (hc : contract s = none) (hi : insidePush .K s = false)
    (hv : Memory.read s.storage s.head = some v) (l : List TraceItem) :
    steps (k + 1) (setTrace (.micro .K :: l) (setKOp (.pop (.afterK1 y)) s)) =
      steps k (setTrace l (setKOp (.pop (.afterK2 y v)) s)) :=
  steps_cons rfl (microStep_K2 hc hi rfl hv)

theorem steps_K3 {y : Nat} (hc : contract s = none) (hi : insidePush .K s = false) (hk : s.kOp = .idle)
    (l : List TraceItem) :
    steps (k + 1) (setTrace (.micro .K :: l) (setKOp (.pop (.afterK2 y v)) s)) =
      steps k (setTrace l (popAdvance v s)) := by
  rw [← setKOp_idle (s := popAdvance v s) hk]
  exact steps_cons rfl (microStep_K3 hc hi rfl)

/-- Entries that do the same in front of the rest may stand for one another. -/
theorem steps_congr {y : TraceItem} (h : runItem x (setTrace rest s) = runItem y (setTrace rest s)) :
    steps (k + 1) (setTrace (x :: rest) s) = steps (k + 1) (setTrace (y :: rest) s) := by
  rw [← step_setTrace_cons, ← step_setTrace_cons] at h
  exact congrArg (andThen · (steps k)) h

/-- A fault of the first of several steps stops them. -/
theorem steps_fault {f : Fault} (ht : s.trace = x :: rest) (h : runItem x (setTrace rest s) = .fault f) :
    steps (k + 1) s = .fault f := by
  have hstep : stepTrace s = .fault f := (step_cons ht).trans h
  rw [steps, hstep]; rfl

/-- K2 of an unwritten slot stops the run. -/
theorem steps_K2_fault {y : Nat} (hc : contract s = none) (hi : insidePush .K s = false)
    (hv : Memory.read s.storage s.head = none) (l : List TraceItem) :
    steps (k + 1) (setTrace (.micro .K :: l) (setKOp (.pop (.afterK1 y)) s)) = .fault (.unwrittenSlot s.head) :=
  steps_fault rfl ((microStep_pop (s := setTrace l (setKOp (.pop (.afterK1 y)) s)) hc hi rfl).trans
    (by simp [popContinue, memRead, hv]))

theorem steps_push (b : Byte) (hr : Ready .P s) (l : List TraceItem) :
    steps (k + 1) (setTrace (.command (encode (.push b)) :: l) s) = steps k (setTrace l (pushWhole b s)) := by
  refine steps_cons rfl ?_
  rw [runItem_command rfl, ← pushWhole_setTrace]
  exact exec_push b hr

theorem steps_pop (hr : Ready .K s) (he : emptySeen .K s = false) (hv : Memory.read s.storage s.head = some v)
    (l : List TraceItem) :
    steps (k + 1) (setTrace (.command (encode .pop) :: l) s) = steps k (setTrace l (popAdvance v s)) := by
  refine steps_cons rfl ?_
  rw [runItem_command rfl]
  exact exec_pop_some hr he hv

/-- Settles O35: P1 to P3 and K1 to K3 one after the other, each leaving what the next one reads; both forms of a `POP`
stop at an unwritten slot. -/
theorem microStepsMakeTheWholeOperation : Obligations.MicroStepsMakeTheWholeOperation := by
  intro s b rest
  refine ⟨fun hr hf => ?_, fun hr hf => ?_, fun hr he => ?_, fun hr he => ?_⟩
  · rw [step_setTrace_cons, runItem_start rfl, exec_push (s := setTrace rest s) b hr,
      pushWhole_full (s := setTrace rest s) hf]
    exact beginOp_push_full b hr hf
  · obtain ⟨hc, -, -⟩ := ready_iff.mp hr
    rw [steps_P1 b hr hf, steps_P2 hc, steps_P3 (s := pushWrite b s) hc hr.pOp_idle, steps_zero,
      exec_push (s := setTrace rest s) b hr, pushWhole_setTrace, pushWhole_room hf]
  · rw [step_setTrace_cons, runItem_start rfl, exec_pop_empty (s := setTrace rest s) hr he]
    exact beginOp_pop_empty hr he
  · obtain ⟨hc, -, hi⟩ := ready_iff.mp hr
    rw [steps_K1 hr he, exec_pop (s := setTrace rest s) hr]
    cases hv : Memory.read s.storage s.head with
    | some v =>
      rw [steps_K2 hc hi hv, steps_K3 hc hi hr.kOp_idle, steps_zero, popWhole_some (s := setTrace rest s) he hv]
      rfl
    | none => rw [steps_K2_fault hc hi hv, popWhole_error (s := setTrace rest s) he hv]; rfl

/-! Steps that take no notice of what an agent has in progress. -/

/-- The entry `x` takes `s` to `t` whatever `P` has in progress and whatever is left of the trace. -/
def PassesPush (x : TraceItem) (s t : State) : Prop :=
  ∀ o l, runItem x (setTrace l (setPOp o s)) = .next (setTrace l (setPOp o t))

/-- The entry `x` takes `s` to `t` whatever `K` has in progress and whatever is left of the trace. -/
def PassesPop (x : TraceItem) (s t : State) : Prop :=
  ∀ o l, runItem x (setTrace l (setKOp o s)) = .next (setTrace l (setKOp o t))

theorem PassesPush.steps (hx : PassesPush x s t) (o : POp) (l : List TraceItem) :
    steps (k + 1) (setTrace (x :: l) (setPOp o s)) = steps k (setTrace l (setPOp o t)) := steps_cons rfl (hx o l)

theorem PassesPop.steps (hx : PassesPop x s t) (o : KOp) (l : List TraceItem) :
    steps (k + 1) (setTrace (x :: l) (setKOp o s)) = steps k (setTrace l (setKOp o t)) := steps_cons rfl (hx o l)

/-- With nothing of `P` in progress. -/
theorem PassesPush.steps_idle (hx : PassesPush x s t) (hp : s.pOp = .idle) (hp' : t.pOp = .idle) (l : List TraceItem) :
    Machine.steps (k + 1) (setTrace (x :: l) s) = Machine.steps k (setTrace l t) := by
  rw [← setPOp_idle hp, ← setPOp_idle hp']
  exact hx.steps .idle l

/-- With nothing of `K` in progress. -/
theorem PassesPop.steps_idle (hx : PassesPop x s t) (hk : s.kOp = .idle) (hk' : t.kOp = .idle) (l : List TraceItem) :
    Machine.steps (k + 1) (setTrace (x :: l) s) = Machine.steps k (setTrace l t) := by
  rw [← setKOp_idle hk, ← setKOp_idle hk']
  exact hx.steps .idle l

/-- `x` between P1 and P2, or between P2 and P3, of a `PUSH` that saw room: as if it had come before. -/
theorem PassesPush.inside_push (hx : PassesPush x s t) (hx' : PassesPush x (pushWrite b s) (pushWrite b t))
    (hr : Ready .P s) (hf : fullSeen .P s = false) (hc : contract t = none) (hp : t.pOp = .idle) :
    Machine.steps 4 (setTrace (.start (encode (.push b)) :: x :: .micro .P :: .micro .P :: rest) s) =
        .next (setTrace rest (pushAdvance b (pushWrite b t))) ∧
      Machine.steps 4 (setTrace (.start (encode (.push b)) :: .micro .P :: x :: .micro .P :: rest) s) =
        .next (setTrace rest (pushAdvance b (pushWrite b t))) := by
  constructor
  · rw [steps_P1 b hr hf, hx.steps, steps_P2 hc, steps_P3 (s := pushWrite b t) hc hp, steps_zero]
  · rw [steps_P1 b hr hf, steps_P2 (ready_iff.mp hr).1, hx'.steps, steps_P3 (s := pushWrite b t) hc hp, steps_zero]

/-- `x` between K1 and K2, or between K2 and K3, of a `POP` that saw a byte: as if it had come before. -/
theorem PassesPop.inside_pop (hx : PassesPop x s t) (hr : Ready .K s) (he : emptySeen .K s = false)
    (hv : Memory.read s.storage s.head = some v) (hv' : Memory.read t.storage t.head = some v) (hr' : Ready .K t) :
    Machine.steps 4 (setTrace (.start (encode .pop) :: x :: .micro .K :: .micro .K :: rest) s) =
        .next (setTrace rest (popAdvance v t)) ∧
      Machine.steps 4 (setTrace (.start (encode .pop) :: .micro .K :: x :: .micro .K :: rest) s) =
        .next (setTrace rest (popAdvance v t)) := by
  obtain ⟨hc, -, hi⟩ := ready_iff.mp hr
  obtain ⟨hc', -, hi'⟩ := ready_iff.mp hr'
  have hk' := hr'.kOp_idle
  constructor
  · rw [steps_K1 hr he, hx.steps, steps_K2 hc' hi' hv', steps_K3 hc' hi' hk', steps_zero]
  · rw [steps_K1 hr he, steps_K2 hc hi hv, hx.steps, steps_K3 hc' hi' hk', steps_zero]

/-! A `PUSH` inside a `POP`. -/

theorem Idle.ready_P (hi : Idle s) (h : Good s) : Ready .P s := Machine.ready_P h.contract hi.1

theorem Idle.ready_K (hi : Idle s) (h : Good s) : Ready .K s :=
  Machine.ready_K h.contract hi.2 (insidePush_of_idle hi.1 _)

theorem push_passesPop (b : Byte) (hr : Ready .P s) : PassesPop (.command (encode (.push b))) s (pushWhole b s) := by
  intro o l
  rw [runItem_command rfl, ← pushWhole_setKOp, ← pushWhole_setTrace]
  exact exec_push b hr

/-- Where `K` has seen a byte, the slot at `head` is not the one that the next `PUSH` writes. -/
theorem Good.head_ne_tail (h : Good s) (he : emptySeen .K s = false) : s.head ≠ s.tail := by
  have := h.emptySeen_K_false.mp he
  have := h.chain
  rw [h.head_eq]
  exact h.slot_ne_tail le_rfl (by omega)

/-- A `PUSH` does not touch the slot at `head` where `K` has seen it occupied. -/
theorem Good.pushWhole_read_head (h : Good s) (hr : Ready .P s) (he : emptySeen .K s = false) (b : Byte) :
    Memory.read (pushWhole b s).storage (pushWhole b s).head = Memory.read s.storage s.head := by
  have hhead : (pushWhole b s).head = s.head := (pushWhole_producerStep b).head
  rw [hhead]
  exact exec_push_read_other (exec_push b hr) (h.head_ne_tail he)

/-- A `PUSH` takes no byte from `K`'s sight. -/
theorem Good.pushWhole_emptySeen (h : Good s) (hr : Ready .P s) (he : emptySeen .K s = false) (b : Byte) :
    emptySeen .K (pushWhole b s) = false := by
  have hrun : runItem (.command (encode (.push b))) s = .next (pushWhole b s) := by
    rw [runItem_command rfl]; exact exec_push b hr
  have hmono := h.runItem_mono hrun
  have hPO : (pushWhole b s).ghost.PO = s.ghost.PO := (pushWhole_producerStep b).PO
  have := h.emptySeen_K_false.mp he
  rw [(good_pushWhole h hr.pOp_idle b).emptySeen_K_false]
  omega

/-- Settles O37: a `PUSH` takes no notice of a `POP` in progress and leaves the slot at `head` alone; a K1 that sees
none is the whole `POP`. -/
theorem pushInsidePopIsSerial : Obligations.PushInsidePopIsSerial := by
  intro s b rest h hi
  have hrP := hi.ready_P h
  have hrK := hi.ready_K h
  refine ⟨fun he => ?_, fun he => ?_⟩
  · have hg := good_pushWhole h hi.1 b
    have hr' : Ready .K (pushWhole b s) := Idle.ready_K ⟨by simp [hi.1], by simp [hi.2]⟩ hg
    obtain ⟨v, hv, -⟩ := h.read_head (h.emptySeen_K_false.mp he)
    have hv' := (h.pushWhole_read_head hrP he b).trans hv
    rw [steps_push b hrP, steps_pop hr' (h.pushWhole_emptySeen hrP he b) hv', steps_zero]
    exact (push_passesPop b hrP).inside_pop hrK he hv hv' hr'
  · have hpop (l : List TraceItem) : exec .pop (setTrace l s) = beginOp .pop (setTrace l s) :=
      (exec_pop_empty (s := setTrace l s) hrK he).trans (beginOp_pop_empty (s := setTrace l s) hrK he).symm
    refine steps_congr ?_
    rw [runItem_start rfl, runItem_command rfl, hpop]

end Sys2Proof.Machine
end

/-! # In `SYNCED` mode: a `POP` inside a `PUSH`, and the moves of the views -/

section
namespace Sys2Proof.Machine

variable {s t u : State} {x : TraceItem} {rest : List TraceItem} {b v : Byte} {k : Nat}

/-! A `POP` inside a `PUSH`. -/

theorem Good.popWhole_ok (h : Good s) : ∃ t, popWhole s = .ok t := by
  obtain ⟨⟨r, t⟩, hp⟩ := h.popOnce_ok
  exact ⟨Machine.giveResult .K (.pop r) t, by simp [popWhole, hp]⟩

/-- A whole `POP` takes no notice of what `P` has in progress, in `SYNCED` mode (20_memory.md R40). -/
theorem pop_passesPush (hc : contract s = none) (hk : s.kOp = .idle) (hm : s.mode = .SYNCED) (hp : popWhole s = .ok t) :
    PassesPush (.command (encode .pop)) s t := by
  intro o l
  have hr : Ready .K (setTrace l (setPOp o s)) :=
    ready_K hc hk (insidePush_of_synced (s := setTrace l (setPOp o s)) hm _)
  have hsame : popWhole (setTrace l (setPOp o s)) = .ok (setTrace l (setPOp o t)) := by
    obtain ⟨he, rfl⟩ | ⟨v, he, hv, rfl⟩ := popWhole_cases hp
    · exact popWhole_empty (by simpa using he)
    · exact popWhole_some (by simpa using he) hv
  rw [runItem_command rfl, exec_pop hr, hsame, ofExcept_ok]

/-- A whole `POP` does not read the slot that P2 writes. -/
theorem Good.popWhole_pushWrite (h : Good s) (hp : popWhole s = .ok t) (b : Byte) :
    popWhole (pushWrite b s) = .ok (pushWrite b t) := by
  obtain ⟨he, rfl⟩ | ⟨v, he, hv, rfl⟩ := popWhole_cases hp
  · exact popWhole_empty (by simpa [pushWrite] using he)
  · refine popWhole_some (by simpa [pushWrite] using he) ?_
    exact (read_write_other _ _ (h.head_ne_tail he)).trans hv

/-- In `SYNCED` mode a `POP` changes nothing that `P` sees. -/
theorem popWhole_fullSeen (hm : s.mode = .SYNCED) (hp : popWhole s = .ok t) : fullSeen .P t = fullSeen .P s := by
  obtain ⟨hv, tv, hs⟩ := mode_synced.mp hm
  obtain ⟨-, rfl⟩ | ⟨v, -, -, rfl⟩ := popWhole_cases hp
  · simp
  · simp [fullSeen, obs, popAdvance, hs]

theorem popWhole_pOp (hp : popWhole s = .ok t) : t.pOp = s.pOp := by
  obtain ⟨-, rfl⟩ | ⟨v, -, -, rfl⟩ := popWhole_cases hp <;> rfl

/-! The moves of the views. -/

/-- The move of a view that the entry `x` makes; in `DIRECT` mode there is none. -/
def viewMoved (x : TraceItem) (s : State) : State :=
  match x, s.sync with
  | .syncHead k, .synced hv tv => moveHeadView hv tv k s
  | .syncTail k, .synced hv tv => moveTailView hv tv k s
  | _, _ => s

/-- The entry `x` moves a view, no further than its index. -/
def Reaches (x : TraceItem) (s : State) : Prop :=
  match x with
  | .syncHead k => k ≤ dist s.C (obs .P .head s) s.head
  | .syncTail k => k ≤ dist s.C (obs .K .tail s) s.tail
  | _ => False

theorem runItem_view (hc : contract s = none) (hm : s.mode = .SYNCED) (hx : Reaches x s) :
    runItem x s = .next (viewMoved x s) := by
  obtain ⟨hv, tv, hs⟩ := mode_synced.mp hm
  cases x with
  | syncHead k =>
    have hk : k ≤ dist s.C hv s.head := by simpa [Reaches, obs, hs] using hx
    rw [runItem, syncHead_synced hc hs hk]
    simp only [viewMoved, hs]
  | syncTail k =>
    have hk : k ≤ dist s.C tv s.tail := by simpa [Reaches, obs, hs] using hx
    rw [runItem, syncTail_synced hc hs hk]
    simp only [viewMoved, hs]
  | _ => exact hx.elim

/-- The lags bound how far the views may move (10_state.md R27). -/
theorem Reaches.of_lags (hx : Reaches x s) (h : Good s) (ht : Good t)
    (hhead : s.ghost.PO - s.ghost.HV ≤ t.ghost.PO - t.ghost.HV)
    (htail : s.ghost.PU - s.ghost.TV ≤ t.ghost.PU - t.ghost.TV) : Reaches x t := by
  cases x with
  | syncHead k => rw [Reaches, h.head_lag] at hx; rw [Reaches, ht.head_lag]; exact hx.trans hhead
  | syncTail k => rw [Reaches, h.tail_lag] at hx; rw [Reaches, ht.tail_lag]; exact hx.trans htail
  | _ => exact hx.elim

section
variable (x : TraceItem) (s : State)

/-! A move of a view leaves the rest alone, and may come before or after what the agents do. -/

@[simp] theorem viewMoved_pOp : (viewMoved x s).pOp = s.pOp := by unfold viewMoved; split <;> rfl
@[simp] theorem viewMoved_kOp : (viewMoved x s).kOp = s.kOp := by unfold viewMoved; split <;> rfl
@[simp] theorem viewMoved_head : (viewMoved x s).head = s.head := by unfold viewMoved; split <;> rfl
@[simp] theorem viewMoved_storage : (viewMoved x s).storage = s.storage := by unfold viewMoved; split <;> rfl

theorem viewMoved_setPOp (o : POp) (l : List TraceItem) :
    viewMoved x (setTrace l (setPOp o s)) = setTrace l (setPOp o (viewMoved x s)) := by
  obtain ⟨C, sync, _⟩ := s
  cases x <;> cases sync <;> rfl

theorem viewMoved_setKOp (o : KOp) (l : List TraceItem) :
    viewMoved x (setTrace l (setKOp o s)) = setTrace l (setKOp o (viewMoved x s)) := by
  obtain ⟨C, sync, _⟩ := s
  cases x <;> cases sync <;> rfl

theorem viewMoved_pushWrite (b : Byte) : viewMoved x (pushWrite b s) = pushWrite b (viewMoved x s) := by
  obtain ⟨C, sync, _⟩ := s
  cases x <;> cases sync <;> rfl

theorem viewMoved_pushAdvance (b : Byte) : viewMoved x (pushAdvance b s) = pushAdvance b (viewMoved x s) := by
  obtain ⟨C, sync, _⟩ := s
  cases x <;> cases sync <;> rfl

theorem viewMoved_popAdvance (v : Byte) : viewMoved x (popAdvance v s) = popAdvance v (viewMoved x s) := by
  obtain ⟨C, sync, _⟩ := s
  cases x <;> cases sync <;> rfl

end

theorem view_passesPush (hc : contract s = none) (hm : s.mode = .SYNCED) (hx : Reaches x s) :
    PassesPush x s (viewMoved x s) := by
  intro o l
  rw [← viewMoved_setPOp]
  exact runItem_view (s := setTrace l (setPOp o s)) hc hm hx

theorem view_passesPop (hc : contract s = none) (hm : s.mode = .SYNCED) (hx : Reaches x s) :
    PassesPop x s (viewMoved x s) := by
  intro o l
  rw [← viewMoved_setKOp]
  exact runItem_view (s := setTrace l (setKOp o s)) hc hm hx

theorem good_viewMoved (h : Good s) (hm : s.mode = .SYNCED) (hx : Reaches x s) : Good (viewMoved x s) :=
  good_runItem h (runItem_view h.contract hm hx)

/-- A `PUSH` leaves room for every move of a view that was possible before it. -/
theorem Reaches.pushed (hx : Reaches x s) (h : Good s) (hp : s.pOp = .idle) (hm : s.mode = .SYNCED) (b : Byte) :
    Reaches x (pushWhole b s) := by
  have hg := good_pushWhole h hp b
  cases hf : fullSeen .P s with
  | true => rw [pushWhole_full hf] at hg ⊢; exact hx.of_lags h hg le_rfl le_rfl
  | false =>
    rw [pushWhole_room hf] at hg ⊢
    refine hx.of_lags h hg le_rfl ?_
    show _ ≤ s.ghost.PU + 1 - (s.ghost.pushed s.mode b).TV
    rw [hm, Ghost_pushed_TV_synced]
    omega

/-- So does a `POP` that took a byte. -/
theorem Reaches.popAdvance (hx : Reaches x s) (h : Good s) (hg : Good (popAdvance v s)) (hm : s.mode = .SYNCED) :
    Reaches x (popAdvance v s) := by
  refine hx.of_lags h hg ?_ le_rfl
  show _ ≤ s.ghost.PO + 1 - (s.ghost.popTaken s.mode v).HV
  rw [hm, Ghost_popTaken_HV_synced]
  omega

/-- Settles O38: in `SYNCED` mode neither a `POP` nor a move of a view takes notice of a `PUSH` in progress, nor a move
of a view of a `POP` in progress, and a move of a view may come before or after an operation. -/
theorem popAndViewMovesInsideAreSerial : Obligations.PopAndViewMovesInsideAreSerial := by
  intro s b k rest h hi hm
  have hrP := hi.ready_P h
  have hrK := hi.ready_K h
  refine ⟨fun hf => ?_, fun move hmove => ?_⟩
  · obtain ⟨t, ht⟩ := h.popWhole_ok
    have hc := (good_popWhole h hi.2 ht).contract
    have hp : t.pOp = .idle := (popWhole_pOp ht).trans hi.1
    have hroom : fullSeen .P t = false := (popWhole_fullSeen hm ht).trans hf
    have hpass := pop_passesPush h.contract hi.2 hm ht
    have hpass' := pop_passesPush (s := pushWrite b s) h.contract hi.2 hm (h.popWhole_pushWrite ht b)
    rw [hpass.steps_idle hi.1 hp, steps_push b (ready_P hc hp), steps_zero, pushWhole_room hroom]
    exact hpass.inside_push hpass' hrP hf hc hp
  · have hx : Reaches move s := by
      obtain ⟨rfl, hk⟩ | ⟨rfl, hk⟩ := hmove <;> exact hk
    have hc := (good_viewMoved h hm hx).contract
    refine ⟨fun hf => ?_, fun he => ?_⟩
    · have hpass := view_passesPush h.contract hm hx
      have hpass' : PassesPush move (pushWrite b s) (pushWrite b (viewMoved move s)) :=
        viewMoved_pushWrite move s b ▸ view_passesPush (s := pushWrite b s) h.contract hm hx
      have hafter := view_passesPush (good_pushWhole h hi.1 b).contract
        ((mode_of_sync (pushWhole_producerStep b).sync).trans hm) (hx.pushed h hi.1 hm b)
      rw [steps_push b hrP, hafter.steps_idle (by simp [hi.1]) (by simp [hi.1]), steps_zero, pushWhole_room hf,
        viewMoved_pushAdvance, viewMoved_pushWrite]
      exact hpass.inside_push hpass' hrP hf hc (by simp [hi.1])
    · obtain ⟨v, hv, -⟩ := h.read_head (h.emptySeen_K_false.mp he)
      have hg : Good (popAdvance v s) := good_popWhole h hi.2 (popWhole_some he hv)
      have hpass := view_passesPop h.contract hm hx
      have hafter := view_passesPop hg.contract hm (hx.popAdvance h hg hm)
      have hr' : Ready .K (viewMoved move s) :=
        ready_K hc (by simp [hi.2]) (insidePush_of_idle (by simp [hi.1]) _)
      rw [steps_pop hrK he hv, hafter.steps_idle (s := popAdvance v s) hi.2 (by simpa [popAdvance] using hi.2),
        steps_zero, viewMoved_popAdvance]
      exact hpass.inside_pop hrK he hv (by simpa using hv) hr'

end Sys2Proof.Machine
end

/-! # `READ_INTO` by micro-steps, and both agents on one clock edge -/

section
namespace Sys2Proof.Machine

variable {s t : State} {rest : List TraceItem} {b v : Byte} {k n c : Nat}

/-! `READ_INTO` by micro-steps. -/

theorem beginOp_readInto (hr : Ready .K s) (hn : n ≤ s.regionLen) :
    beginOp (.readInto n) s = .next (readBegin n s) := by
  simp [beginOp, hr, regionCheck, hn]

theorem readK1_setTrace (n count : Nat) (l : List TraceItem) (s : State) :
    readK1 n count (setTrace l s) = setTrace l (readK1 n count s) := by
  unfold readK1
  rw [setTrace_emptySeen, setTrace_obs]
  split <;> rfl

/-- K1 does not depend on what `K` had in progress. -/
theorem readK1_setKOp (n count : Nat) (o : KOp) (s : State) : readK1 n count (setKOp o s) = readK1 n count s := by
  unfold readK1
  rw [setKOp_emptySeen, setKOp_obs]
  split <;> rfl

theorem readK1_empty (hk : s.kOp = .idle) (he : emptySeen .K s = true) (n count : Nat) :
    readK1 n count s = readFinish count s := by
  rw [readK1, if_pos he, setKOp_idle (s := readFinish count s) hk]

theorem readK1_some (he : emptySeen .K s = false) (n count : Nat) :
    readK1 n count s = setKOp (.readInto n count (some (.afterK1 (obs .K .tail s)))) s := by
  simp [readK1, he]

theorem steps_readBegin (hwf : n ≤ NMAX) (hr : Ready .K s) (hn : n ≤ s.regionLen) (l : List TraceItem) :
    steps (k + 1) (setTrace (.start (encode (.readInto n)) :: l) s) = steps k (readBegin n (setTrace l s)) := by
  refine steps_cons rfl ?_
  rw [runItem_start (i := .readInto n) (decide_eq_true hwf)]
  exact beginOp_readInto hr hn

theorem readContinue_K2 {y : Nat} (hv : Memory.read s.storage s.head = some v) :
    readContinue n c (some (.afterK1 y)) s = .ok (setKOp (.readInto n c (some (.afterK2 y v))) s) := by
  simp [readContinue, memRead, hv]

theorem readContinue_K3_more {y : Nat} (hn : c + 1 < n) :
    readContinue n c (some (.afterK2 y v)) s =
      .ok (setKOp (.readInto n (c + 1) none) (outWrite c v (advanceHead v s))) := by
  simp [readContinue, hn]

theorem readContinue_K3_last {y : Nat} (hn : ¬ c + 1 < n) :
    readContinue n c (some (.afterK2 y v)) s =
      .ok (setKOp .idle (readFinish (c + 1) (outWrite c v (advanceHead v s)))) := by
  simp [readContinue, hn]

/-- The next micro-step of a `READ_INTO`, in front of the rest of a trace. -/
theorem steps_readContinue {p : Option PopOp} (hc : contract s = none) (hi : insidePush .K s = false)
    {l : List TraceItem} (he : readContinue n c p (setTrace l (setKOp (.readInto n c p) s)) = .ok t) :
    steps (k + 1) (setTrace (.micro .K :: l) (setKOp (.readInto n c p) s)) = steps k t := by
  refine steps_cons rfl ?_
  have hmicro := microStep_readInto (s := setTrace l (setKOp (.readInto n c p) s)) hc hi rfl
  rwa [he] at hmicro

theorem steps_readK1 (hc : contract s = none) (hi : insidePush .K s = false) (l : List TraceItem) :
    steps (k + 1) (setTrace (.micro .K :: l) (setKOp (.readInto n c none) s)) = steps k (setTrace l (readK1 n c s)) := by
  refine steps_readContinue hc hi ?_
  rw [readContinue, readK1_setTrace, readK1_setKOp]

theorem steps_readK2 {y : Nat} (hc : contract s = none) (hi : insidePush .K s = false)
    (hv : Memory.read s.storage s.head = some v) (l : List TraceItem) :
    steps (k + 1) (setTrace (.micro .K :: l) (setKOp (.readInto n c (some (.afterK1 y))) s)) =
      steps k (setTrace l (setKOp (.readInto n c (some (.afterK2 y v))) s)) :=
  steps_readContinue hc hi (readContinue_K2 hv)

/-- K3 of a `POP` that is not the last one. -/
theorem steps_readK3_more {y : Nat} (hc : contract s = none) (hi : insidePush .K s = false) (hn : c + 1 < n)
    (l : List TraceItem) :
    steps (k + 1) (setTrace (.micro .K :: l) (setKOp (.readInto n c (some (.afterK2 y v))) s)) =
      steps k (setTrace l (setKOp (.readInto n (c + 1) none) (outWrite c v (advanceHead v s)))) :=
  steps_readContinue hc hi (readContinue_K3_more hn)

/-- K3 of the last `POP` ends the `READ_INTO`. -/
theorem steps_readK3_last {y : Nat} (hc : contract s = none) (hi : insidePush .K s = false) (hk : s.kOp = .idle)
    (hn : ¬ c + 1 < n) (l : List TraceItem) :
    steps (k + 1) (setTrace (.micro .K :: l) (setKOp (.readInto n c (some (.afterK2 y v))) s)) =
      steps k (setTrace l (readFinish (c + 1) (outWrite c v (advanceHead v s)))) := by
  rw [← setKOp_idle (s := readFinish (c + 1) (outWrite c v (advanceHead v s))) hk]
  exact steps_readContinue hc hi (readContinue_K3_last hn)

/-- A K1 that sees none ends the `READ_INTO` as the loop does. -/
theorem readK1_ends (hk : s.kOp = .idle) (he : emptySeen .K s = true) (n count left : Nat) (rest : List TraceItem) :
    steps 0 (setTrace rest (readK1 n count s)) = ofExcept (readLoop (left + 1) count (setTrace rest s)) := by
  rw [readK1_empty hk he, readLoop_empty (s := setTrace rest s) he]
  rfl

/-- From K1 on, with `left + 1` passes still allowed, the micro-steps do what the loop does: three for each byte, where
the first K1 is done, and none more after the last allowed byte. -/
theorem readLoop_by_microSteps {left count : Nat} (h : Good s) (hk : s.kOp = .idle) (hi : insidePush .K s = false)
    (hn : count + left + 1 = n) (rest : List TraceItem) :
    ∃ m, m ≤ 3 * left + 2 ∧
      steps m (setTrace (List.replicate m (.micro .K) ++ rest) (readK1 n count s)) =
        ofExcept (readLoop (left + 1) count (setTrace rest s)) := by
  induction left generalizing count s with
  | zero =>
    cases he : emptySeen .K s with
    | true => exact ⟨0, by omega, readK1_ends hk he n count 0 rest⟩
    | false =>
      obtain ⟨v, hv, -⟩ := h.read_head (h.emptySeen_K_false.mp he)
      refine ⟨2, by omega, ?_⟩
      rw [readK1_some he, readLoop_some (s := setTrace rest s) he hv, List.replicate_succ, List.replicate_one]
      simp only [List.cons_append, List.nil_append]
      rw [steps_readK2 h.contract hi hv, steps_readK3_last h.contract hi hk (by omega)]
      rfl
  | succ left ih =>
    cases he : emptySeen .K s with
    | true => exact ⟨0, by omega, readK1_ends hk he n count (left + 1) rest⟩
    | false =>
      obtain ⟨v, hv, -⟩ := h.read_head (h.emptySeen_K_false.mp he)
      have hg : Good (outWrite count v (advanceHead v s)) := good_out (good_take h hk he hv) hk (write_wf h.out_wf _ _)
      obtain ⟨m, hm, hsteps⟩ := ih (count := count + 1) hg hk hi (by omega)
      refine ⟨m + 3, by omega, ?_⟩
      rw [readK1_some he, readLoop_some (s := setTrace rest s) he hv]
      simp only [List.replicate_succ, List.cons_append]
      rw [steps_readK2 h.contract hi hv, steps_readK3_more h.contract hi (by omega),
        steps_readK1 hg.contract hi, hsteps]
      rfl

/-- Settles O36: the entry performs K1 of the first `POP`, after which the loop takes at most `3n - 1` micro-steps more. -/
theorem readIntoMicroStepsMakeTheWhole : Obligations.ReadIntoMicroStepsMakeTheWhole := by
  intro n s rest hwf h hr hn
  have hexec : exec (.readInto n) (setTrace rest s) = ofExcept (readLoop n 0 (freshRegion (setTrace rest s))) :=
    exec_readInto (s := setTrace rest s) hr hn
  rw [hexec]
  cases n with
  | zero =>
    refine ⟨0, le_rfl, ?_⟩
    rw [steps_readBegin hwf hr hn]
    rfl
  | succ left =>
    obtain ⟨-, -, hi⟩ := ready_iff.mp hr
    obtain ⟨m, hm, hsteps⟩ := readLoop_by_microSteps (n := left + 1) (left := left) (count := 0)
      (good_freshRegion h hr.kOp_idle) hr.kOp_idle hi (by omega) rest
    refine ⟨m, by omega, ?_⟩
    have hbegin (l : List TraceItem) : readBegin (left + 1) (setTrace l s) =
        setTrace l (readK1 (left + 1) 0 (freshRegion s)) :=
      readK1_setTrace (left + 1) 0 l (freshRegion s)
    rw [steps_readBegin hwf hr hn, hbegin, hsteps]
    rfl

/-! Both agents on one clock edge. -/

/-- With a byte to pop, the state after the edge is that of the `PUSH` and then the `POP`. -/
theorem sameEdge_some (b : Byte) (he : emptySeen .K s = false) (hv : Memory.read s.storage s.head = some v) :
    sameEdge b s = .ok (popAdvance v (pushWhole b s)) := by
  rw [sameEdge, popOnce_some he hv, pushWhole]
  cases fullSeen .P s <;> rfl

/-- With none, the edge is the `PUSH`, and the `POP` is told so. -/
theorem sameEdge_none (b : Byte) (he : emptySeen .K s = true) :
    sameEdge b s = .ok (giveResult .K (.pop none) (pushWhole b s)) := by
  rw [sameEdge, popOnce_empty he, pushWhole]
  cases fullSeen .P s <;> rfl

/-- Each agent gets its results in its own order, so the order between the two agents does not show. -/
theorem resultsOf_swap {l : List (Agent × Result)} {q r : Result} (hs : s.results = l ++ [(.K, r), (.P, q)])
    (ht : t.results = l ++ [(.P, q), (.K, r)]) (a : Agent) : resultsOf a s = resultsOf a t := by
  cases a <;> simp [resultsOf, hs, ht]

/-- A `POP` takes no room from `P`'s sight. -/
theorem Good.popWhole_room (h : Good s) (hr : Ready .K s) (hp : popWhole s = .ok t) (hf : fullSeen .P s = false) :
    fullSeen .P t = false := by
  have hrun : runItem (.command (encode .pop)) s = .next t := by
    rw [runItem_command rfl, exec_pop hr, hp, ofExcept_ok]
  have hmono := h.runItem_mono hrun
  have hC : t.C = s.C ∧ t.ghost.PU = s.ghost.PU := by
    obtain ⟨-, rfl⟩ | ⟨v, -, -, rfl⟩ := popWhole_cases hp <;> exact ⟨rfl, rfl⟩
  have := h.fullSeen_P_false.mp hf
  rw [(good_popWhole h hr.kOp_idle hp).fullSeen_P_false]
  omega

/-- Settles O57: the edge gives the state and the results of the `PUSH` and then the `POP` as `K` saw it; in the other
order the same updates are made, and only the order of the two agents' results differs. -/
theorem sameEdgeIsASerialOrder : Obligations.SameEdgeIsASerialOrder := by
  intro s b h hi hm
  have hrP := hi.ready_P h
  have hrK := hi.ready_K h
  cases he : emptySeen .K s with
  | false =>
    obtain ⟨v, hv, -⟩ := h.read_head (h.emptySeen_K_false.mp he)
    refine ⟨_, sameEdge_some b he hv, ?_⟩
    rintro first second (⟨rfl, rfl, -⟩ | ⟨rfl, rfl, hf⟩)
    · have hr' : Ready .K (pushWhole b s) := Idle.ready_K ⟨by simp [hi.1], by simp [hi.2]⟩ (good_pushWhole h hi.1 b)
      refine ⟨_, ?_, rfl, fun _ => rfl⟩
      rw [exec_push b hrP, andThen_next, exec_pop hr', popWhole_some (h.pushWhole_emptySeen hrP he b)
        ((h.pushWhole_read_head hrP he b).trans hv), ofExcept_ok]
    · have hp := popWhole_some he hv
      have hr' : Ready .P (popAdvance v s) := ready_P (good_popWhole h hi.2 hp).contract hi.1
      refine ⟨pushAdvance b (pushWrite b (popAdvance v s)), ?_, ?_, ?_⟩
      · rw [exec_pop hrK, hp, ofExcept_ok, andThen_next, exec_push b hr',
          pushWhole_room (h.popWhole_room hrK hp hf)]
      · rw [pushWhole_room hf]; rfl
      · rw [pushWhole_room hf]
        exact resultsOf_swap (l := s.results) (q := .push true) (r := .pop (some v))
          (List.append_assoc _ _ _) (List.append_assoc _ _ _)
  | true =>
    refine ⟨_, sameEdge_none b he, ?_⟩
    rintro first second (⟨-, -, hne⟩ | ⟨rfl, rfl, hf⟩)
    · cases hne
    · refine ⟨pushAdvance b (pushWrite b (giveResult .K (.pop none) s)), ?_, ?_, ?_⟩
      · rw [exec_pop_empty hrK he, andThen_next, exec_push b (s := giveResult .K (.pop none) s) hrP,
          pushWhole_room (s := giveResult .K (.pop none) s) (by simpa using hf)]
      · rw [pushWhole_room hf]; rfl
      · rw [pushWhole_room hf]
        exact resultsOf_swap (l := s.results) (q := .push true) (r := .pop none)
          (List.append_assoc _ _ _) (List.append_assoc _ _ _)

end Sys2Proof.Machine
end

/-! # The encoding -/

section
namespace Sys2Proof

variable {w : CmdWord} {i j : Instr} {a : Agent} {r : Except Illegal Instr} {why : Illegal}

/-! The decoder in terms of the fields of the word. -/

theorem fieldOp_lt (w : CmdWord) : fieldOp w < 8 := Nat.mod_lt _ (by decide)

theorem fieldArg_lt (w : CmdWord) : fieldArg w < 4096 := Nat.mod_lt _ (by decide)

theorem fieldAg_eq_P : fieldAg w = .P ↔ bitField w.toNat 12 12 = 0 := by
  unfold fieldAg
  split <;> simp_all

/-- The bit that is not the producer's is the consumer's. -/
theorem fieldAg_ne_P : fieldAg w ≠ .P ↔ fieldAg w = .K := by cases fieldAg w <;> decide

theorem fieldAg_ne_K : fieldAg w ≠ .K ↔ fieldAg w = .P := by cases fieldAg w <;> decide

theorem noOperand_ok : noOperand w i = .ok j ↔ fieldArg w = 0 ∧ i = j := by
  unfold noOperand
  split <;> simp_all

theorem noOperand_error : (∃ why, noOperand w i = .error why) ↔ fieldArg w ≠ 0 := by
  unfold noOperand
  split <;> simp_all

theorem onlyBy_ok : onlyBy a w r = .ok j ↔ fieldAg w = a ∧ r = .ok j := by
  unfold onlyBy
  split <;> simp_all

theorem onlyBy_error : (∃ why, onlyBy a w r = .error why) ↔ fieldAg w ≠ a ∨ ∃ why, r = .error why := by
  unfold onlyBy
  split <;> simp_all

/-- With `arg[11:8]` zero the operand of `PUSH` is the whole of `arg` (30_encoding.md R56). -/
theorem fieldImm8_toNat (hpad : fieldImmPad w = 0) : (fieldImm8 w).toNat = fieldArg w := by
  have hlt := fieldArg_lt w
  simp only [fieldImmPad, fieldImm8, bitField, BitVec.toNat_ofNat] at hpad ⊢
  omega

/-- What a word that decodes holds: an operation, the agent that may issue it, and the operand, if any. -/
theorem decode_ok (hd : decode w = .ok i) :
    i.wf = true ∧ encode i = packWord (fieldOp w) (fieldAg w) (fieldArg w) := by
  unfold decode at hd
  split at hd
  case h_1 hop | h_2 hop | h_3 hop =>
    obtain ⟨harg, rfl⟩ := noOperand_ok.mp hd
    exact ⟨rfl, by rw [hop, harg]; rfl⟩
  case h_4 hop =>
    obtain ⟨hag, hd⟩ := onlyBy_ok.mp hd
    split at hd <;> cases hd
    rename_i hpad
    exact ⟨rfl, by rw [hop, hag, encode, fieldImm8_toNat hpad]⟩
  case h_5 hop =>
    obtain ⟨hag, hd⟩ := onlyBy_ok.mp hd
    obtain ⟨harg, rfl⟩ := noOperand_ok.mp hd
    exact ⟨rfl, by rw [hop, hag, harg]; rfl⟩
  case h_6 hop =>
    obtain ⟨hag, hd⟩ := onlyBy_ok.mp hd
    cases hd
    exact ⟨decide_eq_true (Nat.le_of_lt_succ (fieldArg_lt w)), by rw [hop, hag]; rfl⟩
  case h_7 => cases hd

/-- A word decodes to the instruction whose word it is, and to no other. -/
theorem decode_ok_iff : decode w = .ok i ↔ i.wf = true ∧ encode i = w := by
  constructor
  · intro hd
    have hfields := decode_ok hd
    rwa [packWord_fields] at hfields
  · rintro ⟨hi, rfl⟩
    exact decode_encode hi

/-- Settles O10: the fields of a packed word are those it was packed from. -/
theorem decodeUndoesEncode : Obligations.DecodeUndoesEncode := fun _ hi => decode_encode hi

/-- Settles O11: the fields that the decoder reads are all of the word. -/
theorem encodeUndoesDecode : Obligations.EncodeUndoesDecode := fun _ _ hd => decode_ok_iff.mp hd

/-- Settles O9: eleven words, decoded by evaluation. -/
theorem writtenWordsDecode : Obligations.WrittenWordsDecode := by
  unfold Obligations.WrittenWordsDecode
  decide

/-! The opcode table (30_encoding.md R61). -/

/-- The rows with a free agent bit select by `op` and an empty operand. -/
theorem and_EFFF_eq {op : Nat} (hop : op < 8) :
    w &&& 0xEFFF#16 = BitVec.ofNat 16 (op * 8192) ↔ fieldOp w = op ∧ fieldArg w = 0 := by
  have := w.isLt
  rw [← BitVec.toNat_inj, and_EFFF, BitVec.toNat_ofNat]
  simp only [fieldOp, fieldArg, bitField]
  omega

/-- The row of `PUSH` selects by `op`, the agent bit and `arg[11:8]`. -/
theorem and_FF00_eq : w &&& 0xFF00#16 = 0x6000#16 ↔ fieldOp w = 3 ∧ fieldAg w = .P ∧ fieldImmPad w = 0 := by
  have := w.isLt
  rw [← BitVec.toNat_inj, and_FF00, fieldAg_eq_P]
  simp only [fieldOp, fieldImmPad, fieldArg, bitField, BitVec.toNat_ofNat]
  omega

/-- The row of `READ_INTO` selects by `op` and the agent bit. -/
theorem and_F000_eq : w &&& 0xF000#16 = 0xB000#16 ↔ fieldOp w = 5 ∧ fieldAg w = .K := by
  have := w.isLt
  rw [← BitVec.toNat_inj, and_F000, ← fieldAg_ne_P, Ne, fieldAg_eq_P]
  simp only [fieldOp, bitField, BitVec.toNat_ofNat]
  omega

/-- The row of `POP` selects its one word. -/
theorem and_FFFF_eq : w &&& 0xFFFF#16 = 0x9000#16 ↔ w = encode .pop := by
  rw [show (0xFFFF#16 : CmdWord) = BitVec.allOnes 16 from rfl, BitVec.and_allOnes]
  rfl

/-- A word that a row selects decodes to the operation of the row. -/
theorem decode_of_selects {q : OpRow} (hq : q ∈ opcodeTable) (hw : q.selects w) :
    ∃ i, decode w = .ok i ∧ i.mnemonic = q.mnemonic := by
  simp only [opcodeTable, List.mem_cons, List.not_mem_nil, or_false] at hq
  obtain rfl | rfl | rfl | rfl | rfl | rfl := hq
  · obtain ⟨hop, harg⟩ := (and_EFFF_eq (op := 0) (by decide)).mp hw
    exact ⟨.nop (fieldAg w), by simp [decode, hop, noOperand, harg], rfl⟩
  · obtain ⟨hop, harg⟩ := (and_EFFF_eq (op := 1) (by decide)).mp hw
    exact ⟨.isEmpty (fieldAg w), by simp [decode, hop, noOperand, harg], rfl⟩
  · obtain ⟨hop, harg⟩ := (and_EFFF_eq (op := 2) (by decide)).mp hw
    exact ⟨.isFull (fieldAg w), by simp [decode, hop, noOperand, harg], rfl⟩
  · obtain ⟨hop, hag, hpad⟩ := and_FF00_eq.mp hw
    exact ⟨.push (fieldImm8 w), by simp [decode, hop, onlyBy, hag, hpad], rfl⟩
  · exact ⟨.pop, and_FFFF_eq.mp hw ▸ decode_encode rfl, rfl⟩
  · obtain ⟨hop, hag⟩ := and_F000_eq.mp hw
    exact ⟨.readInto (fieldArg w), by simp [decode, hop, onlyBy, hag], rfl⟩

/-- The row of an operation. -/
def Instr.row : Instr → OpRow
  | .nop _ => ⟨"NOP", 0x0000, 0xEFFF⟩
  | .isEmpty _ => ⟨"IS_EMPTY", 0x2000, 0xEFFF⟩
  | .isFull _ => ⟨"IS_FULL", 0x4000, 0xEFFF⟩
  | .push _ => ⟨"PUSH", 0x6000, 0xFF00⟩
  | .pop => ⟨"POP", 0x9000, 0xFFFF⟩
  | .readInto _ => ⟨"READ_INTO", 0xB000, 0xF000⟩

theorem row_mem (i : Instr) : i.row ∈ opcodeTable := by cases i <;> simp [Instr.row, opcodeTable]

theorem row_mnemonic (i : Instr) : i.row.mnemonic = i.mnemonic := by cases i <;> rfl

/-- The name of a row is enough to find it. -/
theorem row_unique : ∀ q ∈ opcodeTable, ∀ q' ∈ opcodeTable, q.mnemonic = q'.mnemonic → q = q' := by decide

/-- The row of an operation selects its words. -/
theorem row_selects (i : Instr) : i.row.selects (encode i) := by
  cases i with
  | nop a =>
    refine (and_EFFF_eq (op := 0) (by decide)).mpr ?_
    simp [encode, fieldOp_packWord, fieldArg_packWord]
  | isEmpty a =>
    refine (and_EFFF_eq (op := 1) (by decide)).mpr ?_
    simp [encode, fieldOp_packWord, fieldArg_packWord]
  | isFull a =>
    refine (and_EFFF_eq (op := 2) (by decide)).mpr ?_
    simp [encode, fieldOp_packWord, fieldArg_packWord]
  | push b =>
    have hb : b.toNat < 256 := b.isLt
    have hpad : b.toNat % 4096 / 256 = 0 := by omega
    refine and_FF00_eq.mpr ?_
    simp [encode, fieldImmPad, bitField, fieldOp_packWord, fieldAg_packWord, fieldArg_packWord, hpad]
  | pop => exact and_FFFF_eq.mpr rfl
  | readInto n =>
    refine and_F000_eq.mpr ?_
    simp [encode, fieldOp_packWord, fieldAg_packWord]

/-- A word decodes to an operation of a row exactly when the row selects it. -/
theorem decode_mnemonic_iff {q : OpRow} (hq : q ∈ opcodeTable) :
    (∃ i, decode w = .ok i ∧ i.mnemonic = q.mnemonic) ↔ q.selects w := by
  refine ⟨?_, decode_of_selects hq⟩
  rintro ⟨i, hd, hname⟩
  obtain ⟨-, rfl⟩ := decode_ok_iff.mp hd
  rw [← row_unique _ (row_mem i) _ hq ((row_mnemonic i).trans hname)]
  exact row_selects i

/-- Settles O12: the masks leave the fields that the decoder tests; a word that two rows selected would decode to an
operation of both names. -/
theorem opcodeMapSelectsOperations : Obligations.OpcodeMapSelectsOperations := by
  refine ⟨rfl, fun w q hq => decode_mnemonic_iff hq, fun w i hd => ?_, fun w => ?_, by decide⟩
  · obtain ⟨-, rfl⟩ := decode_ok_iff.mp hd
    exact ⟨i.row, row_mem i, row_selects i⟩
  · refine List.Pairwise.imp_of_mem ?_ (show opcodeTable.Pairwise (· ≠ ·) by decide)
    rintro q q' hq hq' hne ⟨hw, hw'⟩
    obtain ⟨i, hd, hname⟩ := decode_of_selects hq hw
    obtain ⟨i', hd', hname'⟩ := decode_of_selects hq' hw'
    rw [hd, Except.ok.injEq] at hd'
    subst hd'
    exact hne (row_unique _ hq _ hq' (hname.symm.trans hname'))

/-! The illegal words (30_encoding.md R59), and the step. -/

/-- The decoder refuses exactly the words that R59 lists. -/
theorem decode_error_iff : (∃ why, decode w = .error why) ↔
    (fieldOp w = 0b110 ∨ fieldOp w = 0b111 ∨ (fieldOp w = 0b011 ∧ fieldAg w = .K) ∨
     ((fieldOp w = 0b100 ∨ fieldOp w = 0b101) ∧ fieldAg w = .P) ∨
     (fieldOp w = 0b011 ∧ bitField (fieldArg w) 11 8 ≠ 0) ∨
     ((fieldOp w = 0b000 ∨ fieldOp w = 0b001 ∨ fieldOp w = 0b010 ∨ fieldOp w = 0b100) ∧ fieldArg w ≠ 0)) := by
  have hlt := fieldOp_lt w
  unfold decode
  split
  case h_1 hop | h_2 hop | h_3 hop => simp [hop, noOperand_error]
  case h_4 hop =>
    rw [onlyBy_error, fieldAg_ne_P]
    split <;> simp_all [fieldImmPad]
  case h_5 hop => simp [hop, onlyBy_error, noOperand_error, fieldAg_ne_K]
  case h_6 hop => simp [hop, onlyBy_error, fieldAg_ne_K]
  case h_7 h0 h1 h2 h3 h4 h5 =>
    simp only [imp_false] at h0 h1 h2 h3 h4 h5
    have hop : fieldOp w = 6 ∨ fieldOp w = 7 := by omega
    obtain hop | hop := hop <;> simp [hop]

end Sys2Proof

namespace Sys2Proof.Machine

variable {s : State} {w : CmdWord} {i : Instr} {why : Illegal}

theorem runCommand_of_illegal (hd : decode w = .error why) : runCommand w s = .refused (.illegalCommand why) := by
  simp only [runCommand, hd]

theorem startCommand_of_illegal (hd : decode w = .error why) : startCommand w s = .refused (.illegalCommand why) := by
  simp only [startCommand, hd]

/-- Settles O13: the conditions of R59 are those under which the decoder names a reason, and the callers of the decoder
hand its reason on. -/
theorem illegalWordsAreRefused : Obligations.IllegalWordsAreRefused := fun _ =>
  ⟨decode_error_iff, fun _ hd _ _ =>
    ⟨step_setTrace_cons.trans (runCommand_of_illegal hd), step_setTrace_cons.trans (startCommand_of_illegal hd)⟩⟩

theorem decodeTableWord_some {nbits n : Nat} (h : decodeTableWord nbits n = some i) :
    decode (tableWord nbits n) = .ok i := by
  unfold decodeTableWord at h
  split at h
  · cases hd : decode (tableWord nbits n) <;> rw [hd] at h <;> cases h
    rfl
  · cases h

/-- Settles O14: a command at the front of the trace is decoded and performed, and `withFetchWord` puts one there. -/
theorem stepPerformsDecodedCommand : Obligations.StepPerformsDecodedCommand :=
  ⟨fun _ _ _ _ hd ht => stepTrace_command hd ht, fun _ _ _ hi ht => stepTrace_command (decode_encode hi) ht,
    fun _ _ _ _ hd => stepTrace_command (decodeTableWord_some hd) rfl⟩

end Sys2Proof.Machine
end

/-! # The assembler, and the ports -/

section
namespace Sys2Proof.Machine

variable {s t : State} {a : Agent} {i : Instr} {u m : List Char} {n v w : Nat}

/-! The words of a line (30_encoding.md R62). -/

/-- A letter that stands in a token: no blank, and neither a comment nor `->` begins with it. -/
def isTokenChar (c : Char) : Bool := c != ';' && c != '-' && !isBlank c

/-- A word that may stand in a command. -/
abbrev IsToken (u : List Char) : Prop := u ≠ [] ∧ u.all isTokenChar = true

theorem commandPart_cons {c : Char} (h1 : c ≠ ';') (h2 : c ≠ '-') (rest : List Char) :
    commandPart (c :: rest) = c :: commandPart rest := by
  simp [commandPart, h2]

theorem commandPart_append (hu : u.all isTokenChar = true) (rest : List Char) :
    commandPart (u ++ rest) = u ++ commandPart rest := by
  induction u with
  | nil => rfl
  | cons c u ih =>
    rw [List.all_cons, Bool.and_eq_true] at hu
    obtain ⟨hc, hu⟩ := hu
    simp only [isTokenChar, Bool.and_eq_true, bne_iff_ne] at hc
    rw [List.cons_append, commandPart_cons hc.1.1 hc.1.2, ih hu, List.cons_append]

/-- Letters that are no blanks go onto the word being read. -/
theorem tokens_append (hu : u.all isTokenChar = true) (rest word : List Char) :
    tokens (u ++ rest) word = tokens rest (u.reverse ++ word) := by
  induction u generalizing word with
  | nil => rfl
  | cons c u ih =>
    rw [List.all_cons, Bool.and_eq_true] at hu
    obtain ⟨hc, hu⟩ := hu
    have hblank : isBlank c = false := by simp_all [isTokenChar]
    simp [tokens, hblank, ih hu]

/-- The first word of a line. -/
theorem tokens_first (hu : IsToken u) (rest : List Char) :
    tokens (commandPart (u ++ ' ' :: rest)) [] = u :: tokens (commandPart rest) [] := by
  rw [commandPart_append hu.2, commandPart_cons (by decide) (by decide), tokens_append hu.2]
  simp [tokens, isBlank, hu.1]

/-- The last word of a line. -/
theorem tokens_last (hu : IsToken u) : tokens (commandPart u) [] = [u] := by
  have hpart := commandPart_append hu.2 []
  have htokens := tokens_append hu.2 [] []
  simp only [List.append_nil, commandPart] at hpart htokens
  rw [hpart, htokens]
  simp [tokens, hu.1]

/-! The literals. -/

theorem hexDigit_mod (v : Nat) : hexDigit (v % 16) = hexDigit v := by simp [hexDigit]

theorem digitValue_hexDigit (v : Nat) : digitValue 16 (hexDigit v) = some (v % 16) := by
  have hall : ∀ k < 16, digitValue 16 (hexDigit k) = some k := by decide
  rw [← hexDigit_mod]
  exact hall _ (Nat.mod_lt _ (by decide))

theorem isTokenChar_hexDigit (v : Nat) : isTokenChar (hexDigit v) = true := by
  have hall : ∀ k < 16, isTokenChar (hexDigit k) = true := by decide
  rw [← hexDigit_mod]
  exact hall _ (Nat.mod_lt _ (by decide))

theorem readDigits_append (base : Nat) (cs ds : List Char) (acc : Nat) :
    readDigits base (cs ++ ds) acc = (readDigits base cs acc).bind (readDigits base ds) := by
  induction cs generalizing acc with
  | nil => rfl
  | cons c cs ih =>
    simp only [List.cons_append, readDigits]
    cases digitValue base c with
    | none => rfl
    | some d => exact ih _

/-- The digits written are read back onto the value read so far. -/
theorem readDigits_hexDigits (w v acc : Nat) :
    readDigits 16 (hexDigits w v) acc = some (acc * 16 ^ w + v % 16 ^ w) := by
  induction w generalizing v with
  | zero => simp [hexDigits, readDigits, Nat.mod_one]
  | succ w ih =>
    have hsplit : v % 16 ^ (w + 1) = v / 16 % 16 ^ w * 16 + v % 16 := by
      rw [Nat.pow_succ', Nat.mod_mul]; omega
    rw [hexDigits, readDigits_append, ih, Option.bind_some, readDigits, digitValue_hexDigit, hsplit, Nat.pow_succ]
    simp only [readDigits, Option.some.injEq]
    ring

theorem hexDigits_length (w v : Nat) : (hexDigits w v).length = w := by
  induction w generalizing v with
  | zero => rfl
  | succ w ih => simp [hexDigits, ih]

theorem isTokenChar_hexDigits (w v : Nat) : (hexDigits w v).all isTokenChar = true := by
  induction w generalizing v with
  | zero => rfl
  | succ w ih => simp [hexDigits, ih, isTokenChar_hexDigit]

theorem isToken_hexLiteral (w v : Nat) : IsToken (hexLiteral w v) :=
  ⟨List.cons_ne_nil _ _, isTokenChar_hexDigits w v⟩

/-- A literal with enough digits for its value is read back. -/
theorem readLiteral_hexLiteral (hw : 0 < w) (hv : v < 16 ^ w) : readLiteral (hexLiteral w v) = some v := by
  have hdigits : readLiteral (hexLiteral w v) = readDigits 16 (hexDigits w v) 0 := by
    cases hds : hexDigits w v with
    | nil => have := hexDigits_length w v; simp [hds] at this; omega
    | cons d ds => rw [hexLiteral, hds]; rfl
  rw [hdigits, readDigits_hexDigits, Nat.zero_mul, Nat.zero_add, Nat.mod_eq_of_lt hv]

/-! The line of a command. -/

theorem readAgent_agentText (a : Agent) : readAgent (agentText a) = some a := by cases a <;> rfl

theorem isToken_agentText (a : Agent) : IsToken (agentText a) := by cases a <;> decide

/-- A line without operand stands for what its mnemonic names. -/
theorem readLine_plain (hm : IsToken m) (hop : plainOp a m = some i) :
    readLine (agentText a ++ ' ' :: m) = some (.command (encode i)) := by
  simp [readLine, tokens_first (isToken_agentText a), tokens_last hm, readInstr, readAgent_agentText, hop]

/-- A line with an operand, which is read back from its literal. -/
theorem readLine_operand (hm : IsToken m) (hw : 0 < w) (hv : v < 16 ^ w) (hop : operandOp a m v = some i) :
    readLine (agentText a ++ ' ' :: (m ++ ' ' :: hexLiteral w v)) = some (.command (encode i)) := by
  simp [readLine, tokens_first (isToken_agentText a), tokens_first hm, tokens_last (isToken_hexLiteral w v), readInstr,
    readAgent_agentText, readLiteral_hexLiteral hw hv, hop]

/-- Settles O59: the words of the line are the agent, the mnemonic and the literal, and each is read back. -/
theorem assemblerReadsWhatItWrites : Obligations.AssemblerReadsWhatItWrites := by
  intro i hi
  cases i with
  | nop a => exact readLine_plain (m := "nop".toList) (by decide) rfl
  | isEmpty a => exact readLine_plain (m := "is_empty".toList) (by decide) rfl
  | isFull a => exact readLine_plain (m := "is_full".toList) (by decide) rfl
  | push b =>
    have hb : b.toNat < 256 := b.isLt
    exact readLine_operand (a := .P) (m := "push".toList) (w := 2) (by decide) (by decide) hb (by simp [operandOp, hb])
  | pop => exact readLine_plain (a := .K) (m := "pop".toList) (by decide) (by decide)
  | readInto n =>
    have hn : n ≤ NMAX := of_decide_eq_true hi
    exact readLine_operand (a := .K) (m := "read_into".toList) (w := 3) (by decide) (by decide) (Nat.lt_succ_of_le hn)
      (by simp [operandOp, hn])

/-! The ports (30_encoding.md R51, R52, R65). -/

/-- With a request the producer's port answers as the `PUSH` does. -/
theorem producerPorts_push {p : PIn} (hp : p.p_push = true) (he : exec p.command s = .next t) :
    ∃ ok, (producerPorts p s).p_ok = some ok ∧ newResults s t = [(.P, .push ok)] ∧
      ok = (p.p_push && !(producerPorts p s).p_full) := by
  have hcommand : p.command = .push p.p_data := by simp [PIn.command, hp]
  rw [hcommand] at he
  rw [exec_push_eq he, newResults_pushWhole]
  exact ⟨!fullSeen .P s, by simp [producerPorts, hp], rfl, by simp [producerPorts, hp]⟩

/-- Without one it has no value, and the command is `NOP`. -/
theorem producerPorts_nop {p : PIn} (hp : p.p_push = false) (he : exec p.command s = .next t) :
    (producerPorts p s).p_ok = none ∧ t = s := by
  have hcommand : p.command = .nop .P := by simp [PIn.command, hp]
  exact ⟨by simp [producerPorts, hp], exec_nop_eq (hcommand ▸ he)⟩

/-- With a request the consumer's ports answer as the `POP` does. -/
theorem consumerPorts_pop {k : KIn} (hk : k.k_pop = true) (he : exec k.command s = .next t) :
    ∃ ok, (consumerPorts k s).k_valid = some ok ∧ newResults s t = [(.K, .pop (consumerPorts k s).k_data)] ∧
      (consumerPorts k s).k_data.isSome = ok ∧ ok = (k.k_pop && !(consumerPorts k s).k_empty) := by
  have hcommand : k.command = .pop := by simp [KIn.command, hk]
  obtain ⟨-, ⟨hempty, rfl⟩ | ⟨v, hempty, hv, rfl⟩⟩ := exec_pop_cases (hcommand ▸ he)
  · have hports : consumerPorts k s = ⟨some false, none, true, fullSeen .K s⟩ := by simp [consumerPorts, hk, hempty]
    rw [hports, hk]
    exact ⟨false, rfl, newResults_giveResult _ _ rfl, rfl, rfl⟩
  · have hports : consumerPorts k s = ⟨some true, some v, false, fullSeen .K s⟩ := by
      simp [consumerPorts, hk, hempty, hv]
    rw [hports, hk]
    exact ⟨true, rfl, newResults_giveResult _ _ rfl, rfl, rfl⟩

/-- Without one they have no value, and the command is `NOP`. -/
theorem consumerPorts_nop {k : KIn} (hk : k.k_pop = false) (he : exec k.command s = .next t) :
    (consumerPorts k s).k_valid = none ∧ t = s := by
  have hcommand : k.command = .nop .K := by simp [KIn.command, hk]
  exact ⟨by simp [consumerPorts, hk], exec_nop_eq (hcommand ▸ he)⟩

theorem newResults_isFull (he : exec (.isFull a) s = .next t) : newResults s t = [(a, .isFull (fullSeen a s))] :=
  exec_isFull_eq he ▸ newResults_query _ _ _

theorem newResults_isEmpty (he : exec (.isEmpty a) s = .next t) : newResults s t = [(a, .isEmpty (emptySeen a s))] :=
  exec_isEmpty_eq he ▸ newResults_query _ _ _

/-- Settles O56: the ports are computed from the flags that the operations decide by, and from the slot that a `POP`
reads. -/
theorem portsAgreeWithOperations : Obligations.PortsAgreeWithOperations :=
  ⟨fun _ _ _ _ he => ⟨fun hp => producerPorts_push hp he, fun hp => producerPorts_nop hp he⟩,
    fun _ _ _ _ he => ⟨fun hk => consumerPorts_pop hk he, fun hk => consumerPorts_nop hk he⟩,
    fun _ _ _ _ hfull hempty => ⟨newResults_isFull hfull, newResults_isEmpty hempty⟩,
    fun _ _ _ _ hfull hempty => ⟨newResults_isFull hfull, newResults_isEmpty hempty⟩⟩

end Sys2Proof.Machine
end

/-! # Drains: alone, how they end, and one that does not -/

section
namespace Sys2Proof.Machine

variable {s t u : State} {x : TraceItem} {rest : List TraceItem} {i : Instr} {v : Byte} {vs : List Byte} {n : Nat}

/-! `POP`s one after another. -/

/-- The state after `POP`s that returned `vs`. -/
def popAll : List Byte → State → State
  | [], s => s
  | v :: vs, s => popAll vs (popAdvance v s)

/-- `POP`s one after another return `vs`, and the next one returns none. -/
def PopsUntilNone : List Byte → State → Prop
  | [], s => emptySeen .K s = true
  | v :: vs, s => emptySeen .K s = false ∧ Memory.read s.storage s.head = some v ∧ PopsUntilNone vs (popAdvance v s)

/-- The state that a drain which returns `vs` leaves. -/
def drained (vs : List Byte) (s : State) : State := giveResult .K (.pop none) (popAll vs s)

theorem drained_cons (v : Byte) (vs : List Byte) (s : State) : drained (v :: vs) s = drained vs (popAdvance v s) := rfl

theorem popAll_consumerStep (vs : List Byte) (s : State) : ConsumerStep vs s (popAll vs s) := by
  induction vs generalizing s with
  | nil => exact .refl
  | cons v vs ih => exact ((ConsumerStep.advanceHead v).giveResult _ _).trans (ih _)

theorem popAll_IN (vs : List Byte) (s : State) : (popAll vs s).ghost.IN = s.ghost.IN := by
  induction vs generalizing s with
  | nil => rfl
  | cons v vs ih => exact ih _

theorem popAll_kOp (vs : List Byte) (s : State) : (popAll vs s).kOp = s.kOp := by
  induction vs generalizing s with
  | nil => rfl
  | cons v vs ih => exact ih _

theorem popAll_obs_tail (vs : List Byte) (s : State) : obs .K .tail (popAll vs s) = obs .K .tail s := by
  induction vs generalizing s with
  | nil => rfl
  | cons v vs ih => rw [popAll, ih, popAdvance, giveResult_obs, advanceHead_obs_tail]

theorem popAll_results (vs : List Byte) (s : State) :
    (popAll vs s).results = s.results ++ vs.map (fun v => (.K, .pop (some v))) := by
  induction vs generalizing s with
  | nil => exact (List.append_nil _).symm
  | cons v vs ih => simp [popAll, ih, popAdvance]

/-- A drain returns its bytes in order and then none. -/
theorem newResults_drained (vs : List Byte) (s : State) :
    newResults s (drained vs s) = vs.map (fun v => (.K, .pop (some v))) ++ [(.K, .pop none)] := by
  simp [newResults, drained, popAll_results]

theorem PopsUntilNone.emptySeen (h : PopsUntilNone vs s) : emptySeen .K (popAll vs s) = true := by
  induction vs generalizing s with
  | nil => exact h
  | cons v vs ih => exact ih h.2.2

/-- At the end `head` is the tail that `K` observes. -/
theorem PopsUntilNone.head (h : PopsUntilNone vs s) : (popAll vs s).head = obs .K .tail s := by
  rw [← popAll_obs_tail vs s]
  exact emptySeen_iff.mp h.emptySeen

theorem PopsUntilNone.good (hv : PopsUntilNone vs s) (h : Good s) (hk : s.kOp = .idle) : Good (popAll vs s) := by
  induction vs generalizing s with
  | nil => exact h
  | cons v vs ih =>
    obtain ⟨he, hr, hv⟩ := hv
    exact ih hv (good_popWhole h hk (popWhole_some he hr)) hk

/-- In a good state there are as many bytes to pop as `K` sees. -/
theorem Good.popsUntilNone (h : Good s) (hk : s.kOp = .idle) (hn : s.ghost.TV - s.ghost.PO = n) :
    ∃ vs, vs.length = n ∧ PopsUntilNone vs s := by
  have hle := h.po_le_tv
  induction n generalizing s with
  | zero => exact ⟨[], rfl, h.emptySeen_K.mpr (by omega)⟩
  | succ n ih =>
    have hlt : s.ghost.PO < s.ghost.TV := by omega
    have he := h.emptySeen_K_false.mpr hlt
    obtain ⟨v, hv, -⟩ := h.read_head hlt
    have hg : Good (popAdvance v s) := good_popWhole h hk (popWhole_some he hv)
    have hcount : (popAdvance v s).ghost.TV - (popAdvance v s).ghost.PO = n := by simp [popAdvance]; omega
    obtain ⟨vs, hlen, hvs⟩ := ih hg hk hcount hg.po_le_tv
    exact ⟨v :: vs, by rw [List.length_cons, hlen], he, hv, hvs⟩

theorem Ready.popAdvance (hr : Ready .K s) (v : Byte) : Ready .K (popAdvance v s) := by
  obtain ⟨hc, hb, hi⟩ := ready_iff.mp hr
  exact ready_iff.mpr ⟨contract_advanceHead v hc, hb, hi⟩

/-! A drain with no other agent stepping, whole and taken apart. -/

theorem runDrain_empty (hr : Ready .K s) (he : emptySeen .K s = true) :
    runDrain s = .next (giveResult .K (.pop none) s) := by
  simp [runDrain, exec_pop_empty hr he, he]

theorem runDrain_some (hr : Ready .K s) (he : emptySeen .K s = false) (hv : Memory.read s.storage s.head = some v) :
    runDrain s = .next (setTrace (.drain :: s.trace) (popAdvance v s)) := by
  simp [runDrain, exec_pop_some hr he hv, he, popAdvance]

/-- The whole drain: one step for each `POP`. -/
theorem steps_drain (hr : Ready .K s) (hv : PopsUntilNone vs s) (rest : List TraceItem) :
    steps (vs.length + 1) (setTrace (.drain :: rest) s) = .next (setTrace rest (drained vs s)) := by
  induction vs generalizing s with
  | nil => exact steps_cons rfl (runDrain_empty (s := setTrace rest s) hr hv)
  | cons v vs ih =>
    obtain ⟨he, hv, hvs⟩ := hv
    rw [drained_cons, ← ih (hr.popAdvance v) hvs]
    exact steps_cons rfl (runDrain_some (s := setTrace rest s) hr he hv)

theorem drainK1_setTrace (l : List TraceItem) (s : State) : drainK1 (setTrace l s) = setTrace l (drainK1 s) := by
  unfold drainK1
  rw [setTrace_emptySeen, setTrace_obs]
  split <;> rfl

/-- K1 does not depend on what `K` had in progress. -/
theorem drainK1_setKOp (o : KOp) (s : State) : drainK1 (setKOp o s) = drainK1 s := by
  unfold drainK1
  rw [setKOp_emptySeen, setKOp_obs]
  split <;> rfl

theorem drainContinue_K2 {y : Nat} (hv : Memory.read s.storage s.head = some v) :
    drainContinue (some (.afterK1 y)) s = .ok (setKOp (.drain (some (.afterK2 y v))) s) := by
  simp [drainContinue, memRead, hv]

theorem microStep_drainK1 (hc : contract s = none) (hi : insidePush .K s = false) (hk : s.kOp = .drain none) :
    microStep .K s = .next (drainK1 s) := microStep_drain hc hi hk

theorem microStep_drainK2 {y : Nat} (hc : contract s = none) (hi : insidePush .K s = false)
    (hk : s.kOp = .drain (some (.afterK1 y))) (hv : Memory.read s.storage s.head = some v) :
    microStep .K s = .next (setKOp (.drain (some (.afterK2 y v))) s) := by
  rw [microStep_drain hc hi hk, drainContinue_K2 hv, ofExcept_ok]

/-- K3 of a `POP` of a drain: the byte is returned, and the drain stands between two `POP`s. -/
theorem microStep_drainK3 {y : Nat} (hc : contract s = none) (hi : insidePush .K s = false)
    (hk : s.kOp = .drain (some (.afterK2 y v))) : microStep .K s = .next (setKOp (.drain none) (popAdvance v s)) :=
  microStep_drain hc hi hk

/-- K2, K3 and the K1 of the next `POP`. -/
theorem steps_drainPop {k y : Nat} (hr : Ready .K s) (hv : Memory.read s.storage s.head = some v) (l : List TraceItem) :
    steps (k + 3) (setTrace (.micro .K :: .micro .K :: .micro .K :: l) (setKOp (.drain (some (.afterK1 y))) s)) =
      steps k (setTrace l (drainK1 (popAdvance v s))) := by
  obtain ⟨hc, -, hi⟩ := ready_iff.mp hr
  obtain ⟨hc', -, hi'⟩ := ready_iff.mp (hr.popAdvance v)
  have hK2 : steps (k + 3)
      (setTrace (.micro .K :: .micro .K :: .micro .K :: l) (setKOp (.drain (some (.afterK1 y))) s)) =
      steps (k + 2) (setTrace (.micro .K :: .micro .K :: l) (setKOp (.drain (some (.afterK2 y v))) s)) :=
    steps_cons rfl (microStep_drainK2 (s := setTrace _ (setKOp _ s)) hc hi rfl hv)
  have hK3 : steps (k + 2) (setTrace (.micro .K :: .micro .K :: l) (setKOp (.drain (some (.afterK2 y v))) s)) =
      steps (k + 1) (setTrace (.micro .K :: l) (setKOp (.drain none) (popAdvance v s))) :=
    steps_cons rfl (microStep_drainK3 (s := setTrace _ (setKOp _ s)) hc hi rfl)
  rw [hK2, hK3, ← drainK1_setKOp (.drain none), ← drainK1_setTrace]
  exact steps_cons rfl (microStep_drainK1 (s := setTrace l (setKOp _ (popAdvance v s))) hc' hi' rfl)

/-- The drain taken apart, from its first K1 on: three micro-steps for each byte, the last of them the K1 of the next
`POP`. -/
theorem steps_drainK1 (hr : Ready .K s) (hv : PopsUntilNone vs s) (rest : List TraceItem) :
    steps (3 * vs.length) (setTrace (List.replicate (3 * vs.length) (.micro .K) ++ rest) (drainK1 s)) =
      .next (setTrace rest (drained vs s)) := by
  induction vs generalizing s with
  | nil => rw [drainK1_empty hv, setKOp_idle hr.kOp_idle]; rfl
  | cons v vs ih =>
    obtain ⟨he, hv, hvs⟩ := hv
    rw [drainK1_some he, List.length_cons, Nat.mul_succ, drained_cons, ← ih (hr.popAdvance v) hvs]
    exact steps_drainPop hr hv _

theorem steps_startDrain (hr : Ready .K s) (hv : PopsUntilNone vs s) (rest : List TraceItem) :
    steps (3 * vs.length + 1) (setTrace (.startDrain :: (List.replicate (3 * vs.length) (.micro .K) ++ rest)) s) =
      .next (setTrace rest (drained vs s)) := by
  rw [← steps_drainK1 hr hv rest, ← drainK1_setTrace]
  exact steps_cons rfl (unlessRefused_next.mpr ⟨hr, rfl⟩)

/-! How a drain ends. -/

theorem ready_of_exec (he : exec i s = .next t) : Ready i.agent s := by
  cases i <;> exact (unlessRefused_next.mp he).1

theorem ready_of_beginOp (he : beginOp i s = .next t) : Ready i.agent s := by
  cases i <;> exact (unlessRefused_next.mp he).1

theorem actor_eq_K {a : Agent} : Agent.actor a = .K ↔ a = .K := by cases a <;> decide

/-- What `K` has in progress is changed by its own micro-steps only. -/
theorem kOp_of_runItem (hk : s.kOp ≠ .idle) (hx : x ≠ .micro .K) (he : runItem x s = .next t) : t.kOp = s.kOp := by
  by_contra hne
  obtain ⟨bytes, howned, -⟩ := runItem_owned x he
  have hactor := howned.consumer (.inr (.inr hne))
  have hready : Ready .K s := by
    cases x with
    | command w =>
      obtain ⟨i, hd, he⟩ := runCommand_cases he
      simp only [TraceItem.actor, hd, Option.some.injEq, actor_eq_K] at hactor
      exact hactor ▸ ready_of_exec he
    | start w =>
      obtain ⟨i, hd, he⟩ := startCommand_cases he
      simp only [TraceItem.actor, hd, Option.some.injEq, actor_eq_K] at hactor
      exact hactor ▸ ready_of_beginOp he
    | micro a =>
      simp only [TraceItem.actor, Option.some.injEq, actor_eq_K] at hactor
      exact absurd (congrArg TraceItem.micro hactor) hx
    | syncHead k | syncTail k | region len | rst => simp [TraceItem.actor] at hactor
    | drain =>
      obtain ⟨u, hu, -⟩ := runDrain_cases he
      exact ready_of_exec hu
    | startDrain => exact (drainBegin_cases he).1
  exact hk hready.kOp_idle

/-- A micro-step that ends a drain is a K1 that sees none. -/
theorem microStep_ends_drain (hd : Draining s) (he : microStep .K s = .next t) (hend : ¬ Draining t) :
    emptySeen .K s = true ∧ newResults s t = [(.K, .pop none)] := by
  obtain ⟨p, hk⟩ := hd
  obtain ⟨p', hk', -⟩ | ⟨m, c, p', hk', -⟩ | ⟨p', -, he⟩ := microStep_K_cases he
  · cases hk.symm.trans hk'
  · cases hk.symm.trans hk'
  · obtain ⟨-, rfl⟩ | ⟨y, v, -, -, rfl⟩ | ⟨y, v, -, rfl⟩ := drainContinue_cases he
    · cases hempty : emptySeen .K s with
      | true => exact ⟨rfl, drainK1_empty hempty ▸ newResults_giveResult _ _ rfl⟩
      | false => exact absurd ⟨_, congrArg State.kOp (drainK1_some hempty)⟩ hend
    · exact absurd ⟨_, rfl⟩ hend
    · exact absurd ⟨_, rfl⟩ hend

/-- A step that ends a drain is a K1 that sees none. -/
theorem step_ends_drain (hd : Draining s) (he : step s = .next t) (hend : ¬ Draining t) :
    emptySeen .K s = true ∧ newResults s t = [(.K, .pop none)] := by
  obtain ⟨-, rfl⟩ | ⟨x, -, he⟩ := step_cases he
  · exact absurd hd hend
  · by_cases hx : x = .micro .K
    · subst hx
      exact setTrace_emptySeen s .K _ ▸ microStep_ends_drain (s := setTrace s.trace.tail s) hd he hend
    · obtain ⟨p, hk⟩ := hd
      have hkeep := kOp_of_runItem (s := setTrace s.trace.tail s) (by simp [hk]) hx he
      exact absurd ⟨p, hkeep.trans hk⟩ hend

/-! A drain that never ends (70_reset_and_hazards.md R163). -/

/-- A drain taken apart, with a `PUSH` after each of its `POP`s. -/
def feedSched (b : Nat → Byte) (n : Nat) : TraceItem :=
  if n = 0 then .startDrain
  else if n % 4 = 3 then .command (encode (.push (b (n / 4))))
  else .micro .K

/-- What `K` has in progress at moment `n` of such a drain. -/
def DrainPhase (n : Nat) (o : KOp) : Prop :=
  match n % 4 with
  | 0 => o = if n = 0 then .idle else .drain none
  | 1 => ∃ y, o = .drain (some (.afterK1 y))
  | 2 => ∃ y v, o = .drain (some (.afterK2 y v))
  | _ => o = .drain none

/-- The state at moment `n` of such a drain, begun in `s`: one byte popped and one pushed in every four steps. -/
structure FedDrain (s : State) (n : Nat) (u : State) : Prop where
  good : Good u
  direct : u.mode = .DIRECT
  C : u.C = s.C
  pOp : u.pOp = .idle
  phase : DrainPhase n u.kOp
  PO : u.ghost.PO = s.ghost.PO + (n + 1) / 4
  PU : u.ghost.PU = s.ghost.PU + n / 4

theorem DrainPhase.draining {o : KOp} (h : DrainPhase n o) (hn : n ≠ 0) : ∃ p, o = .drain p := by
  unfold DrainPhase at h
  split at h
  · exact ⟨none, by rw [h, if_neg hn]⟩
  · obtain ⟨y, h⟩ := h; exact ⟨_, h⟩
  · obtain ⟨y, v, h⟩ := h; exact ⟨_, h⟩
  · exact ⟨_, h⟩

theorem FedDrain.begin (h : Good s) (hi : Idle s) (hm : s.mode = .DIRECT) : FedDrain s 0 s :=
  ⟨h, hm, rfl, hi.1, hi.2, rfl, rfl⟩

/-- The part of the next moment that holds after every step. -/
theorem FedDrain.next (h : FedDrain s n u) (he : runItem x u = .next t) (hp : t.pOp = .idle)
    (hphase : DrainPhase (n + 1) t.kOp) (hPO : t.ghost.PO = s.ghost.PO + (n + 1 + 1) / 4)
    (hPU : t.ghost.PU = s.ghost.PU + (n + 1) / 4) : FedDrain s (n + 1) t := by
  obtain ⟨bytes, howned, -⟩ := runItem_owned x he
  exact ⟨good_runItem h.good he, howned.mode.trans h.direct, howned.C.trans h.C, hp, hphase, hPO, hPU⟩

/-- K1 of each `POP`: a byte is always there. -/
theorem FedDrain.K1 (h : FedDrain s n u) (hseen : s.ghost.PO < s.ghost.PU) (hn : n % 4 = 0) (b : Nat → Byte) :
    ∃ t, runItem (feedSched b n) u = .next t ∧ FedDrain s (n + 1) t := by
  have hPO := h.PO
  have hPU := h.PU
  have hTV := (h.good.views_direct h.direct).2
  have hi := insidePush_of_idle h.pOp .K
  have hk : u.kOp = if n = 0 then .idle else .drain none := by simpa only [DrainPhase, hn] using h.phase
  have hrun : runItem (feedSched b n) u = .next (drainK1 u) := by
    by_cases h0 : n = 0
    · rw [if_pos h0] at hk
      rw [feedSched, if_pos h0]
      exact unlessRefused_next.mpr ⟨ready_K h.good.contract hk hi, rfl⟩
    · rw [if_neg h0] at hk
      rw [feedSched, if_neg h0, if_neg (by omega)]
      exact microStep_drainK1 h.good.contract hi hk
  rw [drainK1_some (h.good.emptySeen_K_false.mpr (by omega))] at hrun
  have hn' : (n + 1) % 4 = 1 := by omega
  refine ⟨_, hrun, h.next hrun h.pOp ?_ (hPO.trans (by omega)) (hPU.trans (by omega))⟩
  simp only [DrainPhase, hn']
  exact ⟨_, rfl⟩

theorem FedDrain.K2 (h : FedDrain s n u) (hn : n % 4 = 1) (b : Nat → Byte) :
    ∃ t, runItem (feedSched b n) u = .next t ∧ FedDrain s (n + 1) t := by
  obtain ⟨y, hk⟩ : ∃ y, u.kOp = .drain (some (.afterK1 y)) := by simpa only [DrainPhase, hn] using h.phase
  have hok := h.good.consumer_ok
  simp only [consumerInProgressOk, hk] at hok
  obtain ⟨v, hv, -⟩ := h.good.read_head hok
  have hrun : runItem (feedSched b n) u = .next (setKOp (.drain (some (.afterK2 y v))) u) := by
    rw [feedSched, if_neg (by omega), if_neg (by omega)]
    exact microStep_drainK2 h.good.contract (insidePush_of_idle h.pOp .K) hk hv
  have hn' : (n + 1) % 4 = 2 := by omega
  refine ⟨_, hrun, h.next hrun h.pOp ?_ (h.PO.trans (by omega)) (h.PU.trans (by omega))⟩
  simp only [DrainPhase, hn']
  exact ⟨_, _, rfl⟩

theorem FedDrain.K3 (h : FedDrain s n u) (hn : n % 4 = 2) (b : Nat → Byte) :
    ∃ t, runItem (feedSched b n) u = .next t ∧ FedDrain s (n + 1) t := by
  have hPO := h.PO
  obtain ⟨y, v, hk⟩ : ∃ y v, u.kOp = .drain (some (.afterK2 y v)) := by simpa only [DrainPhase, hn] using h.phase
  have hrun : runItem (feedSched b n) u = .next (setKOp (.drain none) (popAdvance v u)) := by
    rw [feedSched, if_neg (by omega), if_neg (by omega)]
    exact microStep_drainK3 h.good.contract (insidePush_of_idle h.pOp .K) hk
  have hn' : (n + 1) % 4 = 3 := by omega
  refine ⟨_, hrun, h.next hrun h.pOp ?_ ?_ (h.PU.trans (by omega))⟩
  · simp only [DrainPhase, hn']; rfl
  · show u.ghost.PO + 1 = _
    omega

/-- The `PUSH`: the byte just popped has left room. -/
theorem FedDrain.push (h : FedDrain s n u) (hroom : s.ghost.PU + 1 ≤ s.ghost.PO + s.C) (hn : n % 4 = 3)
    (b : Nat → Byte) : ∃ t, runItem (feedSched b n) u = .next t ∧ FedDrain s (n + 1) t := by
  have hPO := h.PO
  have hPU := h.PU
  have hHV := (h.good.views_direct h.direct).1
  have hC := h.C
  have hf : fullSeen .P u = false := h.good.fullSeen_P_false.mpr (by omega)
  have hk : u.kOp = .drain none := by simpa only [DrainPhase, hn] using h.phase
  have hrun : runItem (feedSched b n) u = .next (pushAdvance (b (n / 4)) (pushWrite (b (n / 4)) u)) := by
    rw [feedSched, if_neg (by omega), if_pos hn, runItem_command rfl, exec_push _ (ready_P h.good.contract h.pOp),
      pushWhole_room hf]
  have hn' : (n + 1) % 4 = 0 := by omega
  refine ⟨_, hrun, h.next hrun h.pOp ?_ (h.PO.trans (by omega)) ?_⟩
  · simp only [DrainPhase, hn']
    exact hk
  · show u.ghost.PU + 1 = _
    omega

theorem FedDrain.step (h : FedDrain s n u) (hseen : s.ghost.PO < s.ghost.PU)
    (hroom : s.ghost.PU + 1 ≤ s.ghost.PO + s.C) (b : Nat → Byte) :
    ∃ t, runItem (feedSched b n) u = .next t ∧ FedDrain s (n + 1) t := by
  have hn : n % 4 = 0 ∨ n % 4 = 1 ∨ n % 4 = 2 ∨ n % 4 = 3 := by omega
  obtain hn | hn | hn | hn := hn
  · exact h.K1 hseen hn b
  · exact h.K2 hn b
  · exact h.K3 hn b
  · exact h.push hroom hn b

/-- Where a property of each moment lets the schedule's next entry complete and gives the property of the next moment,
the schedule has a run. -/
theorem exists_run {sched : Nat → TraceItem} {P : Nat → State → Prop} (h0 : P 0 s)
    (hstep : ∀ n u, P n u → ∃ t, runItem (sched n) u = .next t ∧ P (n + 1) t) :
    ∃ run : Nat → State, IsRun sched run ∧ run 0 = s ∧ ∀ n, P n (run n) := by
  have : Nonempty State := ⟨s⟩
  choose! next hrun hnext using hstep
  have hall (n : Nat) : P n (Nat.rec s next n) := by
    induction n with
    | zero => exact h0
    | succ n ih => exact hnext n _ ih
  exact ⟨fun n => Nat.rec s next n, fun n => hrun n _ (hall n), rfl, hall⟩

/-- Settles O55: alone, the drain pops what `K` sees; only its K1 that sees none ends it; and fed with a byte for each
byte popped it goes on for ever. -/
theorem drainEndsOnlyWhenItSeesNone : Obligations.DrainEndsOnlyWhenItSeesNone := by
  refine ⟨fun s rest h hr => ?_, fun s t hd he hend => step_ends_drain hd he hend, fun s b h hi hm he => ?_⟩
  · obtain ⟨vs, hlen, hv⟩ := h.popsUntilNone hr.kOp_idle rfl
    have hstep := popAll_consumerStep vs s
    rw [h.seen_count, ← hlen]
    refine ⟨_, steps_drain hr hv rest, steps_startDrain hr hv rest, rfl, hv.head, hstep.tail, hstep.pOp,
      (popAll_kOp vs s).trans hr.kOp_idle, vs, rfl, ?_, newResults_drained vs s⟩
    exact h.contents_of_popped (hv.good h hr.kOp_idle) (popAll_IN vs s) hstep.PO hstep.popped
  · obtain ⟨hHV, hTV⟩ := h.views_direct hm
    have hseen : s.ghost.PO < s.ghost.PU := hTV ▸ h.emptySeen_K_false.mp he
    have hroom : s.ghost.PU + 1 ≤ s.ghost.PO + s.C := hHV ▸ h.pu_le
    obtain ⟨run, hrun, h0, hfed⟩ := exists_run (FedDrain.begin h hi hm) fun n u hu => hu.step hseen hroom b
    refine ⟨feedSched b, run, hrun, h0, rfl, fun n => ?_, fun n => (hfed (n + 1)).phase.draining n.succ_ne_zero,
      fun n => ⟨?_, ?_⟩⟩
    · rw [feedSched, if_neg (by omega), if_pos (by omega), show (4 * n + 3) / 4 = n by omega]
    · rw [(hfed _).PO]; omega
    · rw [(hfed _).PU]; omega

end Sys2Proof.Machine
end

/-! # `NOP`, `IS_EMPTY` and `IS_FULL` -/

section
namespace Sys2Proof

theorem mnemonic_eq_nop_iff {i : Instr} : i.mnemonic = "NOP" ↔ ∃ a, i = .nop a := by
  cases i <;> simp [Instr.mnemonic]

end Sys2Proof

namespace Sys2Proof.Machine

variable {a : Agent} {s : State} {w : CmdWord}

/-! What a ready agent is answered. -/

theorem exec_nop (hr : Ready a s) : exec (.nop a) s = .next s := unlessRefused_next.mpr ⟨hr, rfl⟩

theorem exec_isEmpty (hr : Ready a s) : exec (.isEmpty a) s = .next (giveResult a (.isEmpty (emptySeen a s)) s) :=
  unlessRefused_next.mpr ⟨hr, rfl⟩

theorem exec_isFull (hr : Ready a s) : exec (.isFull a) s = .next (giveResult a (.isFull (fullSeen a s)) s) :=
  unlessRefused_next.mpr ⟨hr, rfl⟩

theorem emptySeen_eq (a : Agent) (s : State) : emptySeen a s = decide (obs a .head s = obs a .tail s) := rfl

theorem fullSeen_eq (a : Agent) (s : State) :
    fullSeen a s = decide ((obs a .tail s + 1) % s.C = obs a .head s) := rfl

/-- The words of `NOP`, by its row of the opcode table (30_encoding.md R61). -/
theorem and_EFFF_eq_zero_iff : w &&& 0xEFFF = 0x0000 ↔ ∃ a, decode w = .ok (.nop a) := by
  have hrow : (∃ i, decode w = .ok i ∧ i.mnemonic = "NOP") ↔ w &&& 0xEFFF = 0x0000 :=
    decode_mnemonic_iff (row_mem (.nop .P))
  rw [← hrow]
  constructor
  · rintro ⟨i, hd, hname⟩
    obtain ⟨a, rfl⟩ := mnemonic_eq_nop_iff.mp hname
    exact ⟨a, hd⟩
  · rintro ⟨a, hd⟩
    exact ⟨.nop a, hd, rfl⟩

/-- Settles O16: a ready agent's `NOP` has nothing to do, and its row of the opcode table selects its words. -/
theorem nopChangesNothing : Obligations.NopChangesNothing :=
  ⟨fun _ _ hr => exec_nop hr, fun _ => and_EFFF_eq_zero_iff⟩

/-- Settles O17: the answer is the flag `empty` as the agent sees it, which compares the observed indices. -/
theorem isEmptyAnswersEquality : Obligations.IsEmptyAnswersEquality := by
  intro a s hr
  rw [exec_isEmpty hr, emptySeen_eq, giveResult]

/-- Settles O18: the answer is the flag `full` as the agent sees it, the sentinel test on the observed indices. -/
theorem isFullAnswersSentinelTest : Obligations.IsFullAnswersSentinelTest := by
  intro a s hr
  rw [exec_isFull hr, fullSeen_eq, giveResult]

/-! What they leave unchanged. -/

theorem giveResult_changes_results_only (a : Agent) (r : Result) (s : State) :
    giveResult a r s = { s with results := (giveResult a r s).results } := rfl

/-- Settles O26: `NOP` answers the state it was given, and a query that state with one more result. -/
theorem queriesFrame : Obligations.QueriesFrame := by
  rintro a i s t (rfl | rfl | rfl) he
  · obtain rfl := exec_nop_eq he
    exact ⟨rfl, fun _ => rfl, fun _ => rfl, fun _ => rfl⟩
  · obtain rfl := exec_isEmpty_eq he
    exact ⟨giveResult_changes_results_only _ _ _, nofun, fun _ => rfl, fun _ => rfl⟩
  · obtain rfl := exec_isFull_eq he
    exact ⟨giveResult_changes_results_only _ _ _, nofun, fun _ => rfl, fun _ => rfl⟩

end Sys2Proof.Machine
end

/-! # `PUSH`, its frame, and that no operation or micro-step waits -/

section
namespace Sys2Proof.Machine

variable {a : Agent} {i : Instr} {s t : State}

/-! What a `PUSH` answers, and what it leaves unchanged (41_push.md R81, R82). -/

theorem Ghost_pushed_eq (m : SyncMode) (b : Byte) (g : Ghost) :
    g.pushed m b =
      { g with PU := g.PU + 1, IN := g.IN ++ [b], TV := if m = .DIRECT then g.PU + 1 else g.TV } := by
  cases m <;> rfl

theorem fullSeen_P_iff : fullSeen .P s = true ↔ (s.tail + 1) % s.C = obs .P .head s := fullSeen_iff

theorem fullSeen_P_eq_false_iff : fullSeen .P s = false ↔ (s.tail + 1) % s.C ≠ obs .P .head s := by
  rw [← Bool.not_eq_true, fullSeen_P_iff]

/-- Settles O19: P1 decides by the flag `full` as `P` sees it, the sentinel test; P2 and P3 follow when there is room. -/
theorem pushStoresOrRejects : Obligations.PushStoresOrRejects := by
  intro b s hr
  rw [exec_push b hr]
  by_cases hfull : (s.tail + 1) % s.C = obs .P .head s
  · rw [if_pos hfull, pushWhole_full (fullSeen_P_iff.mpr hfull)]
    rfl
  · rw [if_neg hfull, pushWhole_room (fullSeen_P_eq_false_iff.mpr hfull), ← Ghost_pushed_eq]
    rfl

/-- Settles O27: a rejected `PUSH` gives a result only, and an accepted one writes the slot `tail`, then advances
`tail`. -/
theorem pushFrame : Obligations.PushFrame := by
  intro b s t he
  obtain ⟨-, ⟨hf, rfl⟩ | ⟨hf, rfl⟩⟩ := exec_push_cases he
  · exact ⟨rfl, rfl, rfl, rfl, rfl, rfl, rfl, rfl, rfl, rfl, fun _ => rfl, fun _ _ => rfl,
      fun _ => giveResult_changes_results_only _ _ _, by simp [hf]⟩
  · exact ⟨rfl, rfl, rfl, rfl, rfl, rfl, rfl, rfl, rfl, rfl, fun _ => rfl, fun _ hx => read_write_other _ _ hx,
      by simp [hf], fun _ => ⟨rfl, read_write_same _ _ _⟩⟩

/-! Nothing waits (41_push.md R84; 42_pop_read.md R92, R102): where the checks pass there is no refusal, and in a good
state there is no fault. -/

theorem exists_next {o : Host.Outcome State Fault Refusal} (hf : ∀ f, o ≠ .fault f) (hr : ∀ r, o ≠ .refused r) :
    ∃ t, o = .next t := by
  cases o with
  | next t => exact ⟨t, rfl⟩
  | fault f => exact absurd rfl (hf f)
  | refused r => exact absurd rfl (hr r)

theorem ofExcept_ne_refused (e : Except Fault State) (r : Refusal) : ofExcept e ≠ .refused r := by
  cases e <;> nofun

/-- An operation whose agent may begin it, with a region long enough, is not refused. -/
theorem exec_ne_refused (hr : Ready i.agent s) (hn : ∀ n, i = .readInto n → n ≤ s.regionLen) (r : Refusal) :
    exec i s ≠ .refused r := by
  cases i with
  | nop a => rw [exec_nop (a := a) hr]; nofun
  | isEmpty a => rw [exec_isEmpty (a := a) hr]; nofun
  | isFull a => rw [exec_isFull (a := a) hr]; nofun
  | push b => rw [exec_push b hr]; nofun
  | pop => rw [exec_pop hr]; exact ofExcept_ne_refused _ r
  | readInto n => rw [exec_readInto hr (hn n rfl)]; exact ofExcept_ne_refused _ r

/-- Settles O25: no good state faults, and a ready agent is not refused. -/
theorem everyOperationCompletes : Obligations.EveryOperationCompletes :=
  fun i _ h hr hn => exists_next (h.exec_ne_fault i) (exec_ne_refused hr hn)

/-- The next micro-step of an operation in progress is not refused: each form of `pOp` and of `kOp` has one. -/
theorem microStep_ne_refused (hc : contract s = none) (hb : busy a s = true) (hi : insidePush a s = false) (r : Refusal) :
    microStep a s ≠ .refused r := by
  cases a with
  | P =>
    cases hp : s.pOp with
    | idle => exact absurd hb (by simp [hp])
    | afterP1 b x => rw [microStep_P2 hc hp]; nofun
    | afterP2 b x => rw [microStep_P3 hc hp]; nofun
  | K =>
    cases hk : s.kOp with
    | idle => exact absurd hb (by simp [hk])
    | pop p => rw [microStep_pop hc hi hk]; exact ofExcept_ne_refused _ r
    | readInto n count p => rw [microStep_readInto hc hi hk]; exact ofExcept_ne_refused _ r
    | drain p => rw [microStep_drain hc hi hk]; exact ofExcept_ne_refused _ r

/-- Settles O39: no good state faults, and what is in progress is not refused its next micro-step. -/
theorem microStepsNeverWait : Obligations.MicroStepsNeverWait :=
  fun a _ h hb hi => exists_next (h.microStep_ne_fault a) (microStep_ne_refused h.contract hb hi)

end Sys2Proof.Machine
end

/-! # `POP` and `READ_INTO` -/

section
namespace Sys2Proof.Machine

variable {s t : State} {v : Byte} {n : Nat}

/-! What a `POP` answers (42_pop_read.md R91). -/

theorem Ghost_popTaken_eq (m : SyncMode) (v : Byte) (g : Ghost) :
    g.popTaken m v =
      { g with PO := g.PO + 1, popped := g.popped ++ [v], HV := if m = .DIRECT then g.PO + 1 else g.HV } := by
  cases m <;> rfl

theorem emptySeen_K_iff : emptySeen .K s = true ↔ s.head = obs .K .tail s := emptySeen_iff

theorem emptySeen_K_eq_false_iff : emptySeen .K s = false ↔ s.head ≠ obs .K .tail s := by
  rw [← Bool.not_eq_true, emptySeen_K_iff]

theorem exec_pop_unwritten (hr : Ready .K s) (he : emptySeen .K s = false) (hv : Memory.read s.storage s.head = none) :
    exec .pop s = .fault (.unwrittenSlot s.head) := by
  rw [exec_pop hr, popWhole_error he hv, ofExcept_error]

/-- Settles O20: K1 decides by the flag `empty` as `K` sees it; K2 reads the slot `head`, and K3 follows when it holds a
byte. -/
theorem popReturnsOldestByteOrNone : Obligations.PopReturnsOldestByteOrNone := by
  intro s hr
  refine ⟨fun he => ?_, fun he v hv => ?_, fun he hv => ?_⟩
  · rw [exec_pop_empty hr (emptySeen_K_iff.mpr he)]
    rfl
  · rw [exec_pop_some hr (emptySeen_K_eq_false_iff.mpr he) hv, ← Ghost_popTaken_eq]
    rfl
  · exact exec_pop_unwritten hr (emptySeen_K_eq_false_iff.mpr he) hv

/-! What a `READ_INTO` answers (42_pop_read.md R96, R98). -/

theorem readFinish_fresh (s : State) :
    readFinish 0 (freshRegion s) = { s with out := [], results := s.results ++ [(.K, .readInto 0 [])] } := rfl

/-- The whole `READ_INTO` that delivers `vs`: they stand in the region and in the result. -/
theorem readFinish_deliver (vs : List Byte) (s : State) :
    readFinish vs.length (deliver vs 0 (freshRegion s)) =
      { s with
        head := (deliver vs 0 (freshRegion s)).head
        out := regionOf vs
        results := s.results ++ [(.K, .readInto vs.length vs)]
        ghost := { s.ghost with
          PO := s.ghost.PO + vs.length
          popped := s.ghost.popped ++ vs
          HV := (deliver vs 0 (freshRegion s)).ghost.HV } } := by
  rw [readFinish, deliver_fresh_out, regionOf_bytes, deliver_eq, deliver_fresh_out]
  rfl

theorem exec_readInto_zero (hr : Ready .K s) : exec (.readInto 0) s = .next (readFinish 0 (freshRegion s)) := by
  rw [exec_readInto hr (Nat.zero_le _), readLoop_zero, ofExcept_ok]

theorem exec_readInto_empty (hr : Ready .K s) (hn : n ≤ s.regionLen) (he : emptySeen .K s = true) :
    exec (.readInto n) s = .next (readFinish 0 (freshRegion s)) := by
  cases n with
  | zero => exact exec_readInto_zero hr
  | succ n => rw [exec_readInto hr hn, readLoop_empty (s := freshRegion s) he, ofExcept_ok]

/-- Settles O23: with `n = 0` neither the loop nor the first micro-step makes a pass. -/
theorem readIntoZeroTouchesNothing : Obligations.ReadIntoZeroTouchesNothing := by
  intro s hr
  refine ⟨?_, ?_⟩
  · rw [exec_readInto_zero hr, readFinish_fresh]
  · rw [exec_readInto_zero hr, beginOp_readInto hr (Nat.zero_le _), readBegin, if_pos rfl]

/-- Settles O21: in a good state the loop goes on to the last byte that `K` sees, or to its `n`-th pass. -/
theorem readIntoDeliversWhatIsThere : Obligations.ReadIntoDeliversWhatIsThere := by
  intro n s h hr hn
  obtain ⟨t, he⟩ := everyOperationCompletes (.readInto n) s h hr (fun _ hm => by cases hm; exact hn)
  obtain ⟨vs, ht, hlen, hread⟩ := h.exec_readInto_cases he
  have hhead : (deliver vs 0 (freshRegion s)).head = (s.head + vs.length) % s.C := deliver_head _ _ _ h.head_lt
  rw [readFinish_deliver] at ht
  subst ht
  exact ⟨_, vs, he, hlen, fun k hk => ⟨(hread k hk).symm, read_regionOf vs k⟩,
    fun k hk => (read_regionOf vs k).trans (List.getElem?_eq_none hk), hhead, rfl, rfl⟩

/-- Settles O28: a `POP` gives a result, after one advance of `head` or none; a `READ_INTO` changes what delivering
changes, which is nothing but its region when `K` sees the ring empty. -/
theorem consumerFrame : Obligations.ConsumerFrame := by
  rintro i s t (rfl | ⟨n, rfl⟩) he
  · obtain ⟨-, ⟨-, rfl⟩ | ⟨v, hf, -, rfl⟩⟩ := exec_pop_cases he
    · exact ⟨rfl, rfl, rfl, rfl, rfl, rfl, rfl, rfl, rfl, rfl, fun _ => rfl, fun _ _ => rfl, nofun, fun _ => ⟨rfl, rfl⟩⟩
    · exact ⟨rfl, rfl, rfl, rfl, rfl, rfl, rfl, rfl, rfl, rfl, fun _ => rfl, fun _ _ => rfl, nofun, by simp [hf]⟩
  · obtain ⟨hr, hn, vs, hle, ht, -⟩ := exec_readInto_cases he
    have hempty (hE : emptySeen .K s = true) : t.head = s.head ∧ t.ghost = s.ghost := by
      rw [exec_readInto_empty hr hn hE] at he
      cases he
      exact ⟨rfl, rfl⟩
    have hout (k : Nat) (hk : n ≤ k) : Memory.read (regionOf vs) k = none :=
      (read_regionOf vs k).trans (List.getElem?_eq_none (hle.trans hk))
    rw [readFinish_deliver] at ht
    subst ht
    exact ⟨rfl, rfl, rfl, rfl, rfl, rfl, rfl, rfl, rfl, rfl, fun _ => rfl, nofun, fun _ hm => by cases hm; exact hout,
      hempty⟩

/-! A `READ_INTO` after a `POP`: the loop pops the same bytes whatever its region holds and wherever it writes. -/

/-- `s` with this output region. -/
def setOut (m : Memory) (s : State) : State := { s with out := m }

theorem outWrite_setOut (m : Memory) (c c' : Nat) (v : Byte) (s : State) :
    outWrite c' v (advanceHead v (setOut m s)) =
      setOut (Memory.write m c' v) (outWrite c v (advanceHead v s)) := rfl

theorem deliver_setOut (vs : List Byte) (m : Memory) (c c' : Nat) (s : State) :
    ∃ m', deliver vs c' (setOut m s) = setOut m' (deliver vs c s) := by
  induction vs generalizing m c c' s with
  | nil => exact ⟨m, rfl⟩
  | cons v vs ih => exact ih _ (c + 1) (c' + 1) (outWrite c v (advanceHead v s))

theorem readLoop_setOut {left c : Nat} (h : readLoop left c s = .ok t) (m : Memory) (c' : Nat) :
    ∃ vs, t = readFinish (c + vs.length) (deliver vs c s) ∧
      readLoop left c' (setOut m s) = .ok (readFinish (c' + vs.length) (deliver vs c' (setOut m s))) := by
  induction left generalizing m c c' s with
  | zero =>
    cases h
    exact ⟨[], rfl, rfl⟩
  | succ left ih =>
    cases he : emptySeen .K s with
    | true =>
      rw [readLoop_empty he] at h
      cases h
      exact ⟨[], rfl, readLoop_empty (s := setOut m s) he⟩
    | false =>
      cases hv : Memory.read s.storage s.head with
      | none => simp [readLoop, popOnce, he, memRead, hv] at h
      | some v =>
        rw [readLoop_some he hv] at h
        obtain ⟨vs, ht, hloop⟩ := ih h (Memory.write m c' v) (c' + 1)
        refine ⟨v :: vs, ?_, ?_⟩
        · rw [ht, List.length_cons, Nat.add_right_comm, Nat.add_assoc]; rfl
        · rw [readLoop_some (s := setOut m s) he hv, outWrite_setOut m c c', hloop, List.length_cons,
            Nat.add_right_comm, Nat.add_assoc]
          rfl

/-- The bytes that a `READ_INTO n` after a `POP` of `v` delivers are those that `READ_INTO (n + 1)` delivers after `v`. -/
theorem exec_readInto_succ (hr : Ready .K s) (hn : n + 1 ≤ s.regionLen) (he : emptySeen .K s = false)
    (hv : Memory.read s.storage s.head = some v) (hrest : exec (.readInto n) (advanceHead v s) = .next t) :
    ∃ vs, t = readFinish vs.length (deliver vs 0 (freshRegion (advanceHead v s))) ∧
      exec (.readInto (n + 1)) s = .next (readFinish (v :: vs).length (deliver (v :: vs) 0 (freshRegion s))) := by
  obtain ⟨hr', hn', -⟩ := exec_readInto_cases hrest
  rw [exec_readInto hr' hn', ofExcept_next] at hrest
  obtain ⟨vs, ht, hloop⟩ := readLoop_setOut hrest [(0, v)] 1
  refine ⟨vs, by rw [ht, Nat.zero_add], ?_⟩
  rw [exec_readInto hr hn, readLoop_some (s := freshRegion s) he hv, List.length_cons, Nat.add_comm vs.length]
  exact congrArg ofExcept hloop

/-- The two deliveries end in states that differ in the region only. -/
theorem deliver_after_pop (v : Byte) (vs : List Byte) (s : State) :
    deliver (v :: vs) 0 (freshRegion s) =
      setOut (regionOf (v :: vs)) (deliver vs 0 (freshRegion (advanceHead v s))) := by
  obtain ⟨m, hm⟩ : ∃ m, deliver (v :: vs) 0 (freshRegion s) = setOut m (deliver vs 0 (freshRegion (advanceHead v s))) :=
    deliver_setOut vs [(0, v)] 0 1 (freshRegion (advanceHead v s))
  have hout : m = regionOf (v :: vs) := by rw [← deliver_fresh_out (v :: vs) s, hm]; rfl
  rw [hm, hout]

/-- Settles O22: the first pass of the loop is the `POP`, and the passes after it do what those of `READ_INTO n` do, one
offset further on. -/
theorem readIntoIsASequenceOfPops : Obligations.ReadIntoIsASequenceOfPops := by
  intro n s hr hn
  refine ⟨fun he => ?_, fun v u t hpop hres hrest => ?_⟩
  · rw [exec_readInto_empty hr hn he, readFinish_fresh]
  · obtain ⟨-, ⟨-, rfl⟩ | ⟨w, he, hv, rfl⟩⟩ := exec_pop_cases hpop
    · simp at hres
    · obtain rfl : w = v := by simpa using hres
      obtain ⟨vs, rfl, hexec⟩ := exec_readInto_succ hr hn he hv hrest
      refine ⟨vs.length, vs, by simp [readFinish], ?_⟩
      rw [hexec, readFinish, deliver_after_pop]
      simp [setOut, readFinish, giveResult]

end Sys2Proof.Machine
end

/-! # A `DIRECT` machine is a `SYNCED` one whose views are brought up before each step -/

section
namespace Sys2Proof.Machine

variable {s t u : State}

/-- From an index, the distance to another leads to it. -/
theorem advanceBy_dist_self {C a b : Nat} (ha : a < C) (hb : b < C) : advanceBy C a (dist C a b) = b := by
  have h := advanceBy_dist ha hb 0
  rwa [Nat.add_zero, advanceBy_zero hb] at h

/-! The pieces that the steps are made of keep the agreement of the two machines. -/

namespace DirectAsSynced

theorem giveResult (h : DirectAsSynced s t) (a : Agent) (r : Result) :
    DirectAsSynced (giveResult a r s) (giveResult a r t) := { h with results := by simp [h.results] }

theorem setPOp (h : DirectAsSynced s t) (o : POp) : DirectAsSynced (setPOp o s) (setPOp o t) := { h with pOp := rfl }

theorem setKOp (h : DirectAsSynced s t) (o : KOp) : DirectAsSynced (setKOp o s) (setKOp o t) := { h with kOp := rfl }

theorem setTrace (h : DirectAsSynced s t) (l : List TraceItem) : DirectAsSynced (setTrace l s) (setTrace l t) :=
  { h with trace := rfl }

theorem outWrite (h : DirectAsSynced s t) (k : Nat) (v : Byte) : DirectAsSynced (outWrite k v s) (outWrite k v t) :=
  { h with out := by simp [h.out] }

theorem freshRegion (h : DirectAsSynced s t) : DirectAsSynced (freshRegion s) (freshRegion t) := { h with out := rfl }

theorem readFinish (h : DirectAsSynced s t) (count : Nat) :
    DirectAsSynced (readFinish count s) (readFinish count t) := by
  unfold Machine.readFinish
  rw [h.out]
  exact h.giveResult _ _

theorem pushWrite (h : DirectAsSynced s t) (b : Byte) : DirectAsSynced (pushWrite b s) (pushWrite b t) :=
  { h with storage := by simp [Machine.pushWrite, h.storage, h.tail] }

theorem pushAdvance (h : DirectAsSynced s t) (b : Byte) : DirectAsSynced (pushAdvance b s) (pushAdvance b t) :=
  { h with
    tail := by simp [Machine.pushAdvance, h.C, h.tail]
    results := by simp [Machine.pushAdvance, h.results]
    PU := by simp [Machine.pushAdvance, h.PU]
    IN := by simp [Machine.pushAdvance, h.IN] }

theorem advanceHead (h : DirectAsSynced s t) (v : Byte) : DirectAsSynced (advanceHead v s) (advanceHead v t) :=
  { h with
    head := by simp [h.C, h.head]
    PO := by simp [h.PO]
    popped := by simp [h.popped] }

/-- Both machines read the same slot of the same storage. -/
theorem memRead_head (h : DirectAsSynced s t) : memRead t t.head = memRead s s.head := by
  simp only [memRead, h.storage, h.head]

end DirectAsSynced

/-! The views brought up to their indices. -/

/-- The two machines agree, and each agent of the `SYNCED` one sees what it sees in the `DIRECT` one. -/
structure CaughtUp (s t : State) : Prop where
  contract : contract t = none
  agree : DirectAsSynced s t
  obs : ∀ a r, obs a r t = obs a r s

/-- In a good state the views are indices (10_state.md R15). -/
theorem Good.views_lt (h : Good t) {hv tv : Nat} (hs : t.sync = .synced hv tv) : hv < t.C ∧ tv < t.C := by
  have hrange := indicesInRange_iff.mp (contract_none.mp h.contract).2
  simpa [hs] using hrange.2.2

/-- `SYNC_HEAD` choosing `head`. -/
theorem DirectAsSynced.syncHead_head (h : DirectAsSynced s t) (ht : Good t) {hv tv : Nat}
    (hs : t.sync = .synced hv tv) :
    ∃ u, syncHead (dist t.C (obs .P .head t) t.head) t = .next u ∧ Good u ∧ DirectAsSynced s u ∧
      u.sync = .synced s.head tv := by
  have hobs : obs .P .head t = hv := by simp [obs, hs]
  have hmove := syncHead_synced ht.contract hs (le_refl (dist t.C hv t.head))
  refine ⟨_, hobs ▸ hmove, good_syncHead ht hmove, { h with synced := rfl }, ?_⟩
  rw [moveHeadView_sync, advanceBy_dist_self (ht.views_lt hs).1 ht.head_lt, h.head]

/-- `SYNC_TAIL` choosing `tail`. -/
theorem DirectAsSynced.syncTail_tail (h : DirectAsSynced s t) (ht : Good t) {hv tv : Nat}
    (hs : t.sync = .synced hv tv) :
    ∃ u, syncTail (dist t.C (obs .K .tail t) t.tail) t = .next u ∧ Good u ∧ DirectAsSynced s u ∧
      u.sync = .synced hv s.tail := by
  have hobs : obs .K .tail t = tv := by simp [obs, hs]
  have hmove := syncTail_synced ht.contract hs (le_refl (dist t.C tv t.tail))
  refine ⟨_, hobs ▸ hmove, good_syncTail ht hmove, { h with synced := rfl }, ?_⟩
  rw [moveTailView_sync, advanceBy_dist_self (ht.views_lt hs).2 ht.tail_lt, h.tail]

/-- Where the views of the one machine are the indices of the other, each agent sees the same in both. -/
theorem DirectAsSynced.obs_eq (h : DirectAsSynced s t) (hs : t.sync = .synced s.head s.tail) (a : Agent)
    (r : IndexReg) :
    obs a r t = obs a r s := by
  have hdirect := mode_direct.mp h.direct
  cases a <;> cases r <;> simp [obs, hs, hdirect, h.head, h.tail]

/-- Each view choosing its index leaves nothing unseen (43_cross_domain_sync.md R116). -/
theorem DirectAsSynced.syncBoth_caughtUp (h : DirectAsSynced s t) (ht : Good t) :
    ∃ t', syncBoth t = .next t' ∧ CaughtUp s t' := by
  obtain ⟨hv, tv, hs⟩ := mode_synced.mp h.synced
  obtain ⟨u, hmove, hu, hagree, husync⟩ := h.syncHead_head ht hs
  obtain ⟨t', hmove', ht', hagree', hsync'⟩ := hagree.syncTail_tail hu husync
  exact ⟨t', andThen_next_iff.mpr ⟨u, hmove, hmove'⟩, ht'.contract, hagree', hagree'.obs_eq hsync'⟩

namespace CaughtUp

theorem emptySeen (h : CaughtUp s t) (a : Agent) : emptySeen a t = emptySeen a s := by
  simp only [Machine.emptySeen, h.obs]

theorem fullSeen (h : CaughtUp s t) (a : Agent) : fullSeen a t = fullSeen a s := by
  simp only [Machine.fullSeen, h.obs, h.agree.C]

theorem busy (h : CaughtUp s t) (a : Agent) : busy a t = busy a s := by
  cases a with
  | P => simp only [Machine.busy, h.agree.pOp]
  | K => simp only [Machine.busy, h.agree.kOp]

/-- An agent that may begin in `DIRECT` mode may begin in `SYNCED` mode, which keeps `K` out of no `PUSH`. -/
theorem ready (h : CaughtUp s t) {a : Agent} (hr : Ready a s) : Ready a t :=
  ready_iff.mpr ⟨h.contract, (h.busy a).trans (ready_iff.mp hr).2.1, insidePush_of_synced h.agree.synced a⟩

theorem canContinue (h : CaughtUp s t) {a : Agent} (hc : cannotContinue a s = none) : cannotContinue a t = none :=
  cannotContinue_none.mpr
    ⟨h.contract, (h.busy a).trans (cannotContinue_none.mp hc).2.1, insidePush_of_synced h.agree.synced a⟩

end CaughtUp

/-! Outcomes that the `SYNCED` machine follows. -/

/-- Where the `DIRECT` machine has a next state, the `SYNCED` one has a next state that agrees with it. -/
def FollowedBy (o o' : Host.Outcome State Fault Refusal) : Prop :=
  ∀ u, o = .next u → ∃ u', o' = .next u' ∧ DirectAsSynced u u'

namespace FollowedBy
variable {o o' : Host.Outcome State Fault Refusal}

theorem next (h : DirectAsSynced s t) : FollowedBy (.next s) (.next t) := by
  rintro u ⟨⟩
  exact ⟨t, rfl, h⟩

theorem refused (r : Refusal) : FollowedBy (.refused r) o' := nofun

theorem fault (f : Fault) : FollowedBy (.fault f) o' := nofun

/-- A check that finds nothing wrong in the one machine finds nothing wrong in the other. -/
theorem unlessRefused {c c' : Option Refusal} (hc : c = none → c' = none) (h : c = none → FollowedBy o o') :
    FollowedBy (Machine.unlessRefused c o) (Machine.unlessRefused c' o') := by
  cases c with
  | none => rw [hc rfl]; exact h rfl
  | some r => exact refused r

theorem andThen {f f' : State → Host.Outcome State Fault Refusal} (h : FollowedBy o o')
    (hf : ∀ s t, DirectAsSynced s t → FollowedBy (f s) (f' t)) :
    FollowedBy (Machine.andThen o f) (Machine.andThen o' f') := by
  intro u he
  obtain ⟨v, hv, he⟩ := andThen_next_iff.mp he
  obtain ⟨v', hv', hagree⟩ := h v hv
  obtain ⟨u', he', hu⟩ := hf v v' hagree u he
  exact ⟨u', andThen_next_iff.mpr ⟨v', hv', he'⟩, hu⟩

end FollowedBy

/-! The steps of `P`. -/

theorem pushWhole_agree (h : CaughtUp s t) (b : Byte) : DirectAsSynced (pushWhole b s) (pushWhole b t) := by
  unfold pushWhole
  rw [h.fullSeen]
  split
  · exact h.agree.giveResult _ _
  · exact (h.agree.pushWrite b).pushAdvance b

theorem pushBegin_agree (h : CaughtUp s t) (b : Byte) : DirectAsSynced (pushBegin b s) (pushBegin b t) := by
  unfold pushBegin
  rw [h.fullSeen, h.obs]
  split
  · exact h.agree.giveResult _ _
  · exact h.agree.setPOp _

theorem pushContinue_agree (h : DirectAsSynced s t) : DirectAsSynced (pushContinue s) (pushContinue t) := by
  unfold pushContinue
  rw [h.pOp]
  cases s.pOp with
  | idle => exact h
  | afterP1 b x => exact (h.pushWrite b).setPOp _
  | afterP2 b x => exact (h.pushAdvance b).setPOp _

/-! The steps of `K`. -/

/-- While `K` sees the same `tail` one `POP` ends alike, and `K` goes on seeing the same. -/
theorem popOnce_agree (h : DirectAsSynced s t) (htail : obs .K .tail t = obs .K .tail s) {r : Option Byte}
    (he : popOnce s = .ok (r, u)) :
    ∃ u', popOnce t = .ok (r, u') ∧ DirectAsSynced u u' ∧ obs .K .tail u' = obs .K .tail u := by
  have hempty : emptySeen .K t = emptySeen .K s := by simp only [emptySeen, obs_K_head, h.head, htail]
  obtain ⟨hE, rfl, rfl⟩ | ⟨v, hE, hv, rfl, rfl⟩ := popOnce_cases he
  · exact ⟨t, popOnce_empty (hempty.trans hE), h, htail⟩
  · have hv' : Memory.read t.storage t.head = some v := by rw [h.storage, h.head, hv]
    exact ⟨advanceHead v t, popOnce_some (hempty.trans hE) hv', h.advanceHead v, by simpa using htail⟩

theorem popWhole_follows (h : CaughtUp s t) : FollowedBy (ofExcept (popWhole s)) (ofExcept (popWhole t)) := by
  cases hp : popOnce s with
  | error f => simp only [popWhole, hp]; exact .fault f
  | ok ru =>
    obtain ⟨r, u⟩ := ru
    obtain ⟨u', hp', hagree, -⟩ := popOnce_agree h.agree (h.obs _ _) hp
    simp only [popWhole, hp, hp']
    exact .next (hagree.giveResult _ _)

theorem readLoop_follows (h : DirectAsSynced s t) (htail : obs .K .tail t = obs .K .tail s) (left count : Nat) :
    FollowedBy (ofExcept (readLoop left count s)) (ofExcept (readLoop left count t)) := by
  induction left generalizing count s t with
  | zero => exact .next (h.readFinish count)
  | succ left ih =>
    cases hp : popOnce s with
    | error f => simp only [readLoop, hp]; exact .fault f
    | ok ru =>
      obtain ⟨r, u⟩ := ru
      obtain ⟨u', hp', hagree, htail'⟩ := popOnce_agree h htail hp
      cases r with
      | none => simp only [readLoop, hp, hp']; exact .next (hagree.readFinish count)
      | some v =>
        simp only [readLoop, hp, hp']
        exact ih (hagree.outWrite count v) (by simpa using htail') (count + 1)

theorem popBegin_agree (h : CaughtUp s t) : DirectAsSynced (popBegin s) (popBegin t) := by
  unfold popBegin
  rw [h.emptySeen, h.obs]
  split
  · exact h.agree.giveResult _ _
  · exact h.agree.setKOp _

theorem drainK1_agree (h : CaughtUp s t) : DirectAsSynced (drainK1 s) (drainK1 t) := by
  unfold drainK1
  rw [h.emptySeen, h.obs]
  split
  · exact (h.agree.setKOp _).giveResult _ _
  · exact h.agree.setKOp _

theorem readK1_agree (h : CaughtUp s t) (n count : Nat) : DirectAsSynced (readK1 n count s) (readK1 n count t) := by
  unfold readK1
  rw [h.emptySeen, h.obs]
  split
  · exact (h.agree.readFinish count).setKOp _
  · exact h.agree.setKOp _

theorem CaughtUp.freshRegion (h : CaughtUp s t) : CaughtUp (freshRegion s) (freshRegion t) :=
  ⟨h.contract, h.agree.freshRegion, by simpa using h.obs⟩

theorem readBegin_agree (h : CaughtUp s t) (n : Nat) : DirectAsSynced (readBegin n s) (readBegin n t) := by
  unfold readBegin
  split
  · exact h.agree.freshRegion.readFinish 0
  · exact readK1_agree h.freshRegion n 0

theorem popContinue_follows (h : DirectAsSynced s t) (p : PopOp) :
    FollowedBy (ofExcept (popContinue p s)) (ofExcept (popContinue p t)) := by
  cases p with
  | afterK1 x =>
    simp only [popContinue, h.memRead_head]
    cases memRead s s.head with
    | ok v => exact .next (h.setKOp _)
    | error f => exact .fault f
  | afterK2 x v => exact .next (((h.advanceHead v).setKOp _).giveResult _ _)

theorem readContinue_follows (h : CaughtUp s t) (n count : Nat) (p : Option PopOp) :
    FollowedBy (ofExcept (readContinue n count p s)) (ofExcept (readContinue n count p t)) := by
  rcases p with - | (x | ⟨x, v⟩)
  · exact .next (readK1_agree h n count)
  · simp only [readContinue, h.agree.memRead_head]
    cases memRead s s.head with
    | ok v => exact .next (h.agree.setKOp _)
    | error f => exact .fault f
  · have taken := (h.agree.advanceHead v).outWrite count v
    simp only [readContinue]
    split
    · exact .next (taken.setKOp _)
    · exact .next ((taken.readFinish _).setKOp _)

theorem drainContinue_follows (h : CaughtUp s t) (p : Option PopOp) :
    FollowedBy (ofExcept (drainContinue p s)) (ofExcept (drainContinue p t)) := by
  rcases p with - | (x | ⟨x, v⟩)
  · exact .next (drainK1_agree h)
  · simp only [drainContinue, h.agree.memRead_head]
    cases memRead s s.head with
    | ok v => exact .next (h.agree.setKOp _)
    | error f => exact .fault f
  · exact .next (((h.agree.advanceHead v).setKOp _).giveResult _ _)

/-! The operations, their first and next micro-steps, and the other entries of the trace. -/

theorem CaughtUp.regionCheck (h : CaughtUp s t) (n : Nat) : regionCheck n t = regionCheck n s := by
  simp only [Machine.regionCheck, h.agree.regionLen]

theorem exec_follows (h : CaughtUp s t) (i : Instr) : FollowedBy (exec i s) (exec i t) := by
  cases i with
  | nop a => exact .unlessRefused h.ready fun _ => .next h.agree
  | isEmpty a => exact .unlessRefused h.ready fun _ => h.emptySeen a ▸ .next (h.agree.giveResult a _)
  | isFull a => exact .unlessRefused h.ready fun _ => h.fullSeen a ▸ .next (h.agree.giveResult a _)
  | push b => exact .unlessRefused h.ready fun _ => .next (pushWhole_agree h b)
  | pop => exact .unlessRefused h.ready fun _ => popWhole_follows h
  | readInto n =>
    exact .unlessRefused h.ready fun _ => .unlessRefused (h.regionCheck n).trans fun _ =>
      readLoop_follows h.agree.freshRegion (h.freshRegion.obs _ _) n 0

theorem beginOp_follows (h : CaughtUp s t) (i : Instr) : FollowedBy (beginOp i s) (beginOp i t) := by
  cases i with
  | nop a => exact exec_follows h (.nop a)
  | isEmpty a => exact exec_follows h (.isEmpty a)
  | isFull a => exact exec_follows h (.isFull a)
  | push b => exact .unlessRefused h.ready fun _ => .next (pushBegin_agree h b)
  | pop => exact .unlessRefused h.ready fun _ => .next (popBegin_agree h)
  | readInto n =>
    exact .unlessRefused h.ready fun _ => .unlessRefused (h.regionCheck n).trans fun _ => .next (readBegin_agree h n)

theorem microStep_follows (h : CaughtUp s t) (a : Agent) : FollowedBy (microStep a s) (microStep a t) := by
  refine .unlessRefused h.canContinue fun _ => ?_
  cases a with
  | P => exact .next (pushContinue_agree h.agree)
  | K =>
    simp only [h.agree.kOp]
    cases s.kOp with
    | idle => exact .refused _
    | pop p => exact popContinue_follows h.agree p
    | readInto n c p => exact readContinue_follows h n c p
    | drain p => exact drainContinue_follows h p

theorem runDrain_follows (h : CaughtUp s t) : FollowedBy (runDrain s) (runDrain t) := by
  refine (exec_follows h .pop).andThen fun u u' hu => ?_
  rw [h.emptySeen, hu.trace]
  split
  · exact .next hu
  · exact .next (hu.setTrace _)

theorem runItem_follows (h : CaughtUp s t) (x : TraceItem) : FollowedBy (runItem x s) (runItem x t) := by
  have hdirect := mode_direct.mp h.agree.direct
  cases x with
  | command w =>
    simp only [runItem, runCommand]
    split
    · exact exec_follows h _
    · exact .refused _
  | start w =>
    simp only [runItem, startCommand]
    split
    · exact beginOp_follows h _
    · exact .refused _
  | micro a => exact microStep_follows h a
  | syncHead k =>
    intro u he
    obtain ⟨hv, tv, hs, -⟩ := syncHead_cases he
    exact absurd (hdirect.symm.trans hs) nofun
  | syncTail k =>
    intro u he
    obtain ⟨hv, tv, hs, -⟩ := syncTail_cases he
    exact absurd (hdirect.symm.trans hs) nofun
  | drain => exact runDrain_follows h
  | startDrain => exact .unlessRefused h.ready fun _ => .next (drainK1_agree h)
  | region len => exact .next { h.agree with regionLen := rfl }
  | rst => exact .refused _

/-- Settles O52: once both views have caught up each agent sees the same in both machines, so every piece of a step does
the same in both; within a `READ_INTO` only `K` steps, and the `tail` it sees stays. -/
theorem directRunsAreSyncedRuns : Obligations.DirectRunsAreSyncedRuns := by
  intro s t u x _ ht h he
  obtain ⟨t', hsync, hcaught⟩ := h.syncBoth_caughtUp ht
  obtain ⟨u', he', hu⟩ := runItem_follows hcaught x u he
  exact ⟨t', u', hsync, he', hu⟩

end Sys2Proof.Machine
end

/-! # The moves of the views: how far they reach, and that fair ones catch up -/

section
namespace Sys2Proof.Machine

variable {s t : State}

/-! `Between` (43_cross_domain_sync.md R113). -/

/-- Settles O47: the walk is `a` advanced by each number of steps up to the distance, the last of which leads to `b`. -/
theorem betweenIsTheForwardWalk : Obligations.BetweenIsTheForwardWalk := by
  intro C a b ha hb
  refine ⟨fun v => ?_, ?_, ?_, ?_⟩
  · simp [mem_between, advanceBy, eq_comm]
  · exact mem_between.mpr ⟨0, Nat.zero_le _, advanceBy_zero ha⟩
  · exact mem_between.mpr ⟨dist C a b, le_rfl, advanceBy_dist_self ha hb⟩
  · simp [between, dist_self ha, advanceBy_zero ha]

/-- Between the slots of two counts, the second less than `C` ahead, are the slots of the counts from the one to the
other. -/
theorem mem_between_mod {C a b v : Nat} (hC : 0 < C) (hab : a ≤ b) (hlt : b < a + C) :
    v ∈ between C (a % C) (b % C) ↔ ∃ j, a ≤ j ∧ j ≤ b ∧ v = j % C := by
  simp only [mem_between, dist_mod hC hab hlt, advanceBy_mod]
  constructor
  · rintro ⟨k, hk, rfl⟩
    exact ⟨a + k, by omega, by omega, rfl⟩
  · rintro ⟨j, haj, hjb, rfl⟩
    exact ⟨j - a, by omega, by rw [Nat.add_sub_of_le haj]⟩

/-! What the synchronisers do (R111, R112). -/

section
variable {hv tv : Nat}

/-- The values that `SYNC_TAIL` can give `tail_view` are those of `Between`. -/
theorem syncTail_reaches (hc : contract s = none) (hs : s.sync = .synced hv tv) {v : Nat} :
    (∃ k t, syncTail k s = .next t ∧ tailView t = some v) ↔ v ∈ between s.C tv s.tail := by
  rw [mem_between]
  constructor
  · rintro ⟨k, t, he, hview⟩
    obtain ⟨hv', tv', hs', hk, rfl⟩ := syncTail_cases he
    obtain ⟨rfl, rfl⟩ : hv' = hv ∧ tv' = tv := by simpa [hs] using hs'.symm
    exact ⟨k, hk, Option.some.inj hview⟩
  · rintro ⟨k, hk, rfl⟩
    exact ⟨k, _, syncTail_synced hc hs hk, rfl⟩

/-- The values that `SYNC_HEAD` can give `head_view` are those of `Between`. -/
theorem syncHead_reaches (hc : contract s = none) (hs : s.sync = .synced hv tv) {v : Nat} :
    (∃ k t, syncHead k s = .next t ∧ headView t = some v) ↔ v ∈ between s.C hv s.head := by
  rw [mem_between]
  constructor
  · rintro ⟨k, t, he, hview⟩
    obtain ⟨hv', tv', hs', hk, rfl⟩ := syncHead_cases he
    obtain ⟨rfl, rfl⟩ : hv' = hv ∧ tv' = tv := by simpa [hs] using hs'.symm
    exact ⟨k, hk, Option.some.inj hview⟩
  · rintro ⟨k, hk, rfl⟩
    exact ⟨k, _, syncHead_synced hc hs hk, rfl⟩

theorem syncTail_outside {k : Nat} (hc : contract s = none) (hs : s.sync = .synced hv tv)
    (hk : dist s.C tv s.tail < k) : syncTail k s = .refused .outsideBetween := by
  simp [syncTail, hc, hs, hk]

theorem syncHead_outside {k : Nat} (hc : contract s = none) (hs : s.sync = .synced hv tv)
    (hk : dist s.C hv s.head < k) : syncHead k s = .refused .outsideBetween := by
  simp [syncHead, hc, hs, hk]

theorem syncTail_direct {k : Nat} (hc : contract s = none) (hs : s.sync = .direct) :
    syncTail k s = .refused .noSynchroniser := by
  simp [syncTail, hc, hs]

theorem syncHead_direct {k : Nat} (hc : contract s = none) (hs : s.sync = .direct) :
    syncHead k s = .refused .noSynchroniser := by
  simp [syncHead, hc, hs]

end

/-- Settles O48: `tail_view` and `tail` are the slots of `TV` and `PU`, which are less than `C` apart. -/
theorem syncTailMovesTheViewForward : Obligations.SyncTailMovesTheViewForward := by
  intro s h
  refine ⟨fun k hv tv hs hk => syncTail_synced h.contract hs hk, fun v hv tv hs => ?_,
    fun k hv tv hs hk => syncTail_outside h.contract hs hk, fun k hs => syncTail_direct h.contract hs⟩
  refine ⟨syncTail_reaches h.contract hs, ?_⟩
  have hview : tv = s.ghost.TV % s.C := by
    have hviews := h.views
    simp only [viewsAgree, hs] at hviews
    exact hviews.2
  have := h.chain
  rw [hview, h.tail_eq]
  exact mem_between_mod h.pos (by omega) (by omega)

/-- Settles O49: `head_view` and `head` are the slots of `HV` and `PO`, which are less than `C` apart. -/
theorem syncHeadMovesTheViewForward : Obligations.SyncHeadMovesTheViewForward := by
  intro s h
  refine ⟨fun k hv tv hs hk => syncHead_synced h.contract hs hk, fun v hv tv hs => ?_,
    fun k hv tv hs hk => syncHead_outside h.contract hs hk, fun k hs => syncHead_direct h.contract hs⟩
  refine ⟨syncHead_reaches h.contract hs, ?_⟩
  have hview : hv = s.ghost.HV % s.C := by
    have hviews := h.views
    simp only [viewsAgree, hs] at hviews
    exact hviews.1
  have := h.chain
  rw [hview, h.head_eq]
  exact mem_between_mod h.pos (by omega) (by omega)

/-! Fair views (R115). -/

/-- A count that never goes back and never passes `N`, and that moves again and again unless it comes to `N`, comes to
`N` and stays there. -/
theorem eventually_eq_of_moves {f : Nat → Nat} {n N : Nat} (hmono : Monotone f) (hle : ∀ m, n ≤ m → f m ≤ N)
    (hmoves : ∀ m, n ≤ m → (∀ k, m ≤ k → f k ≠ N) → ∃ k, m ≤ k ∧ f (k + 1) ≠ f k) :
    ∃ m, ∀ k, m ≤ k → f k = N := by
  by_contra hnever
  have hbelow : ∀ k, n ≤ k → f k ≠ N := by
    intro k hk hN
    exact hnever ⟨k, fun j hj => le_antisymm (hle j (hk.trans hj)) (hN ▸ hmono hj)⟩
  have hgrows : ∀ d, ∃ m, n ≤ m ∧ d ≤ f m := by
    intro d
    induction d with
    | zero => exact ⟨n, le_rfl, Nat.zero_le _⟩
    | succ d ih =>
      obtain ⟨m, hm, hd⟩ := ih
      obtain ⟨k, hk, hmove⟩ := hmoves m hm fun k hk => hbelow k (hm.trans hk)
      have hup : f m ≤ f k := hmono hk
      have hup' : f k ≤ f (k + 1) := hmono k.le_succ
      exact ⟨k + 1, by omega, by omega⟩
  obtain ⟨m, hm, hd⟩ := hgrows (N + 1)
  have := hle m hm
  omega

/-- A view that shows a count `seen`, never more than `C - 1` behind the count `idx` of its register, comes to show the
register for good when `idx` stops, if it moves again and again as long as it does not show it. -/
theorem view_catchesUp {seen idx reg : Nat → Nat} {view : Nat → Option Nat} {C n : Nat}
    (hview : ∀ k, view k = some (seen k % C)) (hreg : ∀ k, reg k = idx k % C) (hmono : Monotone seen)
    (hle : ∀ k, seen k ≤ idx k) (hlt : ∀ k, idx k < seen k + C) (hn : ∀ k, n ≤ k → idx k = idx n)
    (hfair : ∀ m, (∀ k, m ≤ k → view k ≠ some (reg k)) → ∃ k, m ≤ k ∧ view (k + 1) ≠ view k) :
    ∃ m, ∀ k, m ≤ k → view k = some (reg k) := by
  have hcaught k : view k = some (reg k) ↔ seen k = idx k := by
    rw [hview, hreg, Option.some_inj]
    exact ⟨fun e => eq_of_mod_eq (hle k) (hlt k) e, fun e => by rw [e]⟩
  have hmoves m (hm : n ≤ m) (hne : ∀ k, m ≤ k → seen k ≠ idx n) : ∃ k, m ≤ k ∧ seen (k + 1) ≠ seen k := by
    obtain ⟨k, hk, hmove⟩ := hfair m fun k hk => by
      rw [Ne, hcaught, hn k (hm.trans hk)]
      exact hne k hk
    exact ⟨k, hk, fun e => hmove (by rw [hview, hview, e])⟩
  obtain ⟨m, hm⟩ := eventually_eq_of_moves hmono (fun k hk => hn k hk ▸ hle k) hmoves
  refine ⟨max n m, fun k hk => (hcaught k).mpr ?_⟩
  rw [hm k (by omega), hn k (by omega)]

section
variable {sched : Nat → TraceItem} {run : Nat → State}

theorem IsRun.good (hr : IsRun sched run) (h : Good (run 0)) (n : Nat) : Good (run n) := by
  induction n with
  | zero => exact h
  | succ n ih => exact good_runItem ih (hr n)

/-- No entry of a run changes the parameters. -/
theorem IsRun.parameters (hr : IsRun sched run) (n : Nat) : (run n).C = (run 0).C ∧ (run n).mode = (run 0).mode := by
  induction n with
  | zero => exact ⟨rfl, rfl⟩
  | succ n ih =>
    obtain ⟨bytes, o, -⟩ := runItem_owned _ (hr n)
    exact ⟨o.C.trans ih.1, o.mode.trans ih.2⟩

/-- When nothing more is pushed, a fair `ST` brings `tail_view` to `tail` for good. -/
theorem IsRun.tailView_catchesUp (hr : IsRun sched run) (h : Good (run 0)) (hm : (run 0).mode = .SYNCED)
    (hfair : FairTail sched run) {n : Nat} (hn : ∀ m, n ≤ m → (run m).ghost.PU = (run n).ghost.PU) :
    ∃ m, ∀ k, m ≤ k → tailView (run k) = some (run k).tail := by
  have hg := hr.good h
  have hC k := (hr.parameters k).1
  refine view_catchesUp (seen := fun k => (run k).ghost.TV) (C := (run 0).C)
    (fun k => hC k ▸ (hg k).tailView_synced ((hr.parameters k).2.trans hm)) (fun k => hC k ▸ (hg k).tail_eq)
    (monotone_nat_of_le_succ fun k => ((hg k).runItem_mono (hr k)).2.1) (fun k => (hg k).tv_le_pu) (fun k => ?_) hn
    fun m hne => ?_
  · have := (hg k).chain
    have := hC k
    omega
  · obtain ⟨k, hk, -, hmove⟩ := hfair m hne
    exact ⟨k, hk, hmove⟩

/-- When nothing more is popped, a fair `SH` brings `head_view` to `head` for good. -/
theorem IsRun.headView_catchesUp (hr : IsRun sched run) (h : Good (run 0)) (hm : (run 0).mode = .SYNCED)
    (hfair : FairHead sched run) {n : Nat} (hn : ∀ m, n ≤ m → (run m).ghost.PO = (run n).ghost.PO) :
    ∃ m, ∀ k, m ≤ k → headView (run k) = some (run k).head := by
  have hg := hr.good h
  have hC k := (hr.parameters k).1
  refine view_catchesUp (seen := fun k => (run k).ghost.HV) (C := (run 0).C)
    (fun k => hC k ▸ (hg k).headView_synced ((hr.parameters k).2.trans hm)) (fun k => hC k ▸ (hg k).head_eq)
    (monotone_nat_of_le_succ fun k => ((hg k).runItem_mono (hr k)).1) (fun k => (hg k).hv_le_po) (fun k => ?_) hn
    fun m hne => ?_
  · have := (hg k).chain
    have := hC k
    omega
  · obtain ⟨k, hk, -, hmove⟩ := hfair m hne
    exact ⟨k, hk, hmove⟩

end

/-- Settles O51: the counter of a view never goes back nor passes that of its index, which has stopped, and fairness
moves it until it is there. -/
theorem fairViewsCatchUp : Obligations.FairViewsCatchUp := by
  intro sched run hr h hm
  exact ⟨fun hfair ⟨_, hn⟩ => hr.tailView_catchesUp h hm hfair hn,
    fun hfair ⟨_, hn⟩ => hr.headView_catchesUp h hm hfair hn⟩

end Sys2Proof.Machine
end

/-! # The Gray code -/

section
namespace Sys2Proof.Machine

/-- `w` bits are enough for the code of what `w` bits hold. -/
theorem gray_lt {w i : Nat} (h : i < 2 ^ w) : gray i < 2 ^ w :=
  Nat.xor_lt_two_pow h ((Nat.div_le_self i 2).trans_lt h)

/-- Halving a code gives the code of the half. -/
theorem gray_div_two (i : Nat) : gray i / 2 = gray (i / 2) := Nat.xor_div_two

/-- The lowest bit of a code says whether the two lowest bits of the index differ. -/
theorem gray_mod_two (i : Nat) : gray i % 2 = (i + i / 2) % 2 := Nat.xor_mod_two_eq

/-- A code is that of the half with one bit more. -/
theorem gray_eq (i : Nat) : gray i = 2 * gray (i / 2) + (i + i / 2) % 2 := by
  rw [← gray_div_two, ← gray_mod_two, Nat.div_add_mod]

theorem gray_double (m : Nat) : gray (2 * m) = 2 * gray m + m % 2 := by
  rw [gray_eq, show 2 * m / 2 = m by omega]
  omega

theorem gray_double_succ (m : Nat) : gray (2 * m + 1) = 2 * gray m + (m + 1) % 2 := by
  rw [gray_eq, show (2 * m + 1) / 2 = m by omega]
  omega

/-- `B` undoes `G`, bit by bit from the top (R118). -/
theorem ungray_gray {w i : Nat} (h : i < 2 ^ w) : ungray w (gray i) = i := by
  induction w generalizing i with
  | zero => simp only [ungray]; omega
  | succ w ih =>
    have hhalf : i / 2 < 2 ^ w := by omega
    have hmod := gray_mod_two i
    rw [ungray, gray_div_two, ih hhalf]
    omega

theorem gray_inj {i j : Nat} : gray i = gray j ↔ i = j := by
  refine ⟨fun h => ?_, congrArg gray⟩
  have hi : i < 2 ^ (i + j) := Nat.lt_two_pow_self.trans_le (Nat.pow_le_pow_right (by decide) (by omega))
  have hj : j < 2 ^ (i + j) := Nat.lt_two_pow_self.trans_le (Nat.pow_le_pow_right (by decide) (by omega))
  rw [← ungray_gray hi, h, ungray_gray hj]

/-- The lowest bit flipped. -/
theorem double_add_xor_one (x m : Nat) : (2 * x + m % 2) ^^^ 1 = 2 * x + (m + 1) % 2 := by
  have hdiv : ((2 * x + m % 2) ^^^ 1) / 2 = x := by
    rw [Nat.xor_div_two, show (2 * x + m % 2) / 2 = x by omega, Nat.xor_zero]
  have hmod : ((2 * x + m % 2) ^^^ 1) % 2 = (2 * x + m % 2 + 1) % 2 := Nat.xor_mod_two_eq
  omega

/-- A higher bit flipped. -/
theorem double_add_xor_two_pow_succ (x m k : Nat) :
    (2 * x + m % 2) ^^^ 2 ^ (k + 1) = 2 * (x ^^^ 2 ^ k) + m % 2 := by
  have hdiv : ((2 * x + m % 2) ^^^ 2 ^ (k + 1)) / 2 = x ^^^ 2 ^ k := by
    rw [Nat.xor_div_two, show (2 * x + m % 2) / 2 = x by omega, show 2 ^ (k + 1) / 2 = 2 ^ k by omega]
  have hmod : ((2 * x + m % 2) ^^^ 2 ^ (k + 1)) % 2 = (2 * x + m % 2 + 2 ^ (k + 1)) % 2 := Nat.xor_mod_two_eq
  omega

/-- From an even index the lowest bit changes. From an odd one the lowest bit stays, and the rest is the code of the
half, which goes one up. The wrap of `w` bits is the wrap of one bit fewer, down to one bit. -/
theorem gray_succ {w i : Nat} (hw : 0 < w) (h : i < 2 ^ w) :
    ∃ k, k < w ∧ gray ((i + 1) % 2 ^ w) = gray i ^^^ 2 ^ k := by
  induction w, hw using Nat.le_induction generalizing i with
  | base =>
    refine ⟨0, by decide, ?_⟩
    obtain rfl | rfl : i = 0 ∨ i = 1 := by omega
    · decide
    · decide
  | succ w hw ih =>
    obtain ⟨m, rfl | rfl⟩ := Nat.even_or_odd' i
    · have hstay : (2 * m + 1) % 2 ^ (w + 1) = 2 * m + 1 := Nat.mod_eq_of_lt (by omega)
      exact ⟨0, Nat.succ_pos w, by rw [hstay, gray_double_succ, gray_double, Nat.pow_zero, double_add_xor_one]⟩
    · obtain ⟨k, hk, hstep⟩ := ih (i := m) (by omega)
      have hnext : (2 * m + 1 + 1) % 2 ^ (w + 1) = 2 * ((m + 1) % 2 ^ w) := by
        rw [Nat.pow_succ', ← Nat.mul_mod_mul_left]; rfl
      have hparity : (m + 1) % 2 ^ w % 2 = (m + 1) % 2 := Nat.mod_mod_of_dvd _ (dvd_pow_self 2 (Nat.ne_of_gt hw))
      refine ⟨k + 1, Nat.succ_lt_succ hk, ?_⟩
      rw [hnext, gray_double, hparity, hstep, gray_double_succ, double_add_xor_two_pow_succ]

/-- Words that agree in bit `k` and in every other bit are equal. -/
theorem eq_of_testBit_split {a b k : Nat} (hk : a.testBit k = b.testBit k)
    (hother : ∀ j, j ≠ k → a.testBit j = b.testBit j) : a = b := by
  refine Nat.eq_of_testBit_eq fun j => ?_
  by_cases hj : j = k
  · rw [hj, hk]
  · exact hother j hj

/-- A word each of whose bits is that of `a` or of `a` with one bit flipped is the one or the other: only that bit is
left to choose. -/
theorem eq_or_eq_of_testBit {g a b k : Nat} (hb : b = a ^^^ 2 ^ k)
    (h : ∀ j, g.testBit j = a.testBit j ∨ g.testBit j = b.testBit j) : g = a ∨ g = b := by
  have hsame j (hj : j ≠ k) : b.testBit j = a.testBit j := by
    rw [hb, Nat.testBit_xor, Nat.testBit_two_pow_of_ne hj.symm, Bool.xor_false]
  have hother j (hj : j ≠ k) : g.testBit j = a.testBit j := (h j).elim id fun e => e.trans (hsame j hj)
  exact (h k).imp (fun hk => eq_of_testBit_split hk hother)
    fun hk => eq_of_testBit_split hk fun j hj => (hother j hj).trans (hsame j hj).symm

/-- Settles O58: the neighbour's code is one bit away, and equal codes are those of equal indices. -/
theorem grayCodeChangesOneBit : Obligations.GrayCodeChangesOneBit := by
  refine ⟨fun w i hi => ⟨gray_lt hi, ungray_gray hi, fun hw => gray_succ hw hi, fun g hw hg => ?_⟩, by decide,
    by decide, fun s => ⟨?_, ?_⟩⟩
  · obtain ⟨k, -, hstep⟩ := gray_succ hw hi
    exact eq_or_eq_of_testBit hstep hg
  · simp only [grayEmptyK, emptySeen, emptyOf, gray_inj]
  · simp only [grayFullP, fullSeen, fullOf, gray_inj]

end Sys2Proof.Machine
end

/-! # The two exceptional outcomes: overflow and underflow are results -/

section
namespace Sys2Proof.Machine

variable {a : Agent} {i : Instr} {r : Result} {s t : State}

/-- The results an operation can give between `s` and `t`, each with the case it is given in. `NOP` has none; a `PUSH`
decides by what `P` sees in `s`, a `POP` by what `K` sees in `s`, and a `READ_INTO` by what `K` sees in `t`. -/
inductive Answer (s t : State) : Instr → Result → Prop
  | isEmpty (a : Agent) : Answer s t (.isEmpty a) (.isEmpty (emptySeen a s))
  | isFull (a : Agent) : Answer s t (.isFull a) (.isFull (fullSeen a s))
  | pushRejected (b : Byte) (hfull : fullSeen .P s = true) : Answer s t (.push b) (.push false)
  | pushAccepted (b : Byte) (hroom : fullSeen .P s = false) : Answer s t (.push b) (.push true)
  | popNone (hempty : emptySeen .K s = true) : Answer s t .pop (.pop none)
  | popByte (v : Byte) (hseen : emptySeen .K s = false) : Answer s t .pop (.pop (some v))
  | readInto (n : Nat) (bytes : List Byte) (hle : bytes.length ≤ n)
      (hend : bytes.length < n → emptySeen .K t = true) :
      Answer s t (.readInto n) (.readInto bytes.length bytes)

/-- Where exactly one result is new and one was just given, they are the same. -/
theorem result_eq_of_giveResult {b : Agent} {q : Result} {u : State} (hu : u.results = s.results)
    (h : (giveResult b q u).results = s.results ++ [(a, r)]) : q = r := by
  rw [giveResult_results, hu, List.append_cancel_left_eq] at h
  cases h
  rfl

/-- Whatever result an operation adds is one of its answers. -/
theorem exec_answer (he : exec i s = .next t) (hres : t.results = s.results ++ [(a, r)]) : Answer s t i r := by
  cases i with
  | nop b => simp [exec_nop_eq he] at hres
  | isEmpty b =>
    obtain rfl := exec_isEmpty_eq he
    exact result_eq_of_giveResult rfl hres ▸ .isEmpty b
  | isFull b =>
    obtain rfl := exec_isFull_eq he
    exact result_eq_of_giveResult rfl hres ▸ .isFull b
  | push b =>
    obtain ⟨-, ⟨hfull, rfl⟩ | ⟨hroom, rfl⟩⟩ := exec_push_cases he
    · exact result_eq_of_giveResult rfl hres ▸ .pushRejected b hfull
    · exact result_eq_of_giveResult rfl hres ▸ .pushAccepted b hroom
  | pop =>
    obtain ⟨-, ⟨hempty, rfl⟩ | ⟨v, hseen, -, rfl⟩⟩ := exec_pop_cases he
    · exact result_eq_of_giveResult rfl hres ▸ .popNone hempty
    · exact result_eq_of_giveResult rfl hres ▸ .popByte v hseen
  | readInto n =>
    obtain ⟨-, -, vs, hle, rfl, hend⟩ := exec_readInto_cases he
    have hr : Result.readInto vs.length vs = r := by
      rw [readFinish, deliver_fresh_out, regionOf_bytes] at hres
      exact result_eq_of_giveResult (deliver_results _ _ _) hres
    exact hr ▸ .readInto n vs hle fun hlt => (giveResult_emptySeen _ _ _ _).trans (hend hlt)

/-- Settles O40: P1 rejects exactly when `P` sees the ring full, and no other answer is the result `false` of a
`PUSH`. -/
theorem overflowIsOnlyAResult : Obligations.OverflowIsOnlyAResult := by
  refine ⟨fun b s hr hfull => ?_, fun i s t a he hres => ?_⟩
  · rw [exec_push b hr, pushWhole_full (fullSeen_P_iff.mpr hfull), pushReject, giveResult]
  · cases exec_answer he hres with
    | pushRejected b hfull => exact ⟨⟨b, rfl⟩, fullSeen_P_iff.mp hfull⟩

/-- Settles O41: where `K` sees the ring empty K1 ends a `POP` and a `READ_INTO` alike; `none` is the answer of no other
case, and the loop of a `READ_INTO` stops before its last pass only where `K` sees the ring empty. -/
theorem underflowIsOnlyAResult : Obligations.UnderflowIsOnlyAResult := by
  refine ⟨fun s hr hempty => ?_, fun i s t a he hres => ?_, fun i s t a count bytes he hres => ?_⟩
  · have hseen := emptySeen_K_iff.mpr hempty
    refine ⟨?_, fun n _ hn => ?_⟩
    · rw [exec_pop_empty hr hseen, giveResult]
    · rw [exec_readInto_empty hr hn hseen, readFinish_fresh]
  · cases exec_answer he hres with
    | popNone hempty => exact ⟨rfl, emptySeen_K_iff.mp hempty⟩
  · cases exec_answer he hres with
    | readInto n _ hle hend => exact ⟨n, rfl, hle, fun hlt => emptySeen_K_iff.mp (hend hlt)⟩

end Sys2Proof.Machine
end

/-! # The end of a run -/

section
namespace Sys2Proof.Machine

variable {s t : State}

/-! The work left past the end of the trace, which every step makes less. -/

/-- What the micro-steps left to a `PUSH` weigh: P3 weighs 1 more than the 3 micro-steps of the `POP` of the byte that
it adds. -/
def POp.weight : POp → Nat
  | .idle => 0
  | .afterP1 _ _ => 5
  | .afterP2 _ _ => 4

/-- The micro-steps left to a `POP`. -/
def PopOp.weight : PopOp → Nat
  | .afterK1 _ => 2
  | .afterK2 _ _ => 1

/-- The micro-steps left to the `POP` in progress, or to the next one of a `READ_INTO` or a drain. -/
def KOp.weight : KOp → Nat
  | .idle => 0
  | .pop p => p.weight
  | .readInto _ _ none => 3
  | .readInto _ _ (some p) => p.weight
  | .drain none => 3
  | .drain (some p) => p.weight

/-- The most steps until the run is over: what is in progress, and a `POP` for each byte not yet popped. -/
def workLeft (s : State) : Nat := 3 * (s.ghost.PU - s.ghost.PO) + s.pOp.weight + s.kOp.weight

/-- P2 makes the work left to `P` less, and P3 less by more than the `POP` of its byte. -/
theorem pushContinue_weight (hp : s.pOp ≠ .idle) :
    (pushContinue s).pOp.weight + 3 * (pushContinue s).ghost.PU < s.pOp.weight + 3 * s.ghost.PU := by
  unfold pushContinue
  cases h : s.pOp with
  | idle => exact absurd h hp
  | afterP1 b x => simp [pushWrite, POp.weight]
  | afterP2 b x => simp [pushAdvance, POp.weight]; omega

theorem pushContinue_trace (s : State) : (pushContinue s).trace = s.trace := by
  unfold pushContinue
  cases s.pOp <;> rfl

/-- What a micro-step of `K` does to the work left to `K`: K1 and K2 make it less, and K3, after which there may be
another `POP`, pops a byte. -/
structure ConsumerProgress (s t : State) : Prop where
  trace : t.trace = s.trace
  weight : t.kOp.weight + 3 * s.ghost.PO < s.kOp.weight + 3 * t.ghost.PO

theorem popContinue_progress {p : PopOp} (hk : s.kOp = .pop p) (he : popContinue p s = .ok t) :
    ConsumerProgress s t := by
  cases p with
  | afterK1 x =>
    simp only [popContinue] at he
    split at he <;> cases he
    exact ⟨rfl, by simp [hk, KOp.weight, PopOp.weight]⟩
  | afterK2 x v =>
    cases he
    exact ⟨rfl, by simp [hk, KOp.weight, PopOp.weight]; omega⟩

theorem readK1_progress {n c : Nat} (hk : s.kOp = .readInto n c none) : ConsumerProgress s (readK1 n c s) := by
  unfold readK1
  split
  · exact ⟨rfl, by simp [hk, readFinish, KOp.weight]⟩
  · exact ⟨rfl, by simp [hk, KOp.weight, PopOp.weight]⟩

theorem readContinue_progress {n c : Nat} {p : Option PopOp} (hk : s.kOp = .readInto n c p)
    (he : readContinue n c p s = .ok t) : ConsumerProgress s t := by
  rcases p with - | (x | ⟨x, v⟩)
  · cases he
    exact readK1_progress hk
  · simp only [readContinue] at he
    split at he <;> cases he
    exact ⟨rfl, by simp [hk, KOp.weight, PopOp.weight]⟩
  · simp only [readContinue] at he
    split at he <;> cases he
    · exact ⟨rfl, by simp [hk, KOp.weight, PopOp.weight]; omega⟩
    · exact ⟨rfl, by simp [hk, readFinish, KOp.weight, PopOp.weight]; omega⟩

theorem drainK1_progress (hk : s.kOp = .drain none) : ConsumerProgress s (drainK1 s) := by
  unfold drainK1
  split
  · exact ⟨rfl, by simp [hk, KOp.weight]⟩
  · exact ⟨rfl, by simp [hk, KOp.weight, PopOp.weight]⟩

theorem drainContinue_progress {p : Option PopOp} (hk : s.kOp = .drain p) (he : drainContinue p s = .ok t) :
    ConsumerProgress s t := by
  obtain ⟨rfl, rfl⟩ | ⟨x, v, rfl, -, rfl⟩ | ⟨x, v, rfl, rfl⟩ := drainContinue_cases he
  · exact drainK1_progress hk
  · exact ⟨rfl, by simp [hk, KOp.weight, PopOp.weight]⟩
  · exact ⟨rfl, by simp [hk, KOp.weight, PopOp.weight]; omega⟩

theorem microStep_K_progress (he : microStep .K s = .next t) : ConsumerProgress s t := by
  obtain ⟨p, hk, he⟩ | ⟨n, c, p, hk, he⟩ | ⟨p, hk, he⟩ := microStep_K_cases he
  · exact popContinue_progress hk he
  · exact readContinue_progress hk he
  · exact drainContinue_progress hk he

theorem microStep_trace {a : Agent} (he : microStep a s = .next t) : t.trace = s.trace := by
  cases a with
  | P => exact microStep_P_cases he ▸ pushContinue_trace s
  | K => exact (microStep_K_progress he).trace

/-- Every micro-step makes the work left less. -/
theorem Good.workLeft_microStep (h : Good s) {a : Agent} (hb : busy a s = true) (he : microStep a s = .next t) :
    workLeft t < workLeft s := by
  have hs := h.chain
  have ht := (good_microStep h he).chain
  unfold workLeft
  cases a with
  | P =>
    obtain rfl := microStep_P_cases he
    have hweight := pushContinue_weight (of_decide_eq_true hb)
    have hstep := pushContinue_producerStep (s := s)
    have hPO := hstep.PO
    rw [hstep.kOp]
    omega
  | K =>
    have hweight := (microStep_K_progress he).weight
    obtain ⟨bs, -, hstep⟩ := microStep_K_consumerStep he
    have hPU := hstep.PU
    rw [hstep.pOp]
    omega

/-- Past the end of the trace a step performs a micro-step of what is in progress, and none is refused or faults. -/
theorem Good.step_pastEnd (h : Good s) (ht : s.trace = []) (hi : ¬ Idle s) :
    ∃ t, step s = .next t ∧ Good t ∧ t.trace = [] ∧ workLeft t < workLeft s := by
  obtain ⟨a, hstep, hb, hin⟩ : ∃ a, step s = microStep a s ∧ busy a s = true ∧ insidePush a s = false := by
    by_cases hp : s.pOp = .idle
    · have hk : s.kOp ≠ .idle := fun hk => hi ⟨hp, hk⟩
      exact ⟨.K, step_nil_K ht hp hk, decide_eq_true hk, insidePush_of_idle hp .K⟩
    · exact ⟨.P, step_nil_P ht hp, decide_eq_true hp, rfl⟩
  obtain ⟨t, he⟩ := microStepsNeverWait a s h hb hin
  exact ⟨t, hstep.trans he, good_microStep h he, (microStep_trace he).trans ht, h.workLeft_microStep hb he⟩

theorem Good.step_eq_self_iff (h : Good s) (ht : s.trace = []) : step s = .next s ↔ RunOver s := by
  refine ⟨fun he => ⟨ht, by_contra fun hi => ?_⟩, fun ⟨_, hp, hk⟩ => step_over ht hp hk⟩
  obtain ⟨t, he', -, -, hless⟩ := h.step_pastEnd ht hi
  cases he.symm.trans he'
  exact lt_irrefl _ hless

/-- With the commands exhausted the run comes to its end, since the work left cannot become less for ever. -/
theorem Good.runs_toEnd (h : Good s) (ht : s.trace = []) : ∃ k t, steps k s = .next t ∧ RunOver t := by
  induction hn : workLeft s using Nat.strong_induction_on generalizing s with
  | _ n ih =>
    by_cases hi : Idle s
    · exact ⟨0, s, rfl, ht, hi⟩
    · obtain ⟨u, hu, hg, htrace, hless⟩ := h.step_pastEnd ht hi
      obtain ⟨k, t, hk, hover⟩ := ih _ (hn ▸ hless) hg htrace rfl
      exact ⟨k + 1, t, (steps_next hu).trans hk, hover⟩

/-! The final drain. -/

/-- Where `head` and `tail` are equal nothing stands in `storage`, so every byte accepted has been popped. -/
theorem Good.popped_eq_IN (h : Good s) (hht : s.head = s.tail) : s.ghost.popped = s.ghost.IN := by
  have hleft : (s.ghost.IN.drop s.ghost.PO).map some = [] :=
    h.contents_eq.symm.trans (contents_of_head_eq_tail h.head_lt hht)
  have hle : s.ghost.IN.length ≤ s.ghost.PO := List.drop_eq_nil_iff.mp (List.map_eq_nil_iff.mp hleft)
  rw [h.fifo, List.take_of_length_le hle]

theorem returnedBytes_drained (vs : List Byte) (s : State) :
    returnedBytes (drained vs s) = returnedBytes s ++ vs := by
  simp [returnedBytes, drained, popAll_results, Result.bytes, List.flatMap_map]

/-- Where `K` sees `tail` as it is, a drain returns every byte accepted. -/
theorem drain_deliversAll (h : Good s) (hi : Idle s) (hd : Delivered s) (hseen : obs .K .tail s = s.tail) :
    ∃ k t, steps k (setTrace [.drain] s) = .next t ∧ RunOver t ∧ returnedBytes t = s.ghost.IN ∧ t.head = t.tail := by
  obtain ⟨vs, -, hv⟩ := h.popsUntilNone hi.2 rfl
  have hstep := popAll_consumerStep vs s
  have hht : (popAll vs s).head = (popAll vs s).tail := by rw [hv.head, hseen, hstep.tail]
  refine ⟨_, _, steps_drain (hi.ready_K h) hv [], ⟨rfl, hstep.pOp.trans hi.1, (popAll_kOp vs s).trans hi.2⟩, ?_, hht⟩
  calc returnedBytes (setTrace [] (drained vs s))
    _ = returnedBytes s ++ vs := returnedBytes_drained vs s
    _ = (popAll vs s).ghost.popped := by rw [hstep.popped, hd.returned (pendingBytes_idle hi.2)]
    _ = (popAll vs s).ghost.IN := (hv.good h hi.2).popped_eq_IN hht
    _ = s.ghost.IN := popAll_IN vs s

theorem steps_syncTail {hv tv j k : Nat} (hc : contract s = none) (hs : s.sync = .synced hv tv)
    (hj : j ≤ dist s.C tv s.tail) (rest : List TraceItem) :
    steps (k + 1) (setTrace (.syncTail j :: rest) s) = steps k (setTrace rest (moveTailView hv tv j s)) :=
  steps_cons rfl (syncTail_synced (s := setTrace rest s) hc hs hj)

/-- In `SYNCED` mode one `SYNC_TAIL` shows `K` the `tail` as it is; in `DIRECT` mode it is always seen so. -/
theorem syncTail_drain_deliversAll (h : Good s) (hi : Idle s) (hd : Delivered s) :
    ∃ (final : List TraceItem) (k : Nat) (t : State), (∀ x ∈ final, x = .drain ∨ ∃ j, x = .syncTail j) ∧
      steps k (setTrace final s) = .next t ∧ RunOver t ∧ returnedBytes t = s.ghost.IN ∧ t.head = t.tail := by
  cases hs : s.sync with
  | direct =>
    obtain ⟨k, t, ht⟩ := drain_deliversAll h hi hd (by simp [obs, hs])
    exact ⟨[.drain], k, t, by simp, ht⟩
  | synced hv tv =>
    have hmove := syncTail_synced h.contract hs le_rfl
    have hg := good_syncTail h hmove
    have hseen : obs .K .tail (moveTailView hv tv (dist s.C tv s.tail) s) = s.tail :=
      advanceBy_dist_self (h.views_lt hs).2 h.tail_lt
    obtain ⟨k, t, ht, hend⟩ := drain_deliversAll hg hi (hd.of_same rfl rfl rfl rfl) hseen
    exact ⟨[.syncTail (dist s.C tv s.tail), .drain], k + 1, t, by simp,
      (steps_syncTail h.contract hs le_rfl [.drain]).trans ht, hend⟩

/-- Settles O60: each step past the end of the trace makes the work left less, so it changes something and the run comes
to its end; there nothing is pending, so the bytes popped are those returned, and a drain that sees `tail` as it is
pops the rest. -/
theorem runIsOverWhenNothingIsLeft : Obligations.RunIsOverWhenNothingIsLeft := by
  refine ⟨fun s h ht => ⟨h.step_eq_self_iff ht, h.runs_toEnd ht⟩, fun cfg s hC hr ⟨_, hi⟩ => ?_⟩
  obtain ⟨hreturned, hcontents⟩ := bytesArriveInPushOrder cfg s hC hr
  rw [pendingBytes_idle hi.2, List.append_nil] at hreturned
  exact ⟨hreturned, hcontents, syncTail_drain_deliversAll (hr.good hC) hi (hr.delivered hC)⟩

end Sys2Proof.Machine
end
